-- ==== Sys2Proof/Word.lean ====
section
/-! DEFINITION. The machine's two word types (00_scope.md R5: a byte is 8 bits, a word 32). -/

namespace Sys2Proof

/-- A byte, 8 bits (R5). -/
abbrev Byte := BitVec 8

/-- A word, 32 bits (R5): a host register, the command word, the tick input. -/
abbrev Word := BitVec 32

end Sys2Proof
end

