-- ==== Sys2Proof/Syntax.lean ====
section
/-! DEFINITION. The instructions: one constructor per row of spec/opcode_table.json. The first fifteen
are the host commands (30_encoding.md R87), the last seven the wire command bytes (R90). -/

namespace Sys2Proof

/-- One row of the opcode table with its operand fields (R80, R81). -/
inductive Instr where
  /-- OW_RESET (R141). -/
  | owReset
  /-- OW_WRITE_BIT (R112); the operand is `cmd[8]`. -/
  | owWriteBit (v : Bool)
  /-- OW_READ_BIT (R113). -/
  | owReadBit
  /-- OW_WRITE_BYTE (R114); the operand is `cmd[15:8]`. -/
  | owWriteByte (imm8 : Byte)
  /-- OW_READ_BYTE (R115). -/
  | owReadByte
  /-- OW_WRITE_BYTES (R116); the operand is `cmd[20:16]`. -/
  | owWriteBytes (len : BitVec 5)
  /-- OW_READ_BYTES (R117); the operand is `cmd[20:16]`. -/
  | owReadBytes (len : BitVec 5)
  /-- CRC_UPDATE (R133); the operand is `cmd[15:8]`. -/
  | crcUpdate (imm8 : Byte)
  /-- CRC_CHECK (R134); the operand is `cmd[20:16]`. -/
  | crcCheck (len : BitVec 5)
  /-- SEARCH_INIT (R151). -/
  | searchInit
  /-- SEARCH_NEXT (R154). -/
  | searchNext
  /-- READ_ADDRESS (R171); the operand is `cmd[27:24]`. -/
  | readAddress (ctx : BitVec 4)
  /-- SELECT (R176); the operand is `cmd[27:24]`. -/
  | select (ctx : BitVec 4)
  /-- TEMP_UPDATE (R172); the operand is `cmd[27:24]`. -/
  | tempUpdate (ctx : BitVec 4)
  /-- CONFIG_RESOLUTION (R175); the operand is `cmd[27:24]`. -/
  | configResolution (ctx : BitVec 4)
  /-- SEARCH_ROM, wire byte 0xF0 (R90). -/
  | searchRom
  /-- READ_ROM, wire byte 0x33 (R90). -/
  | readRom
  /-- MATCH_ROM, wire byte 0x55 (R90). -/
  | matchRom
  /-- CONVERT_T, wire byte 0x44 (R90). -/
  | convertT
  /-- READ_SCRATCHPAD, wire byte 0xBE (R90). -/
  | readScratchpad
  /-- WRITE_SCRATCHPAD, wire byte 0x4E (R90). -/
  | writeScratchpad
  /-- COPY_SCRATCHPAD, wire byte 0x48 (R90). -/
  | copyScratchpad
  deriving DecidableEq, Repr

/-- An encoded instruction in one of the table's two formats: a command word (R80) or a byte the block
sends on the line (R90). -/
inductive Code where
  | cmd (w : Word)
  | wire (b : Byte)
  deriving DecidableEq, Repr

end Sys2Proof
end

