-- ==== Sys2Proof/WellFormed.lean ====
section
/-! DEFINITION. The range conditions of 30_encoding.md R86 on an instruction's operands: LEN at most
16, and CTX below the number of contexts. -/

namespace Sys2Proof

/-- LEN <= 16 where LEN is used (R86). -/
def Instr.lenOk : Instr → Bool
  | .owWriteBytes len => len.toNat ≤ 16
  | .owReadBytes len => len.toNat ≤ 16
  | .crcCheck len => len.toNat ≤ 16
  | .owReset | .owWriteBit _ | .owReadBit | .owWriteByte _ | .owReadByte | .crcUpdate _ => true
  | .searchInit | .searchNext | .readAddress _ | .select _ | .tempUpdate _ => true
  | .configResolution _ | .searchRom | .readRom | .matchRom | .convertT | .readScratchpad => true
  | .writeScratchpad | .copyScratchpad => true

/-- CTX < NUM_CTX where CTX is used, for a block with `n` contexts (R86). -/
def Instr.ctxOk (n : Nat) : Instr → Bool
  | .readAddress c => c.toNat < n
  | .select c => c.toNat < n
  | .tempUpdate c => c.toNat < n
  | .configResolution c => c.toNat < n
  | .owReset | .owWriteBit _ | .owReadBit | .owWriteByte _ | .owReadByte | .crcUpdate _ => true
  | .owWriteBytes _ | .owReadBytes _ | .crcCheck _ | .searchInit | .searchNext => true
  | .searchRom | .readRom | .matchRom | .convertT | .readScratchpad => true
  | .writeScratchpad | .copyScratchpad => true

/-- Both conditions: the operands of a legal instruction of a block with `n` contexts (R86). -/
def Instr.wellFormed (n : Nat) (i : Instr) : Bool := i.lenOk && i.ctxOk n

/-- The instructions the host can issue: those with a command word (R87), not the wire bytes (R90). -/
def Instr.isCommand : Instr → Bool
  | .owReset | .owWriteBit _ | .owReadBit | .owWriteByte _ | .owReadByte | .owWriteBytes _ => true
  | .owReadBytes _ | .crcUpdate _ | .crcCheck _ | .searchInit | .searchNext | .readAddress _ => true
  | .select _ | .tempUpdate _ | .configResolution _ => true
  | .searchRom | .readRom | .matchRom | .convertT | .readScratchpad | .writeScratchpad => false
  | .copyScratchpad => false

end Sys2Proof
end

