-- ==== Sys2Proof/Decode.lean ====
section
/-! DEFINITION. The decoder (30_encoding.md R86, R87, R90), total on every word and byte and rejecting
by name, and the encoder (R80, R81). -/

namespace Sys2Proof

/-- Why a code is no instruction (R86): the names of the decoder's rejections. -/
inductive Illegal where
  /-- No row of R87 has this OPC. -/
  | opcode
  /-- The OPC is assigned, but a reserved or unused field is not 0 (or `cmd[15:9]` of OW_WRITE_BIT). -/
  | fields
  /-- LEN is 17 or more. -/
  | length
  /-- CTX is NUM_CTX or more. -/
  | context
  /-- The byte is none of the seven wire command bytes. -/
  | wireByte
  deriving DecidableEq, Repr

/-- A row of the opcode map (R87): the word names the row when `w AND mask = pattern`. -/
structure Row where
  pattern : Word
  mask : Word
  build : Word → Instr

/-- OPC, bits 7:0 (R80). -/
def opcOf (w : Word) : BitVec 8 := w.extractLsb' 0 8

/-- IMM8, bits 15:8 (R80). -/
def immOf (w : Word) : BitVec 8 := w.extractLsb' 8 8

/-- LEN, bits 20:16 (R80). -/
def lenOf (w : Word) : BitVec 5 := w.extractLsb' 16 5

/-- CTX, bits 27:24 (R80). -/
def ctxOf (w : Word) : BitVec 4 := w.extractLsb' 24 4

/-- The operand of OW_WRITE_BIT, bit 8 (R81). -/
def bitOf (w : Word) : Bool := w.getLsbD 8

/-- The opcode map (R87). -/
def rows : List Row :=
  [ ⟨0x00000001, 0xFFFFFFFF, fun _ => .owReset⟩,
    ⟨0x00000002, 0xFFFFFEFF, fun w => .owWriteBit (bitOf w)⟩,
    ⟨0x00000003, 0xFFFFFFFF, fun _ => .owReadBit⟩,
    ⟨0x00000004, 0xFFFF00FF, fun w => .owWriteByte (immOf w)⟩,
    ⟨0x00000005, 0xFFFFFFFF, fun _ => .owReadByte⟩,
    ⟨0x00000006, 0xFFE0FFFF, fun w => .owWriteBytes (lenOf w)⟩,
    ⟨0x00000007, 0xFFE0FFFF, fun w => .owReadBytes (lenOf w)⟩,
    ⟨0x00000010, 0xFFFF00FF, fun w => .crcUpdate (immOf w)⟩,
    ⟨0x00000011, 0xFFE0FFFF, fun w => .crcCheck (lenOf w)⟩,
    ⟨0x00000020, 0xFFFFFFFF, fun _ => .searchInit⟩,
    ⟨0x00000021, 0xFFFFFFFF, fun _ => .searchNext⟩,
    ⟨0x00000030, 0xF0FFFFFF, fun w => .readAddress (ctxOf w)⟩,
    ⟨0x00000031, 0xF0FFFFFF, fun w => .select (ctxOf w)⟩,
    ⟨0x00000032, 0xF0FFFFFF, fun w => .tempUpdate (ctxOf w)⟩,
    ⟨0x00000033, 0xF0FFFFFF, fun w => .configResolution (ctxOf w)⟩ ]

/-- The word names the row (R87). -/
def Row.names (r : Row) (w : Word) : Bool := w &&& r.mask == r.pattern

/-- Decodes a command word on a block with `n` contexts (R86). -/
def decodeCmd (n : Nat) (w : Word) : Except Illegal Instr :=
  match rows.find? (·.names w) with
  | none =>
    if rows.any (fun r => opcOf r.pattern == opcOf w) then .error .fields else .error .opcode
  | some r =>
    if (r.build w).lenOk then
      if (r.build w).ctxOk n then .ok (r.build w) else .error .context
    else .error .length

/-- Names a byte the block sends on its own initiative (R90). -/
def decodeWire (b : Byte) : Except Illegal Instr :=
  if b = 0xF0 then .ok .searchRom
  else if b = 0x33 then .ok .readRom
  else if b = 0x55 then .ok .matchRom
  else if b = 0x44 then .ok .convertT
  else if b = 0xBE then .ok .readScratchpad
  else if b = 0x4E then .ok .writeScratchpad
  else if b = 0x48 then .ok .copyScratchpad
  else .error .wireByte

/-- Decodes either format on a block with `n` contexts. -/
def decode (n : Nat) : Code → Except Illegal Instr
  | .cmd w => decodeCmd n w
  | .wire b => decodeWire b

/-- The command word with these fields, RSV0 and RSV1 zero (R80). -/
def cmdWord (opc imm8 : BitVec 8) (len : BitVec 5) (ctx : BitVec 4) : Word :=
  0#4 ++ ctx ++ 0#3 ++ len ++ imm8 ++ opc

/-- The encoding of an instruction (R80, R81, R87, R90). -/
def encode : Instr → Code
  | .owReset => .cmd (cmdWord 0x01 0 0 0)
  | .owWriteBit v => .cmd (cmdWord 0x02 (if v then 1 else 0) 0 0)
  | .owReadBit => .cmd (cmdWord 0x03 0 0 0)
  | .owWriteByte b => .cmd (cmdWord 0x04 b 0 0)
  | .owReadByte => .cmd (cmdWord 0x05 0 0 0)
  | .owWriteBytes len => .cmd (cmdWord 0x06 0 len 0)
  | .owReadBytes len => .cmd (cmdWord 0x07 0 len 0)
  | .crcUpdate b => .cmd (cmdWord 0x10 b 0 0)
  | .crcCheck len => .cmd (cmdWord 0x11 0 len 0)
  | .searchInit => .cmd (cmdWord 0x20 0 0 0)
  | .searchNext => .cmd (cmdWord 0x21 0 0 0)
  | .readAddress c => .cmd (cmdWord 0x30 0 0 c)
  | .select c => .cmd (cmdWord 0x31 0 0 c)
  | .tempUpdate c => .cmd (cmdWord 0x32 0 0 c)
  | .configResolution c => .cmd (cmdWord 0x33 0 0 c)
  | .searchRom => .wire 0xF0
  | .readRom => .wire 0x33
  | .matchRom => .wire 0x55
  | .convertT => .wire 0x44
  | .readScratchpad => .wire 0xBE
  | .writeScratchpad => .wire 0x4E
  | .copyScratchpad => .wire 0x48

/-- The code of an opcode-table row of `nbits` bits whose bits are `w`: 32 bits are a command word, 8
bits a wire byte, and no row has another width. -/
def tableCode (nbits w : Nat) : Option Code :=
  if nbits = 32 then some (.cmd (BitVec.ofNat 32 w))
  else if nbits = 8 then some (.wire (BitVec.ofNat 8 w))
  else none

/-- The instruction the decoder reads from a table word; CTX is checked against 16, the largest
NUM_CTX (R4, log 18). -/
def decodeTableWord (nbits w : Nat) : Option Instr :=
  match tableCode nbits w with
  | none => none
  | some c =>
    match decode 16 c with
    | .ok i => some i
    | .error _ => none

end Sys2Proof
end

