-- ==== Sys2Proof/Config.lean ====
section
/-! DEFINITION. What an implementation fixes (00_scope.md R4) and the values the spec leaves open:
the parameters of the block, the named delays, the constants of the table of R4, and the free values. -/

namespace Sys2Proof

/-- The result of `AwaitHigh` (41_transport.md R103). -/
inductive Rise where
  | rose
  | timeout
  deriving DecidableEq, Repr, Inhabited

/-- The named waits of R4, each the argument of one `Delay` (00_scope.md R8). -/
inductive Delay where
  | tW1L | tW1H | tW0L | tW0H | tRL | tRS | tRH | tRSTL | tPDW | tRSTT | tSETTLE
  deriving DecidableEq, Repr

/-- The OPEN parameters of R4 and of 92_eei_decisions.md's table. They are arguments of the model: a
state carries them and no step changes them (log 5). -/
structure Params where
  /-- `NUM_CTX`, the number of device contexts, 1 to 16. -/
  numCtx : Nat
  /-- `POLL_TICKS`, the polling interval in ticks. -/
  pollTicks : Nat
  /-- `CFG_TH`, the first threshold byte. -/
  cfgTh : Byte
  /-- `CFG_TL`, the second threshold byte. -/
  cfgTl : Byte
  /-- `TICK_PERIOD`, the duration of one tick, in nanoseconds: any positive fraction. -/
  tickPeriod : Rat
  /-- `T_JITTER`, the bound by which a wait may overrun, in nanoseconds. -/
  jitter : Nat
  /-- `BLOCK_BASE`, the platform address of the register space (20_memory.md R60). -/
  blockBase : Nat
  deriving DecidableEq, Repr

namespace Config

/-- `TIMEOUT_TICKS`, the bound of every wait for a rise (R4). -/
def timeoutTicks : Nat := 100

/-- `FORK_FRESH`, one past the last bit (R4, R30). -/
def forkFresh : BitVec 7 := 65

/-- `FORK_DONE`, search exhausted (R4, R30). -/
def forkDone : BitVec 7 := 0

/-- `FAM_DS18S20` (R4; the spec takes it from general knowledge, log 25). -/
def famDs18s20 : Byte := 0x10

/-- `FAM_DS18B20` (R4). -/
def famDs18b20 : Byte := 0x28

/-- `FAM_DS1822` (R4; the spec takes it from general knowledge, log 25). -/
def famDs1822 : Byte := 0x22

/-- `CFG_RES`, the configuration byte that selects 10 bits (R4; general knowledge, log 25). -/
def cfgRes : Byte := 0x3F

/-- The reference value of `NUM_CTX` (R4), which `State.reset` holds (log 5). -/
def refNumCtx : Nat := 4

/-- `CFG_TH` of the machine that `State.reset` describes: OPEN (log 5). -/
opaque cfgTh : Byte

/-- `CFG_TL` of the machine that `State.reset` describes: OPEN (log 5). -/
opaque cfgTl : Byte

/-- One less than the numerator of `TICK_PERIOD`: OPEN (log 5). -/
opaque tickNum : Nat

/-- One less than the denominator of `TICK_PERIOD`: OPEN (log 5). -/
opaque tickDen : Nat

/-- `TICK_PERIOD` of the machine that `State.reset` describes: a positive fraction of which nothing else
is known (log 5). -/
def tickPeriod : Rat := ((tickNum + 1 : Nat) : Rat) / ((tickDen + 1 : Nat) : Rat)

/-- `T_JITTER` of the machine that `State.reset` describes: OPEN (log 5). -/
opaque jitter : Nat

/-- `BLOCK_BASE` of the machine that `State.reset` describes: OPEN (R60, S17; log 5). -/
opaque blockBase : Nat

/-- The level the line shows at the n-th draw when no scripted answer is left (R22, R23; log 2). -/
opaque freeSample : Nat → Bool

/-- The result of a wait for the rise at the n-th draw when no scripted answer is left (R103; log 2). -/
opaque freeRise : Nat → Rise

/-- The ticks that pass before a `Tick()` when no scripted count is left (R24; log 3). -/
opaque freeElapsed : Nat → Nat

/-- `pin_drive` after `DriveLow` or `Release` outside OPEN_DRAIN, whose effect R100 leaves open (log 7). -/
opaque freeDrive : Nat → Bool

/-- What a read of a register other than STATUS returns while a command runs (R39; log 17). -/
opaque freeRead : Nat → BitVec 32

/-- The scratchpad outside TEMP_UPDATE (R34: unspecified; log 9). -/
opaque freeScratchpad : Nat → Vector (BitVec 8) 9

end Config

/-- The lengths of R4 in nanoseconds. No functional rule reads them (R101); the record serves R110
and the sums of R255 (log 22). -/
structure Timing where
  w1l : Nat
  w0l : Nat
  slotW : Nat
  recovery : Nat
  rl : Nat
  rs : Nat
  rh : Nat
  rstl : Nat
  pdw : Nat
  rstt : Nat
  settle : Nat
  deriving DecidableEq, Repr

/-- The source's nominal values (R4). -/
def Timing.nominal : Timing :=
  { w1l := 1000, w0l := 90000, slotW := 90000, recovery := 1000, rl := 2000, rs := 8000, rh := 80000,
    rstl := 500000, pdw := 100000, rstt := 400000, settle := 10000000 }

/-- The length of each named wait; `T_W1H` and `T_W0H` are computed as R4 says. -/
def Timing.length (t : Timing) : Delay → Nat
  | .tW1L => t.w1l
  | .tW1H => t.slotW - t.w1l
  | .tW0L => t.w0l
  | .tW0H => max (t.slotW - t.w0l) t.recovery
  | .tRL => t.rl
  | .tRS => t.rs
  | .tRH => t.rh
  | .tRSTL => t.rstl
  | .tPDW => t.pdw
  | .tRSTT => t.rstt
  | .tSETTLE => t.settle

/-- R110: the low time is at least 1 µs, the sample comes within 15 µs of the slot's start for the
overrun `jitter`, and the slot lasts at least 60 µs. -/
abbrev Timing.readSlotOk (t : Timing) (jitter : Nat) : Prop :=
  1000 ≤ t.rl ∧ t.rl + t.rs + 2 * jitter ≤ 15000 ∧ 60000 ≤ t.rl + t.rs + t.rh

/-- `POLL_TICKS = ceil(POLL_INTERVAL / TICK_PERIOD)` for a tick of `period` nanoseconds (R4). -/
def Timing.pollTicks (period : Rat) : Nat := (250000000 / period).ceil.toNat

/-- What R4 asks of the parameters: `NUM_CTX` in 1..16, and the interval in ticks is the one that a tick
of that duration gives. It is part of `State.Wf`, and `State.reset` meets it. -/
abbrev Params.wf (p : Params) : Prop :=
  1 ≤ p.numCtx ∧ p.numCtx ≤ 16 ∧ 0 < p.tickPeriod ∧ p.pollTicks = Timing.pollTicks p.tickPeriod

/-- R110 of the nominal waits and the parameter `T_JITTER`. -/
abbrev Params.readSlotOk (p : Params) : Prop := Timing.nominal.readSlotOk p.jitter

end Sys2Proof
end

