-- ==== Sys2Proof/Machine/State.lean ====
section
/-! DEFINITION. The machine's state as plain data (10_state.md R20-R43, 41_transport.md R105), the line
events (00_scope.md R8), the host's accesses, and the state right after reset (R41). -/

namespace Sys2Proof.Machine

/-- STATUS.FAULT's codes (60_exceptions.md R200); codes 7 to 15 are never written (S9). -/
inductive FaultCode where
  | none
  | noPresence
  | stuckLow
  | crc
  | neither
  | exhausted
  | illegal
  deriving DecidableEq, Repr

/-- The outcome of a session command (R26, R177); the value 3 is never written (S11). -/
inductive SensorOutcome where
  | ok
  | pollingInProgress
  | timeout
  deriving DecidableEq, Repr

/-- CONFIG.POWER_MODE (R28). -/
inductive PowerMode where
  | active
  | passive
  deriving DecidableEq, Repr

/-- CONFIG.LINE_MODE and the port `pin_mode` (R21, R27); the value 3 is reserved and never held. -/
inductive LineMode where
  | openDrain
  | strongPullup
  | analog
  deriving DecidableEq, Repr

/-- CTX[c].PHASE (R33, R179). -/
inductive Phase where
  | idle
  | conversionStarted
  deriving DecidableEq, Repr

/-- The micro-states of the transceiver (R105), of the reset pulse (R140) and of the settle delay (R154). -/
inductive MicroState where
  | idle
  | w1Low | w1High
  | w0Low | w0Rise | w0High
  | rLow | rWait | rTail
  | rstLow | rstRise | rstWait | rstTail
  | settle
  deriving DecidableEq, Repr

/-- The line events of R8, one per primitive. -/
inductive LineEvent where
  | driveLow
  | release
  | delay (t : Delay)
  | sample (level : Bool)
  | awaitHigh (n : Nat) (r : Rise)
  | setMode (m : LineMode)
  deriving DecidableEq, Repr

/-- The sequencer state SEQ (R35): idle, or at statement `step` of the command word `cmd`. -/
inductive Seq where
  | idle
  | busy (cmd : Word) (step : Nat)
  deriving DecidableEq, Repr

/-- STATUS (R26). The field names are the register's. -/
structure Status where
  busy : Bool
  fault : FaultCode
  presence : Bool
  crcOk : Bool
  found : Bool
  ovr : Bool
  outcome : SensorOutcome
  deriving DecidableEq, Repr

/-- A device context (R33). FAMILY is always `ADDR[0]` and is not stored again: see `family`. -/
structure Context where
  addr : Vector Byte 8
  phase : Phase
  outcome : SensorOutcome
  tempRaw : BitVec 16
  tempF32 : Word
  t0 : Word
  deriving DecidableEq, Repr

/-- The data registers and buffers (R28-R34). The contexts are 16 places, of which the first NUM_CTX
exist; the others keep their reset value (log 6). -/
structure Regs where
  powerMode : PowerMode
  rdata : Byte
  crcAcc : Byte
  curAddr : Vector Byte 8
  fork : BitVec 7
  srchResult : Vector Byte 8
  iobuf : Vector Byte 16
  ctx : Vector Context 16
  sp : Vector Byte 9
  deriving DecidableEq, Repr

/-- The pin interface (R21): `pin_mode`, which is CONFIG.LINE_MODE (R27), and `pin_drive`, true for
released and false for pulling low (R100). -/
structure Pin where
  mode : LineMode
  drive : Bool
  deriving DecidableEq, Repr

/-- The slot state machine and the byte engine (R105). `tx` is the model's own: a byte handed to the
byte engine and not yet begun (log 11). -/
structure Engine where
  micro : MicroState
  bitcnt : BitVec 3
  shift : Byte
  tx : Option Byte
  deriving DecidableEq, Repr

/-- The bus environment and the tick source (R20, R22, R24): the tick input, the answers they have
ready, oldest first, and the number of free values taken so far (logs 2, 3). -/
structure Env where
  tickIn : Word
  samples : List Bool
  rises : List Rise
  elapses : List Nat
  draws : Nat
  deriving DecidableEq, Repr

/-- A host access as it reaches the register port: a byte offset of the register space, which is all the
block decodes of the platform's address, and a width in bits (R60, R63, log 21). -/
structure Access where
  offset : BitVec 10
  width : Nat
  deriving DecidableEq, Repr

/-- What the host does while the block is idle (R215): an access, or a level on the reset input (R230). -/
inductive Input where
  | read (a : Access)
  | write (a : Access) (v : Word)
  | rst (level : Bool)
  deriving DecidableEq, Repr

/-- What the host does while a command runs (R38, R39, R230); a register is named by its word index. -/
inductive BusyAct where
  | read (reg : BitVec 8)
  | write (reg : BitVec 8) (v : Word)
  | rst
  deriving DecidableEq, Repr

/-- A host act that lands after `gap` more statements of the running command (log 1). -/
structure BusyInput where
  gap : Nat
  act : BusyAct
  deriving DecidableEq, Repr

/-- The host (R20): what it will do while the block is idle, oldest first, what lands while a command
runs, and what its reads returned, newest first (logs 1, 28). -/
structure HostSide where
  queue : List Input
  during : List BusyInput
  reads : List (BitVec 8 × Word)
  deriving DecidableEq, Repr

/-- The machine's state. `trace` holds the line events, newest first (R8, log 26). -/
structure State where
  params : Params
  seq : Seq
  status : Status
  regs : Regs
  pin : Pin
  engine : Engine
  rstIn : Bool
  env : Env
  host : HostSide
  trace : List LineEvent
  deriving DecidableEq, Repr

/-- Why a step has no next state though it is no refusal. No instruction ends here. -/
inductive Fault where
  /-- Raised by `step` alone, in a state no run reaches: SEQ is BUSY between two steps and the host does
  nothing. The model runs a command whole in one step (R35), so it cannot resume one. Safe (log 19). -/
  | notResumable
  deriving DecidableEq, Repr

/-- Why the model takes no step. -/
inductive Refusal where
  /-- Raised by `exec` alone, for an instruction without a meaning: no arm raises it. Safe. -/
  | notModelled (mnemonic : String)
  /-- Raised by `step` alone: a host access that is not 32 bits wide at a multiple of 4 (R63, S4). Safe. -/
  | unsupportedAccess
  deriving DecidableEq, Repr

/-- A context after reset (R41). -/
def Context.reset : Context :=
  { addr := Vector.replicate 8 0, phase := .idle, outcome := .ok, tempRaw := 0, tempF32 := 0, t0 := 0 }

/-- STATUS after reset (R41): every field 0. -/
def Status.reset : Status :=
  { busy := false, fault := .none, presence := false, crcOk := false, found := false, ovr := false,
    outcome := .ok }

/-- The registers after reset (R41). SP is unspecified there; its zeros are the model's (log 9). -/
def Regs.reset : Regs :=
  { powerMode := .active
    rdata := 0
    crcAcc := 0
    curAddr := Vector.replicate 8 0
    fork := Config.forkFresh
    srchResult := Vector.replicate 8 0
    iobuf := Vector.replicate 16 0
    ctx := Vector.replicate 16 Context.reset
    sp := Vector.replicate 9 0 }

/-- The pin after reset (R41, R230): ANALOG and released. -/
def Pin.reset : Pin := { mode := .analog, drive := true }

/-- The transceiver after reset: idle (R105, R230); the other values are the model's (log 10). -/
def Engine.reset : Engine := { micro := .idle, bitcnt := 0, shift := 0, tx := none }

/-- The machine right after reset (R41, R230). The parameters, the environment and the host are not the
block's: logs 3, 5 and 12 name the values they have here. POLL_TICKS is what TICK_PERIOD gives (R4). -/
def State.reset : State :=
  { params := { numCtx := Config.refNumCtx, pollTicks := Timing.pollTicks Config.tickPeriod,
                cfgTh := Config.cfgTh, cfgTl := Config.cfgTl, tickPeriod := Config.tickPeriod, jitter := Config.jitter,
                blockBase := Config.blockBase }
    seq := .idle
    status := Status.reset
    regs := Regs.reset
    pin := Pin.reset
    engine := Engine.reset
    rstIn := false
    env := { tickIn := 0, samples := [], rises := [], elapses := [], draws := 0 }
    host := { queue := [], during := [], reads := [] }
    trace := [] }

end Sys2Proof.Machine
end

