-- ==== Sys2Proof/Machine/Operands.lean ====
section
/-! DEFINITION. Operand forms: bits of a byte, bytes of a buffer and of a word (20_memory.md R66-R70),
the search engine's bit positions (44_rom_search.md R150), and the addressing of the contexts (R33). -/

namespace Sys2Proof.Machine

/-- `b[i] <- v` for a byte (R5). -/
def setBit (b : Byte) (i : Nat) (v : Bool) : Byte :=
  if v then b ||| ((1 : Byte) <<< i) else b &&& ~~~((1 : Byte) <<< i)

/-- Byte `j` of a buffer (R7). No command indexes past the end (R61). -/
def byteAt {n : Nat} (a : Vector Byte n) (j : Nat) : Byte := a[j]?.getD 0

/-- `a[j] <- b` for a buffer (R7). -/
def setByte {n : Nat} (a : Vector Byte n) (j : Nat) (b : Byte) : Vector Byte n := a.setIfInBounds j b

/-- The first `n` bytes of a buffer, byte 0 first (R67, R131). -/
def firstBytes {m : Nat} (a : Vector Byte m) (n : Nat) : List Byte := a.toList.take n

/-- `BitOf(a, p)`: bit `(p-1) mod 8` of byte `(p-1) div 8` (R69, R150). -/
def posBit {n : Nat} (a : Vector Byte n) (p : Nat) : Bool := (byteAt a ((p - 1) / 8)).getLsbD ((p - 1) % 8)

/-- `SetBit(a, p, v)` writes that one bit and no other (R150). -/
def setPosBit {n : Nat} (a : Vector Byte n) (p : Nat) (v : Bool) : Vector Byte n :=
  setByte a ((p - 1) / 8) (setBit (byteAt a ((p - 1) / 8)) ((p - 1) % 8) v)

/-- The word that holds bytes `base .. base+3` of a buffer, byte `base+j` at bits [8j+7:8j] (R70). -/
def wordAt {n : Nat} (a : Vector Byte n) (base : Nat) : Word :=
  byteAt a (base + 3) ++ byteAt a (base + 2) ++ byteAt a (base + 1) ++ byteAt a base

/-- Bits [8j+7:8j] of a word (R70). -/
def byteOfWord (w : Word) (j : Nat) : Byte := w.extractLsb' (8 * j) 8

/-- Stores a word at bytes `base .. base+3` of a buffer (R70). -/
def setWordAt {n : Nat} (a : Vector Byte n) (base : Nat) (w : Word) : Vector Byte n :=
  setByte (setByte (setByte (setByte a base (byteOfWord w 0)) (base + 1) (byteOfWord w 1))
    (base + 2) (byteOfWord w 2)) (base + 3) (byteOfWord w 3)

/-- Context `c` (R33). -/
def Regs.context (r : Regs) (c : BitVec 4) : Context := r.ctx.get c.toFin

/-- `CTX[c] <- x` (R33). -/
def Regs.setContext (r : Regs) (c : BitVec 4) (x : Context) : Regs :=
  { r with ctx := r.ctx.set c.toFin x c.toFin.isLt }

/-- CTX[c].FAMILY, always equal to `ADDR[0]` (R33). -/
def Context.family (x : Context) : Byte := byteAt x.addr 0

/-- All eight address bytes 0x00 (R151, R171). -/
def zeroAddr : Vector Byte 8 := Vector.replicate 8 0

end Sys2Proof.Machine
end

