-- ==== Sys2Proof/Machine/Flags.lean ====
section
/-! DEFINITION. The numeric codes of the flags (10_state.md R26-R28, R33, 60_exceptions.md R200) and the
registers that hold flags, as the words a host reads. The block has no arithmetic condition codes (R43). -/

namespace Sys2Proof.Machine

/-- STATUS.FAULT's four bits (R200). -/
def FaultCode.bits : FaultCode → BitVec 4
  | .none => 0
  | .noPresence => 1
  | .stuckLow => 2
  | .crc => 3
  | .neither => 4
  | .exhausted => 5
  | .illegal => 6

/-- The two bits of an OUTCOME field (R26). -/
def SensorOutcome.bits : SensorOutcome → BitVec 2
  | .ok => 0
  | .pollingInProgress => 1
  | .timeout => 2

/-- CTX[c].PHASE's bit (R33). -/
def Phase.bits : Phase → BitVec 1
  | .idle => 0
  | .conversionStarted => 1

/-- CONFIG.POWER_MODE's bit (R28). -/
def PowerMode.bits : PowerMode → BitVec 1
  | .active => 0
  | .passive => 1

/-- CONFIG.LINE_MODE's two bits (R27). -/
def LineMode.bits : LineMode → BitVec 2
  | .openDrain => 0
  | .strongPullup => 1
  | .analog => 2

/-- The power mode a written bit names (R28). -/
def PowerMode.ofBit (b : Bool) : PowerMode := if b then .passive else .active

/-- The line mode two written bits name; 3 is reserved and leaves `old` (R27, S7). -/
def LineMode.ofBits (old : LineMode) (b : BitVec 2) : LineMode :=
  if b = 0 then .openDrain else if b = 1 then .strongPullup else if b = 2 then .analog else old

/-- STATUS as a word (R26): BUSY[0], FAULT[7:4], PRESENCE[8], CRC_OK[9], FOUND[10], OVR[11],
OUTCOME[13:12], all other bits 0 (R40). -/
def Status.word (t : Status) : Word :=
  0#18 ++ t.outcome.bits ++ BitVec.ofBool t.ovr ++ BitVec.ofBool t.found ++ BitVec.ofBool t.crcOk
    ++ BitVec.ofBool t.presence ++ t.fault.bits ++ 0#3 ++ BitVec.ofBool t.busy

/-- CONFIG as a word (R27, R28): POWER_MODE[0], LINE_MODE[2:1]. -/
def configWord (p : PowerMode) (m : LineMode) : Word := 0#29 ++ m.bits ++ p.bits

/-- CTXc_CTL as a word (R33): FAMILY[7:0], PHASE[8], OUTCOME[10:9]. -/
def Context.ctlWord (x : Context) : Word := 0#21 ++ x.outcome.bits ++ x.phase.bits ++ x.family

/-- How the pin drives the line (R22, R27, R104). -/
inductive LineDrive where
  | pulledLow
  | released
  | drivenHigh
  | highImpedance
  deriving DecidableEq, Repr

/-- The line drive that the mode and `pin_drive` give: only OPEN_DRAIN looks at `pin_drive`,
STRONG_PULLUP drives the line high, ANALOG is high-impedance (R27, R104). -/
def Pin.lineDrive (p : Pin) : LineDrive :=
  match p.mode with
  | .openDrain => if p.drive then .released else .pulledLow
  | .strongPullup => .drivenHigh
  | .analog => .highImpedance

end Sys2Proof.Machine
end

