-- ==== Sys2Proof/Machine/Registers.lean ====
section
/-! DEFINITION. The updates of State by its parts, and the host register space (10_state.md R25-R33,
R38-R40, 20_memory.md R60, R63, R64, R70): which register a word index names, and what a read returns
and a write does, while the block is idle and while it is busy. -/

namespace Sys2Proof.Machine

/-- SEQ <- q (R35). -/
def State.setSeq (s : State) (q : Seq) : State := { s with seq := q }

/-- Updates STATUS. -/
def State.onStatus (s : State) (f : Status → Status) : State := { s with status := f s.status }

/-- Updates the registers. -/
def State.onRegs (s : State) (f : Regs → Regs) : State := { s with regs := f s.regs }

/-- Updates the pin interface. -/
def State.onPin (s : State) (f : Pin → Pin) : State := { s with pin := f s.pin }

/-- Updates the transceiver. -/
def State.onEngine (s : State) (f : Engine → Engine) : State := { s with engine := f s.engine }

/-- Updates the reset input's level. -/
def State.setRst (s : State) (level : Bool) : State := { s with rstIn := level }

/-- Updates the environment's answers. -/
def State.onEnv (s : State) (f : Env → Env) : State := { s with env := f s.env }

/-- Updates the host's side. -/
def State.onHost (s : State) (f : HostSide → HostSide) : State := { s with host := f s.host }

/-- Records a line event (R8). -/
def State.emit (s : State) (e : LineEvent) : State := { s with trace := e :: s.trace }

/-- Counts one free value taken. -/
def State.drawn (s : State) : State := s.onEnv fun e => { e with draws := e.draws + 1 }

/-- Updates context `c` (R33). -/
def State.onCtx (s : State) (c : BitVec 4) (f : Context → Context) : State :=
  s.onRegs fun r => r.setContext c (f (r.context c))

/-- `pin_mode <- m` (R27, R104): OPEN_DRAIN releases the line; `pin_drive` is otherwise left (log 8). -/
def State.putMode (s : State) (m : LineMode) : State :=
  s.onPin fun p => { mode := m, drive := if m = .openDrain then true else p.drive }

/-- `pin_mode <- m` with its line event (R27, R104). -/
def State.changeMode (s : State) (m : LineMode) : State := (s.putMode m).emit (.setMode m)

/-- The registers of the map of R25. -/
inductive Reg where
  | cmd | status | config | rdata | crcAcc | fork | curAddrLo | curAddrHi | srchLo | srchHi
  | iobuf (k : Nat)
  | ctxAddrLo (c : BitVec 4)
  | ctxAddrHi (c : BitVec 4)
  | ctxCtl (c : BitVec 4)
  | ctxTempRaw (c : BitVec 4)
  | ctxTempF32 (c : BitVec 4)
  | ctxT0 (c : BitVec 4)
  | reserved
  deriving DecidableEq, Repr

/-- The register at offset `0x080 + 0x20 c + 4 f` (R25). -/
def ctxRegAt (c : BitVec 4) (f : Nat) : Reg :=
  match f with
  | 0 => .ctxAddrLo c
  | 1 => .ctxAddrHi c
  | 2 => .ctxCtl c
  | 3 => .ctxTempRaw c
  | 4 => .ctxTempF32 c
  | 5 => .ctxT0 c
  | _ => .reserved

/-- The register at word index `r`, offset `4 r`, of a block with `n` contexts (R25, R40, R60). -/
def regAt (n : Nat) (r : BitVec 8) : Reg :=
  match r.toNat with
  | 0 => .cmd
  | 1 => .status
  | 2 => .config
  | 3 => .rdata
  | 4 => .crcAcc
  | 5 => .fork
  | 6 => .curAddrLo
  | 7 => .curAddrHi
  | 8 => .srchLo
  | 9 => .srchHi
  | 16 => .iobuf 0
  | 17 => .iobuf 1
  | 18 => .iobuf 2
  | 19 => .iobuf 3
  | k =>
    if 32 ≤ k ∧ (k - 32) / 8 < n ∧ (k - 32) / 8 < 16 then
      ctxRegAt (BitVec.ofNat 4 ((k - 32) / 8)) ((k - 32) % 8)
    else .reserved

/-- What a register reads while the block is idle (R25, R26-R33, R39, R40). -/
def State.readReg (s : State) : Reg → Word
  | .cmd => 0
  | .status => s.status.word
  | .config => configWord s.regs.powerMode s.pin.mode
  | .rdata => s.regs.rdata.setWidth 32
  | .crcAcc => s.regs.crcAcc.setWidth 32
  | .fork => s.regs.fork.setWidth 32
  | .curAddrLo => wordAt s.regs.curAddr 0
  | .curAddrHi => wordAt s.regs.curAddr 4
  | .srchLo => wordAt s.regs.srchResult 0
  | .srchHi => wordAt s.regs.srchResult 4
  | .iobuf k => wordAt s.regs.iobuf (4 * k)
  | .ctxAddrLo c => wordAt (s.regs.context c).addr 0
  | .ctxAddrHi c => wordAt (s.regs.context c).addr 4
  | .ctxCtl c => (s.regs.context c).ctlWord
  | .ctxTempRaw c => (s.regs.context c).tempRaw.setWidth 32
  | .ctxTempF32 c => (s.regs.context c).tempF32
  | .ctxT0 c => (s.regs.context c).t0
  | .reserved => 0

/-- What the host reads at word index `r` while the block is idle (R39, R40). -/
def State.readWord (s : State) (r : BitVec 8) : Word := s.readReg (regAt s.params.numCtx r)

/-- A write to STATUS at any time: bit 11 clears OVR, and nothing else happens (R26, R38). -/
def State.writeStatus (s : State) (v : Word) : State :=
  if v.getLsbD 11 then s.onStatus fun t => { t with ovr := false } else s

/-- A write to CONFIG (R27, R28): both fields at once (R64). Every write of LINE_MODE is a `SetMode`, whose
event R104 and D16 give it whatever the mode was (R27); the value 3 leaves the field unchanged and is none
(R27, S7). That these are the writes R64 means by "changes LINE_MODE" is log 13. -/
def State.writeConfig (s : State) (v : Word) : State :=
  let b := v.extractLsb' 1 2
  let s' := s.onRegs fun r => { r with powerMode := PowerMode.ofBit (v.getLsbD 0) }
  if b = 3 then s' else s'.changeMode (LineMode.ofBits s.pin.mode b)

/-- What a host write does to a register while the block is idle, CMD apart (R25, R40, R64): read-only
registers and reserved offsets ignore it. -/
def State.writeReg (s : State) (v : Word) : Reg → State
  | .status => s.writeStatus v
  | .config => s.writeConfig v
  | .crcAcc => s.onRegs fun r => { r with crcAcc := v.setWidth 8 }
  | .iobuf k => s.onRegs fun r => { r with iobuf := setWordAt r.iobuf (4 * k) v }
  | .ctxAddrLo c => s.onCtx c fun x => { x with addr := setWordAt x.addr 0 v }
  | .ctxAddrHi c => s.onCtx c fun x => { x with addr := setWordAt x.addr 4 v }
  | .cmd | .rdata | .fork | .curAddrLo | .curAddrHi | .srchLo | .srchHi => s
  | .ctxCtl _ | .ctxTempRaw _ | .ctxTempF32 _ | .ctxT0 _ | .reserved => s

/-- Returns `v` to the host for its read of word index `r`. -/
def State.answer (s : State) (r : BitVec 8) (v : Word) : State :=
  s.onHost fun h => { h with reads := (r, v) :: h.reads }

/-- A host read while the block is idle (R39). -/
def State.idleRead (s : State) (r : BitVec 8) : State := s.answer r (s.readWord r)

/-- A host read while a command runs (R39): STATUS as it is, a reserved offset 0 (R40), any other
register a free value (S2, log 17). -/
def State.busyRead (s : State) (r : BitVec 8) : State :=
  match regAt s.params.numCtx r with
  | .status => s.answer r s.status.word
  | .reserved => s.answer r 0
  | _ => (s.answer r (Config.freeRead s.env.draws)).drawn

/-- A host write while a command runs (R38): STATUS as at any time; any other register keeps its value
and OVR is set. -/
def State.busyWrite (s : State) (r : BitVec 8) (v : Word) : State :=
  match regAt s.params.numCtx r with
  | .status => s.writeStatus v
  | _ => s.onStatus fun t => { t with ovr := true }

/-- Asserting `rst` (R230): every piece of the block's state takes its reset value (R41), SP a free
value (R34, log 9), and leaving another mode than ANALOG is a `set_mode` event. The parameters, the
environment, the host and the trace are not the block's and stay (log 15). -/
def State.applyReset (s : State) : State :=
  { State.reset with
    params := s.params
    regs := { Regs.reset with sp := Config.freeScratchpad s.env.draws }
    rstIn := true
    env := { s.env with draws := s.env.draws + 1 }
    host := s.host
    trace := if s.pin.mode = .analog then s.trace else .setMode .analog :: s.trace }

/-- The platform address of an access: BLOCK_BASE plus the offset (R60). -/
def Access.address (p : Params) (a : Access) : Nat := p.blockBase + a.offset.toNat

/-- The access that the block sees of a platform access of `width` bits at `addr`: none outside the
1 KiB at BLOCK_BASE (R60, R211). -/
def accessAt (p : Params) (addr width : Nat) : Option Access :=
  if p.blockBase ≤ addr ∧ addr < p.blockBase + 1024 then
    some { offset := BitVec.ofNat 10 (addr - p.blockBase), width := width }
  else none

/-- The word index an access names, if it has the supported shape: 32 bits at a multiple of 4 (R63). -/
def Access.reg? (a : Access) : Option (BitVec 8) :=
  if a.width = 32 ∧ a.offset.extractLsb' 0 2 = 0 then some (a.offset.extractLsb' 2 8) else none

end Sys2Proof.Machine
end

