-- ==== Sys2Proof/Machine/Ops.lean ====
section
/-! DEFINITION. Running a command: its pseudocode as a program over State (00_scope.md R9, 10_state.md
R35), the host acts that land between its statements (R38, R39, R230), the line primitives
(00_scope.md R8, 41_transport.md R100-R104), and the two ways a command ends: `finish` (R36) and
`fail` (60_exceptions.md R201). The block takes no trap (R202): `fail` is the one shared operation of
every failure. -/

namespace Sys2Proof.Machine

/-- How a command's pseudocode ended before its text did. -/
inductive Ended where
  /-- By `finish` or `fail` (R36, R201). -/
  | finished
  /-- By the reset input (R230). -/
  | abandoned
  deriving DecidableEq, Repr

/-- A piece of pseudocode: from a state it returns a value and a state, or ends the command. -/
abbrev Cmd (α : Type) := EStateM Ended State α

/-- An effect on the state that is no statement of its own. -/
def act (f : State → State) : Cmd Unit := fun s => .ok () (f s)

/-- Reads the state. -/
def ask {α : Type} (f : State → α) : Cmd α := fun s => .ok (f s) s

/-- Ends the command. -/
def stop {α : Type} (e : Ended) : Cmd α := fun s => .error e s

/-- The state a piece of pseudocode leaves, however it ends. -/
def runCmd {α : Type} (c : Cmd α) (s : State) : State :=
  match c s with
  | .ok _ t => t
  | .error _ t => t

/-- Replaces the host acts still to land. -/
def State.setDuring (s : State) (l : List BusyInput) : State := s.onHost fun h => { h with during := l }

/-- The host acts due at this statement land, oldest first: reads and writes as R39 and R38 say, and
`rst` abandons the command at once (R230). A later one comes one statement nearer. -/
def land : List BusyInput → State → EStateM.Result Ended State Unit
  | [], s => .ok () (s.setDuring [])
  | ⟨n + 1, a⟩ :: rest, s => .ok () (s.setDuring (⟨n, a⟩ :: rest))
  | ⟨0, .rst⟩ :: rest, s => .error .abandoned (s.setDuring rest).applyReset
  | ⟨0, .read r⟩ :: rest, s => land rest (s.busyRead r)
  | ⟨0, .write r v⟩ :: rest, s => land rest (s.busyWrite r v)

/-- SEQ moves to the next statement (R35). -/
def Seq.next : Seq → Seq
  | .idle => .idle
  | .busy w k => .busy w (k + 1)

/-- The sequencer comes to its next statement (R35): the host acts due land first, while SEQ is BUSY. -/
def advance : Cmd Unit := fun s =>
  match s.seq with
  | .idle => .ok () s
  | .busy _ _ =>
    match land s.host.during s with
    | .ok _ t => .ok () (t.setSeq t.seq.next)
    | .error e t => .error e t

/-- A statement that writes state. -/
def write (f : State → State) : Cmd Unit := do
  advance
  act f

/-- SEQ <- IDLE and STATUS.BUSY <- 0 (R36). -/
def State.endCommand (s : State) : State :=
  (s.onStatus fun t => { t with busy := false }).setSeq .idle

/-- `finish` ends the command (R36). -/
def finish {α : Type} : Cmd α := do
  write State.endCommand
  stop .finished

/-- STATUS.FAULT <- code (R200). -/
def State.setFault (s : State) (code : FaultCode) : State := s.onStatus fun t => { t with fault := code }

/-- `fail(code)`: STATUS.FAULT <- code, then `finish` (R201). -/
def fail {α : Type} (code : FaultCode) : Cmd α := do
  write (·.setFault code)
  finish

/-- The micro-state becomes `m` (R105). -/
def enter (m : MicroState) : Cmd Unit := act (·.onEngine fun e => { e with micro := m })

/-- `pin_drive <- level` in OPEN_DRAIN; a free value in the other modes, where R100 leaves it open
(log 7). -/
def State.setDrive (s : State) (level : Bool) : State :=
  if s.pin.mode = .openDrain then s.onPin fun p => { p with drive := level }
  else (s.onPin fun p => { p with drive := Config.freeDrive s.env.draws }).drawn

/-- `DriveLow()` (R8, R100). -/
def driveLow : Cmd Unit := write fun s => (s.setDrive false).emit .driveLow

/-- `Release()` (R8, R100). -/
def release : Cmd Unit := write fun s => (s.setDrive true).emit .release

/-- `Delay(t)`: the event alone; it has no duration in the model (R101, log 22). -/
def delay (t : Delay) : Cmd Unit := write (·.emit (.delay t))

/-- The environment's next line level: the oldest scripted answer, or a free value (R22, R23, log 2). -/
def State.nextSample (s : State) : Bool :=
  match s.env.samples with
  | v :: _ => v
  | [] => Config.freeSample s.env.draws

/-- That answer is used up. -/
def State.dropSample (s : State) : State :=
  match s.env.samples with
  | _ :: rest => s.onEnv fun e => { e with samples := rest }
  | [] => s.drawn

/-- `Sample()` (R8, R102): true for a high level. -/
def sample : Cmd Bool := do
  advance
  let v ← ask State.nextSample
  act fun s => s.dropSample.emit (.sample v)
  pure v

/-- The environment's next result of a wait for the rise (R103, log 2). -/
def State.nextRise (s : State) : Rise :=
  match s.env.rises with
  | r :: _ => r
  | [] => Config.freeRise s.env.draws

/-- That answer is used up. -/
def State.dropRise (s : State) : State :=
  match s.env.rises with
  | _ :: rest => s.onEnv fun e => { e with rises := rest }
  | [] => s.drawn

/-- `AwaitHigh(TIMEOUT_TICKS)`: one event, whose result is the environment's (R103, logs 2, 4). -/
def awaitHigh : Cmd Rise := do
  advance
  let r ← ask State.nextRise
  act fun s => s.dropRise.emit (.awaitHigh Config.timeoutTicks r)
  pure r

/-- The ticks that pass before the next `Tick()` (R24, log 3). -/
def State.nextElapsed (s : State) : Nat :=
  match s.env.elapses with
  | n :: _ => n
  | [] => Config.freeElapsed s.env.draws

/-- The tick input advances by that count, wrapping at 2^32 (R24). -/
def State.advanceTick (s : State) : State :=
  let now := s.env.tickIn + BitVec.ofNat 32 s.nextElapsed
  match s.env.elapses with
  | _ :: rest => s.onEnv fun e => { e with tickIn := now, elapses := rest }
  | [] => (s.onEnv fun e => { e with tickIn := now }).drawn

/-- `Tick()` reads the tick input; it is no line event (R8, R24). -/
def tick : Cmd Word := do
  advance
  act State.advanceTick
  ask (·.env.tickIn)

/-- `SetMode(m)` (R8, R104). -/
def setMode (m : LineMode) : Cmd Unit := write (·.changeMode m)

/-- `for j in 0..n-1: f j` (R9). -/
def upTo : Nat → (Nat → Cmd Unit) → Cmd Unit
  | 0, _ => pure ()
  | n + 1, f => do
    upTo n f
    f n

/-- Runs `c` if LEN is at most 16; otherwise the word is illegal (R86, log 18). -/
def withLen (len : BitVec 5) (c : Cmd Unit) : Cmd Unit :=
  if len.toNat ≤ 16 then c else fail .illegal

/-- Runs `c` if context `k` exists; otherwise the word is illegal (R86, log 18). -/
def withCtx (k : BitVec 4) (c : Cmd Unit) : Cmd Unit := fun s =>
  if k.toNat < s.params.numCtx then c s else fail .illegal s

/-- Acceptance of a word written to CMD while idle (R37): STATUS.BUSY <- 1, STATUS.FAULT <- NONE, and
SEQ stands at the start of the command. SEQ leaves IDLE for an illegal word too, which is the model's
choice, so that BUSY = 1 exactly when SEQ is not IDLE (R35): log 29. -/
def State.accept (w : Word) (s : State) : State :=
  (s.onStatus fun t => { t with busy := true, fault := .none }).setSeq (.busy w 0)

/-- The meaning of an instruction whose pseudocode is `c`: every draw has a next state (R216). -/
def runs (c : Cmd Unit) (s : State) : Host.Outcome State Fault Refusal := .next (runCmd c s)

end Sys2Proof.Machine
end

