-- ==== Sys2Proof/Machine/Crc.lean ====
section
/-! DEFINITION. The CRC-8 Dallas validator (42_crc.md): the two functions (R130, R131) and the two
commands (R133, R134). -/

namespace Sys2Proof.Machine

/-- `n` more iterations of R130's loop: `mix` is taken before the shift, and the polynomial 0x8C is
XORed into the shifted value. -/
def crcLoop : Nat → Byte → Byte → Byte
  | 0, crc, _ => crc
  | n + 1, crc, b =>
    crcLoop n (if (crc ^^^ b).getLsbD 0 then (crc >>> 1) ^^^ 0x8C else crc >>> 1) (b >>> 1)

/-- `CrcUpdate(crc, b)` (R130). -/
def crcUpdate (crc b : Byte) : Byte := crcLoop 8 crc b

/-- The accumulator over a byte list from seed 0 (R131). -/
def crcOf (bytes : List Byte) : Byte := bytes.foldl crcUpdate 0

/-- `CrcCheck(buf, n)` over the bytes given: whether the accumulator is 0, and the accumulator (R131). -/
def crcCheck (bytes : List Byte) : Bool × Byte := (crcOf bytes == 0, crcOf bytes)

/-- STATUS.CRC_OK <- ok (R134, R154, R171, R174). -/
def State.setCrcOk (s : State) (ok : Bool) : State := s.onStatus fun t => { t with crcOk := ok }

/-- CRCACC.ACC <- acc (R133, R134). -/
def State.setCrcAcc (s : State) (acc : Byte) : State := s.onRegs fun r => { r with crcAcc := acc }

/-- CRC_UPDATE (R133). CRC_OK is not written. -/
def execCrcUpdate (b : Byte) (s : State) : Host.Outcome State Fault Refusal :=
  runs (do
    write fun s => s.setCrcAcc (crcUpdate s.regs.crcAcc b)
    finish) s

/-- CRC_CHECK (R134). FAULT stays NONE whatever the result. -/
def execCrcCheck (len : BitVec 5) (s : State) : Host.Outcome State Fault Refusal :=
  runs (withLen len do
    let r ← ask fun s => crcCheck (firstBytes s.regs.iobuf len.toNat)
    write (·.setCrcAcc r.2)
    write (·.setCrcOk r.1)
    finish) s

end Sys2Proof.Machine
end

