-- ==== Sys2Proof/Machine/Presence.lean ====
section
/-! DEFINITION. Bus reset and presence detection (43_reset_presence.md): `ResetPresence()` (R140), the
transaction rule (R142) and OW_RESET (R141). -/

namespace Sys2Proof.Machine

/-- STATUS.PRESENCE <- p (R140). -/
def State.setPresence (s : State) (p : Bool) : State := s.onStatus fun t => { t with presence := p }

/-- Steps 4 to 6 of R140 after the line rose: presence is the line low. -/
def presenceWindow : Cmd FaultCode := do
  enter .rstWait
  delay .tPDW
  let high ← sample
  enter .rstTail
  delay .tRSTT
  enter .idle
  write (·.setPresence (!high))
  pure (if high then .noPresence else .none)

/-- What follows the wait for the rise (R140): on TIMEOUT steps 4 to 6 do not run. -/
def afterResetRise : Rise → Cmd FaultCode
  | .rose => presenceWindow
  | .timeout => do
    enter .idle
    write (·.setPresence false)
    pure .stuckLow

/-- `ResetPresence()` (R140). It answers the code: NONE means present, any other not present. -/
def resetPresence : Cmd FaultCode := do
  enter .rstLow
  driveLow
  delay .tRSTL
  enter .rstRise
  release
  let r ← awaitHigh
  afterResetRise r

/-- The start of a transaction (R142): if no presence came, `onFail`, then the command fails with the
code, and nothing more happens on the line. -/
def orFail (onFail : Cmd Unit) : FaultCode → Cmd Unit
  | .none => pure ()
  | code => do
    onFail
    fail code

/-- `ResetPresence()`, and the command's failure when nobody answers (R142). -/
def beginTransaction (onFail : Cmd Unit) : Cmd Unit := do
  let code ← resetPresence
  orFail onFail code

/-- OW_RESET (R141). -/
def execOwReset (s : State) : Host.Outcome State Fault Refusal :=
  runs (do
    beginTransaction (pure ())
    finish) s

end Sys2Proof.Machine
end

