-- ==== Sys2Proof/Machine/Transport.lean ====
section
/-! DEFINITION. The bit-level transport (41_transport.md): the slot state machine's paths (R105-R109)
and the six OW transfer commands (R112-R117). -/

namespace Sys2Proof.Machine

/-- The end of a write-0 slot after its wait for the rise (R106): a TIMEOUT is silent. -/
def endWrite0 : Rise → Cmd Unit
  | .rose => do
    enter .w0High
    delay .tW0H
    enter .idle
  | .timeout => enter .idle

/-- The write-1 slot (R105, R106). -/
def writeOne : Cmd Unit := do
  enter .w1Low
  driveLow
  delay .tW1L
  enter .w1High
  release
  delay .tW1H
  enter .idle

/-- The write-0 slot (R105, R106). -/
def writeZero : Cmd Unit := do
  enter .w0Low
  driveLow
  delay .tW0L
  enter .w0Rise
  release
  let r ← awaitHigh
  endWrite0 r

/-- `WriteBit(v)` (R106). -/
def writeBit (v : Bool) : Cmd Unit := if v then writeOne else writeZero

/-- `ReadBit()` (R107): the sampled level, true for high. -/
def readBit : Cmd Bool := do
  enter .rLow
  driveLow
  delay .tRL
  enter .rWait
  release
  delay .tRS
  let v ← sample
  enter .rTail
  delay .tRH
  enter .idle
  pure v

/-- The byte engine turns to bit `i` (R105, BITCNT). -/
def setBitcnt (i : Nat) : Cmd Unit := act (·.onEngine fun e => { e with bitcnt := BitVec.ofNat 3 i })

/-- The byte engine's shift value becomes `b` (R105). -/
def setShift (b : Byte) : Cmd Unit := act (·.onEngine fun e => { e with shift := b })

/-- `WriteByte(b)` (R108): eight slots, bit 0 first. -/
def writeByte (b : Byte) : Cmd Unit := do
  setShift b
  upTo 8 fun i => do
    setBitcnt i
    writeBit (b.getLsbD i)

/-- The slot of bit `i` of a byte that is read: its level goes into bit `i` of the shift value (R109). -/
def readSlot (i : Nat) : Cmd Unit := do
  setBitcnt i
  let v ← readBit
  act (·.onEngine fun e => { e with shift := setBit e.shift i v })

/-- `ReadByte()` (R109): eight slots, bit 0 first. -/
def readByte : Cmd Byte := do
  setShift 0
  upTo 8 readSlot
  ask (·.engine.shift)

/-- `WriteByte(IOBUF[j])` (R116). -/
def writeBufferByte (j : Nat) : Cmd Unit := do
  let b ← ask fun s => byteAt s.regs.iobuf j
  writeByte b

/-- `IOBUF[j] <- ReadByte()` (R117). -/
def readBufferByte (j : Nat) : Cmd Unit := do
  let b ← readByte
  write (·.onRegs fun r => { r with iobuf := setByte r.iobuf j b })

/-- OW_WRITE_BIT (R112). -/
def execOwWriteBit (v : Bool) (s : State) : Host.Outcome State Fault Refusal :=
  runs (do
    writeBit v
    finish) s

/-- OW_READ_BIT (R113): RDATA.DATA <- the level, zero-extended. -/
def execOwReadBit (s : State) : Host.Outcome State Fault Refusal :=
  runs (do
    let v ← readBit
    write (·.onRegs fun r => { r with rdata := if v then 1 else 0 })
    finish) s

/-- OW_WRITE_BYTE (R114). -/
def execOwWriteByte (b : Byte) (s : State) : Host.Outcome State Fault Refusal :=
  runs (do
    writeByte b
    finish) s

/-- OW_READ_BYTE (R115). -/
def execOwReadByte (s : State) : Host.Outcome State Fault Refusal :=
  runs (do
    let b ← readByte
    write (·.onRegs fun r => { r with rdata := b })
    finish) s

/-- OW_WRITE_BYTES (R116, R118): a byte whose slots misbehave still counts, and the next follows. -/
def execOwWriteBytes (len : BitVec 5) (s : State) : Host.Outcome State Fault Refusal :=
  runs (withLen len do
    upTo len.toNat writeBufferByte
    finish) s

/-- OW_READ_BYTES (R117). -/
def execOwReadBytes (len : BitVec 5) (s : State) : Host.Outcome State Fault Refusal :=
  runs (withLen len do
    upTo len.toNat readBufferByte
    finish) s

end Sys2Proof.Machine
end

