-- ==== Sys2Proof/Machine/Wire.lean ====
section
/-! DEFINITION. The seven wire command bytes (30_encoding.md R90): each is sent by `WriteByte`, bit 0
first. The commands of the search and session families send them by the same definitions. -/

namespace Sys2Proof.Machine

/-- SEARCH_ROM, 0xF0 (R90). -/
def sendSearchRom : Cmd Unit := writeByte 0xF0

/-- READ_ROM, 0x33 (R90). -/
def sendReadRom : Cmd Unit := writeByte 0x33

/-- MATCH_ROM, 0x55 (R90). -/
def sendMatchRom : Cmd Unit := writeByte 0x55

/-- CONVERT_T, 0x44 (R90). -/
def sendConvertT : Cmd Unit := writeByte 0x44

/-- READ_SCRATCHPAD, 0xBE (R90). -/
def sendReadScratchpad : Cmd Unit := writeByte 0xBE

/-- WRITE_SCRATCHPAD, 0x4E (R90). -/
def sendWriteScratchpad : Cmd Unit := writeByte 0x4E

/-- COPY_SCRATCHPAD, 0x48 (R90). -/
def sendCopyScratchpad : Cmd Unit := writeByte 0x48

/-- The byte SEARCH_ROM goes out on the line. -/
def execSearchRom (s : State) : Host.Outcome State Fault Refusal := runs sendSearchRom s

/-- The byte READ_ROM goes out on the line. -/
def execReadRom (s : State) : Host.Outcome State Fault Refusal := runs sendReadRom s

/-- The byte MATCH_ROM goes out on the line. -/
def execMatchRom (s : State) : Host.Outcome State Fault Refusal := runs sendMatchRom s

/-- The byte CONVERT_T goes out on the line. -/
def execConvertT (s : State) : Host.Outcome State Fault Refusal := runs sendConvertT s

/-- The byte READ_SCRATCHPAD goes out on the line. -/
def execReadScratchpad (s : State) : Host.Outcome State Fault Refusal := runs sendReadScratchpad s

/-- The byte WRITE_SCRATCHPAD goes out on the line. -/
def execWriteScratchpad (s : State) : Host.Outcome State Fault Refusal := runs sendWriteScratchpad s

/-- The byte COPY_SCRATCHPAD goes out on the line. -/
def execCopyScratchpad (s : State) : Host.Outcome State Fault Refusal := runs sendCopyScratchpad s

end Sys2Proof.Machine
end

