-- ==== Sys2Proof/Machine/Search.lean ====
section
/-! DEFINITION. The ROM search engine (44_rom_search.md R150-R156): SEARCH_INIT and SEARCH_NEXT. -/

namespace Sys2Proof.Machine

/-- STATUS.FOUND <- f (R151, R154). -/
def State.setFound (s : State) (f : Bool) : State := s.onStatus fun t => { t with found := f }

/-- FORK.POS <- p (R30). -/
def State.setFork (s : State) (p : BitVec 7) : State := s.onRegs fun r => { r with fork := p }

/-- CUR_ADDR <- a (R30). -/
def State.setCurAddr (s : State) (a : Vector Byte 8) : State := s.onRegs fun r => { r with curAddr := a }

/-- SRCH_RESULT <- a (R31). -/
def State.setSrchResult (s : State) (a : Vector Byte 8) : State :=
  s.onRegs fun r => { r with srchResult := a }

/-- The branch bit and the new `newfork` at position `p` for the pair (b, cb) (R152), with the fork
position `F` of the pass and the earlier bit `prev` (R153). No bit present is `none` (R156). -/
def branch (p F : Nat) (newfork : BitVec 7) (b cb prev : Bool) : Option (Bool × BitVec 7) :=
  match b, cb with
  | false, false =>
    if p < F then some (prev, if prev then newfork else BitVec.ofNat 7 p)
    else if p = F then some (true, newfork)
    else some (false, BitVec.ofNat 7 p)
  | false, true => some (false, newfork)
  | true, false => some (true, newfork)
  | true, true => none

/-- One position of the pass (R154): two reads, the choice, one write, and the bit into CUR_ADDR. It
answers the new `newfork`. -/
def takeBranch (p : Nat) : Option (Bool × BitVec 7) → Cmd (BitVec 7)
  | none => fail .neither
  | some (choice, newfork) => do
    writeBit choice
    write fun s => s.setCurAddr (setPosBit s.regs.curAddr p choice)
    pure newfork

/-- Position `p` of the pass (R152-R154). -/
def searchPosition (p F : Nat) (newfork : BitVec 7) : Cmd (BitVec 7) := do
  let b ← readBit
  let cb ← readBit
  let prev ← ask fun s => posBit s.regs.curAddr p
  takeBranch p (branch p F newfork b cb prev)

/-- The positions `1 .. n` of a pass with fork position `F`, in order; the answer is `newfork`, which
starts at 0 (R153, R154). -/
def searchPositions (F : Nat) : Nat → Cmd (BitVec 7)
  | 0 => pure 0
  | n + 1 => do
    let newfork ← searchPositions F n
    searchPosition (n + 1) F newfork

/-- SEARCH_NEXT with FORK = 0 fails with EXHAUSTED (R154). -/
def unlessExhausted (fork : BitVec 7) : Cmd Unit :=
  if fork = Config.forkDone then fail .exhausted else pure ()

/-- SEARCH_INIT (R151). The eight zero bytes are one statement (log 20). -/
def execSearchInit (s : State) : Host.Outcome State Fault Refusal :=
  runs (do
    write (·.setCurAddr zeroAddr)
    write (·.setFork Config.forkFresh)
    write (·.setFound false)
    finish) s

/-- Completion of a pass (R155). -/
def completePass (newfork : BitVec 7) : Cmd Unit := do
  write (·.setFork newfork)
  write fun s => s.setSrchResult s.regs.curAddr
  write (·.setFound true)
  write fun s => s.setCrcOk (crcCheck (firstBytes s.regs.srchResult 8)).1
  finish

/-- SEARCH_NEXT (R154). -/
def execSearchNext (s : State) : Host.Outcome State Fault Refusal :=
  runs (do
    enter .settle
    delay .tSETTLE
    enter .idle
    write (·.setFound false)
    let fork ← ask (·.regs.fork)
    unlessExhausted fork
    beginTransaction (pure ())
    sendSearchRom
    let F ← ask (·.regs.fork.toNat)
    let newfork ← searchPositions F 64
    completePass newfork) s

end Sys2Proof.Machine
end

