-- ==== Sys2Proof/Machine/Temp.lean ====
section
/-! DEFINITION. `DecodeTemp` (45_session.md R178): the raw value and its binary32. -/

namespace Sys2Proof.Machine

/-- The binary32 bits of `x / 2^k`, which is exact for the values of R178: sign, exponent with bias
127, and the fraction below the leading bit; 0 is +0.0. -/
def binary32 (x : Int) (k : Nat) : Word :=
  if x = 0 then 0
  else
    let m := x.natAbs
    let e := m.log2
    BitVec.ofNat 32
      ((if x < 0 then 2 ^ 31 else 0) + (e + 127 - k) * 2 ^ 23 + (m - 2 ^ e) * 2 ^ (23 - e))

/-- The power of two a family divides by: 2 for the DS18S20, 16 for every other family code (R178). -/
def scaleOf (fam : Byte) : Nat := if fam = Config.famDs18s20 then 1 else 4

/-- The raw value: the little-endian 16 bits of the first two scratchpad bytes (R68, R178). -/
def rawOf (lo hi : Byte) : BitVec 16 := hi ++ lo

/-- The temperature in degrees Celsius as binary32 bits (R178). -/
def tempOf (raw : BitVec 16) (fam : Byte) : Word := binary32 raw.toInt (scaleOf fam)

/-- `DecodeTemp(lo, hi, fam)` (R178). -/
def decodeTemp (lo hi fam : Byte) : BitVec 16 × Word := (rawOf lo hi, tempOf (rawOf lo hi) fam)

end Sys2Proof.Machine
end

