-- ==== Sys2Proof/Machine/Session.lean ====
section
/-! DEFINITION. The device session protocol and the temperature sequencer (45_session.md R170-R181):
READ_ADDRESS, SELECT, TEMP_UPDATE and CONFIG_RESOLUTION. -/

namespace Sys2Proof.Machine

/-- `WriteByte(CTX[c].ADDR[j])` (R170). -/
def sendAddressByte (c : BitVec 4) (j : Nat) : Cmd Unit := do
  let b ← ask fun s => byteAt (s.regs.context c).addr j
  writeByte b

/-- `SelectSeq(c)` (R170): the Match-ROM byte and the eight address bytes. -/
def selectSeq (c : BitVec 4) : Cmd Unit := do
  sendMatchRom
  upTo 8 (sendAddressByte c)

/-- `SetOutcome(c, o)` (R177): STATUS.OUTCOME, then CTX[c].OUTCOME. -/
def setOutcome (c : BitVec 4) (o : SensorOutcome) : Cmd Unit := do
  write (·.onStatus fun t => { t with outcome := o })
  write (·.onCtx c fun x => { x with outcome := o })

/-- CTX[c].ADDR <- a. -/
def State.setAddr (s : State) (c : BitVec 4) (a : Vector Byte 8) : State :=
  s.onCtx c fun x => { x with addr := a }

/-- A failing READ_ADDRESS: the address is zeroed (one statement, log 20) and the outcome is Timeout
(R171). -/
def clearAddress (c : BitVec 4) : Cmd Unit := do
  write (·.setAddr c zeroAddr)
  setOutcome c .timeout

/-- `CTX[c].ADDR[j] <- ReadByte()` (R171). -/
def readAddressByte (c : BitVec 4) (j : Nat) : Cmd Unit := do
  let b ← readByte
  write (·.onCtx c fun x => { x with addr := setByte x.addr j b })

/-- The integrity gate (R171, R174): STATUS.CRC_OK <- ok; a failing check is `onFail`, then the fault
CRC. -/
def crcGate (ok : Bool) (onFail : Cmd Unit) : Cmd Unit := do
  write (·.setCrcOk ok)
  if ok then pure ()
  else
    onFail
    fail .crc

/-- READ_ADDRESS (R171). -/
def execReadAddress (c : BitVec 4) (s : State) : Host.Outcome State Fault Refusal :=
  runs (withCtx c do
    beginTransaction (clearAddress c)
    sendReadRom
    upTo 8 (readAddressByte c)
    let ok ← ask fun s => (crcCheck (firstBytes (s.regs.context c).addr 8)).1
    crcGate ok (clearAddress c)
    setOutcome c .ok
    finish) s

/-- SELECT (R176): no reset, no flag. -/
def execSelect (c : BitVec 4) (s : State) : Host.Outcome State Fault Refusal :=
  runs (withCtx c do
    selectSeq c
    finish) s

/-- In Passive power mode the pin mode becomes `m` (R173, R174). -/
def ifPassive (m : LineMode) : PowerMode → Cmd Unit
  | .passive => setMode m
  | .active => pure ()

/-- `StartPhase(c)` (R173). -/
def startPhase (c : BitVec 4) : Cmd Unit := do
  beginTransaction (setOutcome c .timeout)
  selectSeq c
  sendConvertT
  let power ← ask (·.regs.powerMode)
  ifPassive .strongPullup power
  let now ← tick
  write (·.onCtx c fun x => { x with t0 := now })
  write (·.onCtx c fun x => { x with phase := .conversionStarted })
  setOutcome c .pollingInProgress
  finish

/-- `SP[j] <- ReadByte()` (R174). -/
def readScratchpadByte (j : Nat) : Cmd Unit := do
  let b ← readByte
  write (·.onRegs fun r => { r with sp := setByte r.sp j b })

/-- Outside the read phase the scratchpad's value is unspecified (R34): it becomes a free value
(log 9). -/
def State.releaseScratchpad (s : State) : State :=
  (s.onRegs fun r => { r with sp := Config.freeScratchpad s.env.draws }).drawn

/-- A read phase whose CRC fails (R174). TEMP_RAW and TEMP_F32 keep the last good reading. -/
def dropReading (c : BitVec 4) : Cmd Unit := do
  act State.releaseScratchpad
  setOutcome c .timeout

/-- The reading of a good scratchpad goes into the context (R174): TEMP_RAW, then TEMP_F32. -/
def storeReading (c : BitVec 4) : Cmd Unit := do
  let reading ← ask fun s =>
    decodeTemp (byteAt s.regs.sp 0) (byteAt s.regs.sp 1) (s.regs.context c).family
  write (·.onCtx c fun x => { x with tempRaw := reading.1 })
  write (·.onCtx c fun x => { x with tempF32 := reading.2 })

/-- `ReadPhase(c)` (R174). -/
def readPhase (c : BitVec 4) : Cmd Unit := do
  let power ← ask (·.regs.powerMode)
  ifPassive .openDrain power
  write (·.onCtx c fun x => { x with phase := .idle })
  beginTransaction (setOutcome c .timeout)
  selectSeq c
  sendReadScratchpad
  upTo 9 readScratchpadByte
  let ok ← ask fun s => (crcCheck (firstBytes s.regs.sp 9)).1
  crcGate ok (dropReading c)
  storeReading c
  act State.releaseScratchpad
  setOutcome c .ok
  finish

/-- A TEMP_UPDATE before the interval has passed (R172): no line event. -/
def stillConverting (c : BitVec 4) : Cmd Unit := do
  setOutcome c .pollingInProgress
  finish

/-- The polling gate (R172): elapsed ticks, modulo 2^32, against POLL_TICKS. -/
def gateOpen (now t0 : Word) (pollTicks : Nat) : Bool := pollTicks ≤ (now - t0).toNat

/-- TEMP_UPDATE in ConversionStarted (R172). -/
def pollPhase (c : BitVec 4) : Cmd Unit := do
  let now ← tick
  let open? ← ask fun s => gateOpen now (s.regs.context c).t0 s.params.pollTicks
  if open? then readPhase c else stillConverting c

/-- TEMP_UPDATE by the phase the context is in (R172, R179). -/
def tempPhase (c : BitVec 4) : Phase → Cmd Unit
  | .idle => startPhase c
  | .conversionStarted => pollPhase c

/-- TEMP_UPDATE (R172). -/
def execTempUpdate (c : BitVec 4) (s : State) : Host.Outcome State Fault Refusal :=
  runs (withCtx c do
    let phase ← ask fun s => (s.regs.context c).phase
    tempPhase c phase) s

/-- The families whose resolution is configured (R175). -/
def configurable (fam : Byte) : Bool := fam == Config.famDs18b20 || fam == Config.famDs1822

/-- The first transaction of CONFIG_RESOLUTION (R175): select, 0x4E, TH, TL, configuration byte. -/
def writeConfiguration (c : BitVec 4) : Cmd Unit := do
  beginTransaction (setOutcome c .timeout)
  selectSeq c
  sendWriteScratchpad
  let p ← ask (·.params)
  writeByte p.cfgTh
  writeByte p.cfgTl
  writeByte Config.cfgRes

/-- The second transaction of CONFIG_RESOLUTION (R175): select, 0x48. -/
def copyConfiguration (c : BitVec 4) : Cmd Unit := do
  beginTransaction (setOutcome c .timeout)
  selectSeq c
  sendCopyScratchpad

/-- Both transactions, or nothing for another family (R175). -/
def configureFamily (c : BitVec 4) (fam : Byte) : Cmd Unit :=
  if configurable fam then do
    writeConfiguration c
    copyConfiguration c
  else pure ()

/-- CONFIG_RESOLUTION (R175). -/
def execConfigResolution (c : BitVec 4) (s : State) : Host.Outcome State Fault Refusal :=
  runs (withCtx c do
    let fam ← ask fun s => (s.regs.context c).family
    configureFamily c fam
    setOutcome c .ok
    finish) s

end Sys2Proof.Machine
end

