-- ==== Sys2Proof/Machine/Dispatch.lean ====
section
/-! DEFINITION. The meaning of every row of spec/opcode_table.json: one arm per constructor. -/

namespace Sys2Proof.Machine

def exec (i : Instr) (s : State) : Host.Outcome State Fault Refusal :=
  match i with
  | .owReset => Sys2Proof.Machine.execOwReset s
  | .owWriteBit v => Sys2Proof.Machine.execOwWriteBit v s
  | .owReadBit => Sys2Proof.Machine.execOwReadBit s
  | .owWriteByte imm8 => Sys2Proof.Machine.execOwWriteByte imm8 s
  | .owReadByte => Sys2Proof.Machine.execOwReadByte s
  | .owWriteBytes len => Sys2Proof.Machine.execOwWriteBytes len s
  | .owReadBytes len => Sys2Proof.Machine.execOwReadBytes len s
  | .crcUpdate imm8 => Sys2Proof.Machine.execCrcUpdate imm8 s
  | .crcCheck len => Sys2Proof.Machine.execCrcCheck len s
  | .searchInit => Sys2Proof.Machine.execSearchInit s
  | .searchNext => Sys2Proof.Machine.execSearchNext s
  | .readAddress ctx => Sys2Proof.Machine.execReadAddress ctx s
  | .select ctx => Sys2Proof.Machine.execSelect ctx s
  | .tempUpdate ctx => Sys2Proof.Machine.execTempUpdate ctx s
  | .configResolution ctx => Sys2Proof.Machine.execConfigResolution ctx s
  | .searchRom => Sys2Proof.Machine.execSearchRom s
  | .readRom => Sys2Proof.Machine.execReadRom s
  | .matchRom => Sys2Proof.Machine.execMatchRom s
  | .convertT => Sys2Proof.Machine.execConvertT s
  | .readScratchpad => Sys2Proof.Machine.execReadScratchpad s
  | .writeScratchpad => Sys2Proof.Machine.execWriteScratchpad s
  | .copyScratchpad => Sys2Proof.Machine.execCopyScratchpad s

end Sys2Proof.Machine
end

