-- ==== Sys2Proof/Machine/Fetch.lean ====
section
/-! DEFINITION. How an instruction comes to run: a command is consumed from the host's write to CMD
(10_state.md R37, 20_memory.md R74), a wire byte from the byte engine (41_transport.md R105, log 11);
and what every other host input does (R38-R40, R63, R230). -/

namespace Sys2Proof.Machine

/-- A word written to CMD while idle (R37): it is accepted, decoded, and run; an illegal word does
`fail(ILLEGAL)` and nothing else (R86, R203). While the two statements of that `fail` run, SEQ is BUSY with
the illegal word, so that host acts can land between them as in any command: the model's choice, log 29. -/
def issue (w : Word) (s : State) : Host.Outcome State Fault Refusal :=
  match decodeCmd s.params.numCtx w with
  | .ok i => exec i (s.accept w)
  | .error _ => runs (fail .illegal) (s.accept w)

/-- The byte engine begins the byte it was handed (R105): one of the seven wire command bytes (R90), or
any other byte, which has no meaning beyond its bits. -/
def sendPending (b : Byte) (s : State) : Host.Outcome State Fault Refusal :=
  match decodeWire b with
  | .ok i => exec i s
  | .error _ => runs (writeByte b) s

/-- A supported host read (R39). -/
def hostRead (r : BitVec 8) (s : State) : State :=
  match s.seq with
  | .idle => s.idleRead r
  | .busy _ _ => s.busyRead r

/-- A supported host write (R37, R38, R40): to CMD while idle it issues the word. -/
def hostWrite (r : BitVec 8) (v : Word) (s : State) : Host.Outcome State Fault Refusal :=
  match s.seq with
  | .busy _ _ => .next (s.busyWrite r v)
  | .idle =>
    match regAt s.params.numCtx r with
    | .cmd => issue v s
    | reg => .next (s.writeReg v reg)

/-- A host input while `rst` is low: an access of another shape is refused (R63). -/
def input (s : State) : Input → Host.Outcome State Fault Refusal
  | .rst true => .next s.applyReset
  | .rst false => .next s
  | .read a =>
    match a.reg? with
    | none => .refused .unsupportedAccess
    | some r => .next (hostRead r s)
  | .write a v =>
    match a.reg? with
    | none => .refused .unsupportedAccess
    | some r => hostWrite r v s

/-- A host input while `rst` is asserted: the state stays at its reset value, so reads return it and
writes do nothing (R230, log 15). -/
def inputInReset (s : State) : Input → Host.Outcome State Fault Refusal
  | .rst level => .next (s.setRst level)
  | .read a =>
    match a.reg? with
    | none => .refused .unsupportedAccess
    | some r => .next (s.idleRead r)
  | .write a _ =>
    match a.reg? with
    | none => .refused .unsupportedAccess
    | some _ => .next s

/-- A host input at either level of `rst`: while it is asserted no access does anything (R230, log 15). -/
def hostInput (s : State) (i : Input) : Host.Outcome State Fault Refusal :=
  if s.rstIn then inputInReset s i else input s i

/-- The oldest host input is taken. -/
def State.takeInput (s : State) : State := s.onHost fun h => { h with queue := h.queue.tail }

/-- The byte engine takes the byte it was handed. -/
def State.takeTx (s : State) : State := s.onEngine fun e => { e with tx := none }

/-- Nothing is pending: an idle block runs nothing until the host writes CMD (R230, log 19). -/
def idleStep (s : State) : Host.Outcome State Fault Refusal :=
  match s.seq with
  | .idle => .next s
  | .busy _ _ => .fault .notResumable

/-- The next thing that happens: in reset only host inputs; else a byte handed to the byte engine, else
the host's oldest input, else nothing. -/
def fetchAndRun (s : State) : Host.Outcome State Fault Refusal :=
  match s.rstIn, s.engine.tx, s.host.queue with
  | true, _, [] => .next s
  | true, _, i :: _ => inputInReset s.takeInput i
  | false, some b, _ => sendPending b s.takeTx
  | false, none, [] => idleStep s
  | false, none, i :: _ => input s.takeInput i

/-- The host's write of a word to CMD, offset 0x000 (R80). -/
def cmdWrite (w : Word) : Input := .write { offset := 0, width := 32 } w

/-- The state in which the host's next act is to write `w` to CMD of the idle block. -/
def State.withCmdWrite (s : State) (w : Word) : State :=
  (((s.setSeq .idle).setRst false).onStatus fun t => { t with busy := false }).takeTx.onHost
    fun h => { h with queue := cmdWrite w :: h.queue }

/-- The state in which the byte engine has just been handed `b` (log 11). -/
def State.withPendingByte (s : State) (b : Byte) : State :=
  (s.setRst false).onEngine fun e => { e with tx := some b }

end Sys2Proof.Machine
end

