-- ==== Sys2Proof/Machine/Step.lean ====
section
/-! DEFINITION. One step of the machine, and the state whose next step runs a given opcode-table word. -/

namespace Sys2Proof.Machine

/-- One step: the next thing that happens to the block (10_state.md R20, R35). A command runs whole. -/
def step (s : State) : Host.Outcome State Fault Refusal := fetchAndRun s

/-- `s` with an opcode-table word placed where the next step takes its instruction from: a command word
in the host's next write to CMD (R74), a wire byte in the byte engine (log 12). -/
def State.withFetchWord (s : State) (nbits w : Nat) : State :=
  if nbits = 8 then s.withPendingByte (BitVec.ofNat 8 w) else s.withCmdWrite (BitVec.ofNat 32 w)

end Sys2Proof.Machine
end

