-- ==== Sys2Proof/Machine/Pseudo.lean ====
section
/-! DEFINITION. The host's pseudo-instructions (30_encoding.md R92) as the inputs they put before the
block. A run of the model is between two commands whenever the host acts, so `wait` is one read of
STATUS, which finds BUSY = 0 (R71, R215). -/

namespace Sys2Proof.Machine

/-- `rd NAME` (R91). -/
def rd (r : BitVec 8) : Input := .read { offset := r ++ 0#2, width := 32 }

/-- `wr NAME, v` (R91). -/
def wr (r : BitVec 8) (v : Word) : Input := .write { offset := r ++ 0#2, width := 32 } v

/-- The word index of CTXc_ADDR_LO (R25). -/
def ctxAddrLoIndex (c : BitVec 4) : BitVec 8 := BitVec.ofNat 8 (32 + 8 * c.toNat)

/-- The word index of CTXc_ADDR_HI (R25). -/
def ctxAddrHiIndex (c : BitVec 4) : BitVec 8 := BitVec.ofNat 8 (33 + 8 * c.toNat)

/-- `wait`: reads of STATUS until BUSY is 0 (R92). -/
def waitInputs : List Input := [rd 1]

/-- `issue W`: the write to CMD alone (R92). -/
def issueInputs (w : Word) : List Input := [cmdWrite w]

/-- A command line: the write of the encoded word, then the wait (R91). A wire byte is no command line. -/
def lineInputs (i : Instr) : List Input :=
  match encode i with
  | .cmd w => issueInputs w ++ waitInputs
  | .wire _ => []

/-- `OW_MATCH cN`, its first line: OW_RESET (R92). -/
def owMatchInputs : List Input := lineInputs .owReset

/-- `OW_MATCH cN`, what follows in the state OW_RESET left: SELECT only if PRESENCE is 1 (R92). -/
def owMatchRest (c : BitVec 4) (s : State) : List Input :=
  if s.status.presence then lineInputs (.select c) else []

/-- `CRC_SEED v` (R92). -/
def crcSeedInputs (v : Word) : List Input := [wr 4 v]

/-- `COPY_FOUND cN` in an idle state: each half of SRCH_RESULT is read and written to the context (R92). -/
def copyFoundInputs (c : BitVec 4) (s : State) : List Input :=
  [rd 8, wr (ctxAddrLoIndex c) (s.readReg .srchLo), rd 9, wr (ctxAddrHiIndex c) (s.readReg .srchHi)]

/-- These host inputs one after the other, each whole before the next (R71). A pseudo-instruction is its
accesses and nothing more, so while `rst` is asserted, be it from the start or since an input or a command
before, its writes do nothing and its words run no command: the model's choice for every access, log 15. -/
def runInputs : List Input → State → Host.Outcome State Fault Refusal
  | [], s => .next s
  | i :: rest, s =>
    match hostInput s i with
    | .next t => runInputs rest t
    | .fault f => .fault f
    | .refused r => .refused r

end Sys2Proof.Machine
end

