-- ==== Sys2Proof/Safety.lean ====
section
/-! DEFINITION. The terms claims use: what a line trace shows, what the host does to a running command,
the invariant of the machine, the hazards of 70_reset_and_hazards.md, the value of a binary32, and the
reference devices of the search's derived properties (44_rom_search.md R157, decision D32). -/

namespace Sys2Proof.Machine

/-- What a slot or pulse on the line is (41_transport.md, 43_reset_presence.md R140, 44_rom_search.md
R154). -/
inductive Slot where
  | write (v : Bool)
  | read
  | reset
  | settle
  deriving DecidableEq, Repr

/-- The slot a line event belongs to: each slot has one low time (or delay) of its own kind (R105). -/
def slotOf : LineEvent → Option Slot
  | .delay .tW1L => some (.write true)
  | .delay .tW0L => some (.write false)
  | .delay .tRL => some .read
  | .delay .tRSTL => some .reset
  | .delay .tSETTLE => some .settle
  | _ => none

/-- The slots of a list of line events. -/
def slotsOf (ev : List LineEvent) : List Slot := ev.filterMap slotOf

/-- The level a sample event shows. -/
def levelOf : LineEvent → Option Bool
  | .sample v => some v
  | _ => none

/-- The levels a list of line events shows. -/
def levelsOf (ev : List LineEvent) : List Bool := ev.filterMap levelOf

/-- The result a wait for the rise shows. -/
def riseOf : LineEvent → Option Rise
  | .awaitHigh _ r => some r
  | _ => none

/-- The results the waits for the rise among line events show. -/
def risesOf (ev : List LineEvent) : List Rise := ev.filterMap riseOf

/-- The line events of `t`'s trace since `s`, oldest first, are `ev`. -/
def State.Emitted (s t : State) (ev : List LineEvent) : Prop := t.trace = ev.reverse ++ s.trace

/-- The bits of a byte in wire order, bit 0 first (R66). -/
def byteBits (b : Byte) : List Bool := (List.range 8).map b.getLsbD

/-- The write slots of a byte (R108). -/
def byteSlots (b : Byte) : List Slot := (byteBits b).map .write

/-- The write slots of bytes in order (R67). -/
def bytesSlots (l : List Byte) : List Slot := l.flatMap byteSlots

/-- The write slots of `SelectSeq` for an address (R170). -/
def selectSlots (a : Vector Byte 8) : List Slot := byteSlots 0x55 ++ bytesSlots (firstBytes a 8)

/-- The line events of `WriteBit(v)` whose wait for the rise, for a 0, gave `r` (R106). -/
def writeEvents : Bool → Rise → List LineEvent
  | true, _ => [.driveLow, .delay .tW1L, .release, .delay .tW1H]
  | false, .rose => [.driveLow, .delay .tW0L, .release, .awaitHigh 100 .rose, .delay .tW0H]
  | false, .timeout => [.driveLow, .delay .tW0L, .release, .awaitHigh 100 .timeout]

/-- The line events of `ReadBit()` whose sample gave `v` (R107). -/
def readEvents (v : Bool) : List LineEvent :=
  [.driveLow, .delay .tRL, .release, .delay .tRS, .sample v, .delay .tRH]

/-- The line events of `ResetPresence()` (R140): `none` when the line did not rise, else the level at
the presence sample. -/
def resetEvents : Option Bool → List LineEvent
  | none => [.driveLow, .delay .tRSTL, .release, .awaitHigh 100 .timeout]
  | some high => [.driveLow, .delay .tRSTL, .release, .awaitHigh 100 .rose, .delay .tPDW,
      .sample high, .delay .tRSTT]

/-- The code `ResetPresence()` gives for those events (R140). -/
def resetCode : Option Bool → FaultCode
  | none => .stuckLow
  | some high => if high then .noPresence else .none

/-- The nominal length of a list of line events, the waits alone (R255). -/
def nominalLength (ev : List LineEvent) : Nat :=
  (ev.map fun e => match e with
    | .delay t => Timing.nominal.length t
    | _ => 0).sum

/-- No host act lands while the command runs. -/
abbrev State.Quiet (s : State) : Prop := s.host.during = []

/-- The host's next act is `i`, and the block is out of reset with no byte pending, so that the next step
takes that act. -/
abbrev State.Asks (s : State) (i : Input) : Prop :=
  s.rstIn = false ∧ s.engine.tx = none ∧ s.host.queue.head? = some i

/-- Whether a host act is the assertion of `rst`. -/
def BusyAct.isRst : BusyAct → Bool
  | .rst => true
  | .read _ | .write _ _ => false

/-- The host does not assert `rst` while the command runs; its reads and writes may land. -/
abbrev State.NoReset (s : State) : Prop := ∀ b ∈ s.host.during, b.act.isRst = false

/-- Two STATUS values that agree in every field but OVR, which a host write while BUSY may set or
clear (R38). -/
def Status.SameButOvr (a b : Status) : Prop := b = { a with ovr := b.ovr }

/-- A command that began in `s` has ended in `t` (R36, R217): SEQ is IDLE, BUSY is 0, the other flags
are those of `st` but for OVR, the registers are `r`, the pin mode is `m`, and nothing else of the block's
parameters and inputs changed. Without host acts OVR is as it was too. -/
structure State.Done (s t : State) (st : Status) (r : Regs) (m : LineMode) : Prop where
  seq : t.seq = .idle
  status : Status.SameButOvr { st with busy := false } t.status
  ovr : s.Quiet → t.status.ovr = s.status.ovr
  regs : t.regs = r
  mode : t.pin.mode = m
  params : t.params = s.params
  rst : t.rstIn = s.rstIn
  queue : t.host.queue = s.host.queue

/-- A wire byte that began in `s` has gone out in `t`: no register, no flag but OVR, and no mode
changed (R90, R108). -/
structure State.Sent (s t : State) : Prop where
  status : Status.SameButOvr s.status t.status
  ovr : s.Quiet → t.status.ovr = s.status.ovr
  regs : t.regs = s.regs
  mode : t.pin.mode = s.pin.mode
  params : t.params = s.params
  rst : t.rstIn = s.rstIn
  queue : t.host.queue = s.host.queue
  idle : t.seq = .idle ↔ s.seq = .idle

/-- STATUS after `ResetPresence()` and, when nobody answered, `fail` (R140, R141): PRESENCE, and the
code in FAULT. -/
def Status.afterReset (st : Status) (hi : Option Bool) : Status :=
  { st with presence := hi == some false
            fault := if resetCode hi = .none then st.fault else resetCode hi }

/-- The registers with context `c` changed by `f` (R33). -/
def Regs.onContext (r : Regs) (c : BitVec 4) (f : Context → Context) : Regs :=
  r.setContext c (f (r.context c))

/-- The write and read slots of one search position whose written bit is `v` (R154). -/
def positionSlots (v : Bool) : List Slot := [.read, .read, .write v]

/-- The slots of the positions 1 to `n` of a search pass that wrote the bits of `a` (R154). -/
def passSlots (a : Vector Byte 8) (n : Nat) : List Slot :=
  (List.range n).flatMap fun k => positionSlots (posBit a (k + 1))

/-- The mode of the newest `set_mode` event, or ANALOG, the mode after power-on (R41). -/
def lastMode : List LineEvent → LineMode
  | [] => .analog
  | .setMode m :: _ => m
  | _ :: rest => lastMode rest

/-- Between two slots no slot is open, and in OPEN_DRAIN the line is released (R105). -/
structure State.Closed (s : State) : Prop where
  microIdle : s.engine.micro = .idle
  released : s.pin.mode = .openDrain → s.pin.drive = true

/-- The block holds no value that R4, R26, R30, R33, R35 and R105 exclude between two steps. -/
structure State.Wf (s : State) : Prop where
  /-- The parameters are as R4 asks: NUM_CTX is in 1..16, and POLL_TICKS is what TICK_PERIOD gives. -/
  paramsOk : s.params.wf
  /-- STATUS.BUSY = 1 exactly when SEQ is not IDLE (R35). -/
  busyIffSeq : s.status.busy = true ↔ s.seq ≠ .idle
  /-- FORK holds 0..65 (R30, S10). -/
  forkLe : s.regs.fork.toNat ≤ 65
  /-- No slot is open, and in OPEN_DRAIN the line is released (R105). -/
  closed : s.Closed
  /-- The places of contexts that do not exist keep their reset value (R25, log 6). -/
  noContext : ∀ c : BitVec 4, s.params.numCtx ≤ c.toNat → s.regs.context c = Context.reset
  /-- CONFIG.LINE_MODE is the mode of the newest `set_mode` event (R27). -/
  modeIsLast : s.pin.mode = lastMode s.trace
  /-- TEMP_F32 is the binary32 of TEMP_RAW under one of the two scales (R33, R178). -/
  tempOk : ∀ c : BitVec 4, ∃ fam, (s.regs.context c).tempF32 = tempOf (s.regs.context c).tempRaw fam

/-- The mode that line events, oldest first, leave of the mode `m` (R104). -/
def modeAfter (m : LineMode) : List LineEvent → LineMode
  | [] => m
  | .setMode m' :: rest => modeAfter m' rest
  | _ :: rest => modeAfter m rest

/-- Every register that R41 gives a value holds it; SP is left open (R34), and the parameters, the
environment, the host and the trace are not the block's. -/
structure State.IsReset (s : State) : Prop where
  seq : s.seq = .idle
  status : s.status = Status.reset
  regs : ∃ sp, s.regs = { Regs.reset with sp := sp }
  pin : s.pin = Pin.reset
  micro : s.engine.micro = .idle

/-- The boot order's first point (R233): the line is in OPEN_DRAIN. -/
abbrev State.LineReady (s : State) : Prop := s.pin.mode = .openDrain

/-- Hazard R243: a conversion started in Passive power mode is still to be read. -/
def State.ConversionHeld (s : State) : Prop :=
  s.regs.powerMode = .passive ∧
    ∃ c : BitVec 4, c.toNat < s.params.numCtx ∧ (s.regs.context c).phase = .conversionStarted

/-- Hazard R250: a context with ADDR = 0 has no address. -/
def State.HasAddress (s : State) (c : BitVec 4) : Prop := (s.regs.context c).addr ≠ zeroAddr

/-- The number a binary32 of a normal number or of +0.0 denotes: sign, 24-bit significand, exponent. -/
def binary32Value (w : Word) : Rat :=
  if w = 0 then 0
  else
    (if w.getLsbD 31 then -1 else 1) * ((2 ^ 23 + (w.extractLsb' 0 23).toNat : Nat) : Rat)
      * ((2 ^ (w.extractLsb' 23 8).toNat : Nat) : Rat) / ((2 ^ 150 : Nat) : Rat)

/-- The registers of R25 outside the contexts that are mapped at a fixed place, with their byte offsets. -/
def fixedMap : List (Nat × Reg) :=
  [(0x000, .cmd), (0x004, .status), (0x008, .config), (0x00C, .rdata), (0x010, .crcAcc), (0x014, .fork),
   (0x018, .curAddrLo), (0x01C, .curAddrHi), (0x020, .srchLo), (0x024, .srchHi), (0x040, .iobuf 0),
   (0x044, .iobuf 1), (0x048, .iobuf 2), (0x04C, .iobuf 3)]

/-- The registers of R25 of context `c`, with their byte offsets. -/
def ctxMap (c : BitVec 4) : List (Nat × Reg) :=
  [(0x00, Reg.ctxAddrLo c), (0x04, .ctxAddrHi c), (0x08, .ctxCtl c), (0x0C, .ctxTempRaw c),
   (0x10, .ctxTempF32 c), (0x14, .ctxT0 c)].map fun x => (0x080 + 0x20 * c.toNat + x.1, x.2)

/-- The map of R25 of a block with `n` contexts: what is not listed is reserved. -/
def registerMap (n : Nat) : List (Nat × Reg) :=
  fixedMap ++ (List.range n).flatMap fun c => ctxMap (BitVec.ofNat 4 c)

/-- STATUS.FAULT's number for each code (R200). -/
def faultNumber : List (FaultCode × BitVec 4) :=
  [(.none, 0), (.noPresence, 1), (.stuckLow, 2), (.crc, 3), (.neither, 4), (.exhausted, 5), (.illegal, 6)]

/-- The number of each outcome, in STATUS and in CTXc_CTL (R26, R33). -/
def outcomeNumber : List (SensorOutcome × BitVec 2) := [(.ok, 0), (.pollingInProgress, 1), (.timeout, 2)]

/-- CONFIG.LINE_MODE's number of each mode (R27). -/
def modeNumber : List (LineMode × BitVec 2) := [(.openDrain, 0), (.strongPullup, 1), (.analog, 2)]

/-- The bytes `base` to `base + 3` of a buffer are at bits [8j+7:8j] of a word (R70). -/
def HoldsBytes {n : Nat} (w : Word) (a : Vector Byte n) (base : Nat) : Prop :=
  ∀ j, j < 4 → w.extractLsb' (8 * j) 8 = byteAt a (base + j)

/-- A buffer after a host write of `v` to the word that holds its bytes `base` to `base + 3` (R64, R70). -/
def BytesWritten {n : Nat} (old new : Vector Byte n) (base : Nat) (v : Word) : Prop :=
  HoldsBytes v new base ∧ ∀ j, (j < base ∨ base + 4 ≤ j) → byteAt new j = byteAt old j

/-- The registers a host reads that are neither STATUS nor in `except` read in `t` as in `s`. -/
def State.ReadsAs (s t : State) (except : List Reg) : Prop :=
  ∀ r : BitVec 8, regAt s.params.numCtx r ≠ .status → regAt s.params.numCtx r ∉ except →
    t.readWord r = s.readWord r

/-- What the positions 1 to `n` of a pass make of the levels `l` read in their slots, two for each position:
the cursor's address and `newfork` (R152, R153, R154); `none` where the pair (1, 1) was read. -/
def readPass (F : Nat) (cur : Vector Byte 8) (l : List Bool) : Nat → Option (Vector Byte 8 × BitVec 7)
  | 0 => some (cur, 0)
  | n + 1 => (readPass F cur l n).bind fun x =>
      (branch (n + 1) F x.2 (l.getD (2 * n) false) (l.getD (2 * n + 1) false) (posBit x.1 (n + 1))).map
        fun c => (setPosBit x.1 (n + 1) c.1, c.2)

/-- What the devices of `S` that take part let the line show in the first read slot of position `p`: low
if any of them has a 0 there (D32, G1). -/
def busBit (S : List (Vector Byte 8)) (p : Nat) : Bool := S.all fun a => posBit a p

/-- What they let the line show in the second read slot: low if any of them has a 1 there. -/
def busComplement (S : List (Vector Byte 8)) (p : Nat) : Bool := S.all fun a => !posBit a p

/-- A search pass over the reference devices (D32): who still takes part, the cursor's address, and
`newfork`. -/
structure RefPass where
  devices : List (Vector Byte 8)
  cur : Vector Byte 8
  newfork : BitVec 7
  deriving DecidableEq, Repr

/-- One position of the pass: the branch of R152 and R153, and the devices whose bit differs drop out. -/
def RefPass.next (F p : Nat) (x : RefPass) : Option RefPass :=
  (branch p F x.newfork (busBit x.devices p) (busComplement x.devices p) (posBit x.cur p)).map
    fun c => { devices := x.devices.filter fun a => posBit a p == c.1
               cur := setPosBit x.cur p c.1
               newfork := c.2 }

/-- The positions 1 to `n` of a pass. -/
def refPass (S : List (Vector Byte 8)) (F : Nat) (cur : Vector Byte 8) : Nat → Option RefPass
  | 0 => some { devices := S, cur := cur, newfork := 0 }
  | n + 1 => (refPass S F cur n).bind (RefPass.next F (n + 1))

/-- The levels the reference devices show in the read slots of the positions 1 to `n`. -/
def refLevels (S : List (Vector Byte 8)) (F : Nat) (cur : Vector Byte 8) : Nat → List Bool
  | 0 => []
  | n + 1 => refLevels S F cur n ++ match refPass S F cur n with
    | some x => [busBit x.devices (n + 1), busComplement x.devices (n + 1)]
    | none => []

/-- The addresses found by up to `k` searches over the reference devices, from a cursor, and the cursor
after them (R157): a search finds nothing when FORK is 0. -/
def refSearch (S : List (Vector Byte 8)) : Nat → Vector Byte 8 → BitVec 7 →
    List (Vector Byte 8) × Vector Byte 8 × BitVec 7
  | 0, cur, fork => ([], cur, fork)
  | k + 1, cur, fork =>
    if fork = Config.forkDone then ([], cur, fork)
    else match refPass S fork.toNat cur 64 with
      | none => ([], cur, fork)
      | some x =>
        let rest := refSearch S k x.cur x.newfork
        (x.cur :: rest.1, rest.2)

/-- The order of R159: at the first position where the addresses differ, the first has a 0 and the second
a 1. -/
def foundBefore (a b : Vector Byte 8) : Prop :=
  ∃ p, 1 ≤ p ∧ p ≤ 64 ∧ (∀ q, 1 ≤ q → q < p → posBit a q = posBit b q) ∧ posBit a p = false ∧
    posBit b p = true

end Sys2Proof.Machine
end

