-- ==== Sys2Proof/Certificates/Slice0/Obligations.lean ====
section
/-! DEFINITION. The statements about the OneWire core: its encoding, the host interface, each
instruction's effect and frame, the whole-machine rules, the invariant, and the search and temperature
results. Each docstring names the rules of spec/ it rests on. -/

open Sys2Proof Sys2Proof.Machine

/-! ## Encoding (30_encoding.md) -/

/-- Every legal instruction is what its own encoding decodes to, on a block with any number of contexts
(R80, R81, R87, R90). -/
def Obligations.DecodeOfEncodeIsTheInstruction : Prop :=
  ∀ (n : Nat) (i : Instr), i.wellFormed n = true → decode n (encode i) = .ok i

/-- A command word that decodes is the encoding of what it decodes to: no bit of it is dropped (R80, R86). -/
def Obligations.EncodeOfDecodeIsTheWord : Prop :=
  ∀ (n : Nat) (w : Word) (i : Instr), decodeCmd n w = .ok i →
    encode i = .cmd w ∧ i.wellFormed n = true ∧ i.isCommand = true

/-- No two rows of the opcode map match one word (R87). -/
def Obligations.NoWordMatchesTwoRows : Prop :=
  ∀ w : Word, rows.Pairwise fun a b => ¬ (a.names w = true ∧ b.names w = true)

/-- A word is legal exactly when it matches a row whose range condition holds (R86), and the field
conditions R86 lists make a word illegal. -/
def Obligations.LegalWordsAreTheMatchedRows : Prop :=
  (∀ (n : Nat) (w : Word), (∃ i, decodeCmd n w = .ok i) ↔
      ∃ r ∈ rows, r.names w = true ∧ (r.build w).wellFormed n = true) ∧
  (∀ (n : Nat) (w : Word), (w.extractLsb' 21 3 ≠ 0 ∨ w.extractLsb' 28 4 ≠ 0 ∨
      (∀ r ∈ rows, opcOf r.pattern ≠ opcOf w)) →
      decodeCmd n w = .error .fields ∨ decodeCmd n w = .error .opcode)

/-- Words and bytes of the spec's examples decode as it says (R91, R112, R114, R116, R133, R134, R90 and
95_test_vectors.md 2.1). -/
def Obligations.SpecExampleWordsDecode : Prop :=
  decodeCmd 4 0x00000001 = .ok .owReset ∧ decodeCmd 4 0x00000102 = .ok (.owWriteBit true) ∧
  decodeCmd 4 0x00003304 = .ok (.owWriteByte 0x33) ∧ decodeCmd 4 0x00100006 = .ok (.owWriteBytes 16) ∧
  decodeCmd 4 0x00110007 = .error .length ∧ decodeCmd 4 0x00200007 = .error .fields ∧
  decodeCmd 4 0x00002810 = .ok (.crcUpdate 0x28) ∧ decodeCmd 4 0x00080011 = .ok (.crcCheck 8) ∧
  decodeCmd 4 0x01000032 = .ok (.tempUpdate 1) ∧ decodeCmd 4 0x04000032 = .error .context ∧
  decodeCmd 4 0x00000021 = .ok .searchNext ∧ decodeCmd 4 0x00000003 = .ok .owReadBit ∧
  decodeCmd 4 0x00000005 = .ok .owReadByte ∧ decodeCmd 4 0x00080007 = .ok (.owReadBytes 8) ∧
  decodeCmd 4 0x00000020 = .ok .searchInit ∧ decodeCmd 4 0x00000030 = .ok (.readAddress 0) ∧
  decodeCmd 4 0x03000031 = .ok (.select 3) ∧ decodeCmd 4 0x01000033 = .ok (.configResolution 1) ∧
  decodeWire 0xF0 = .ok .searchRom ∧ decodeWire 0x33 = .ok .readRom ∧ decodeWire 0x55 = .ok .matchRom ∧
  decodeWire 0x44 = .ok .convertT ∧ decodeWire 0xBE = .ok .readScratchpad ∧
  decodeWire 0x4E = .ok .writeScratchpad ∧ decodeWire 0x48 = .ok .copyScratchpad

/-! ## Steps, acceptance and the host interface (10_state.md, 20_memory.md, 70_reset_and_hazards.md) -/

/-- A step runs the decoded instruction: a legal word that the host writes to CMD of an idle block is
accepted (BUSY 1, FAULT NONE, SEQ at its start) and is then `exec` of the instruction it decodes to; a
wire byte handed to the byte engine is `exec` of its instruction (R37, R74; the byte engine's latch is
the model's, log 11). -/
def Obligations.StepRunsTheDecodedInstruction : Prop :=
  (∀ (s : State) (w : Word) (v : Access) (rest : List Input) (i : Instr),
    s.rstIn = false → s.engine.tx = none → s.seq = .idle →
    s.host.queue = .write v w :: rest → v.width = 32 → v.offset = 0 →
    decodeCmd s.params.numCtx w = .ok i →
    step s = exec i (s.takeInput.accept w) ∧
    s.takeInput = { s with host := { s.host with queue := rest } } ∧
    (s.takeInput.accept w).status = { s.status with busy := true, fault := .none } ∧
    (s.takeInput.accept w).seq = .busy w 0) ∧
  (∀ (s : State) (b : Byte) (i : Instr), s.rstIn = false → s.engine.tx = some b →
    decodeWire b = .ok i → step s = exec i s.takeTx)

/-- An illegal word written to CMD of an idle block leaves FAULT = ILLEGAL and the block idle, with no
line event and no other change (R203, R86, R37), but for the OVR of a host write that lands between the two
statements of `fail(ILLEGAL)`, where SEQ is BUSY in the model (log 29). -/
def Obligations.IllegalWordRecordsIllegalAndNothingElse : Prop :=
  ∀ (s : State) (w : Word) (e : Illegal), s.NoReset → decodeCmd s.params.numCtx w = .error e →
    ∃ t, issue w s = .next t ∧ s.Done t { s.status with fault := .illegal } s.regs s.pin.mode ∧
      t.trace = s.trace ∧ t.pin = s.pin ∧ t.engine = s.engine

/-- Every command ends in `finish` on every path, whichever answers the environment gives and whatever the
host does: SEQ is IDLE and BUSY is 0 (R36). It rests on the tick's fairness, which R24 assumes and R216 names
as the ground of every such claim: that every wait for the rise ends is the model's (log 4). An operand out
of range ends in `fail(ILLEGAL)` (log 18). -/
def Obligations.EveryCommandFinishes : Prop :=
  ∀ (i : Instr) (s : State), i.isCommand = true →
    ∃ t, exec i s = .next t ∧ t.seq = .idle ∧ t.status.busy = false

/-- While a command runs, a host write to a register other than STATUS has no effect on it and sets OVR;
a write to STATUS at any time clears OVR if bit 11 is 1 and does nothing else (R38). -/
def Obligations.BusyWritesAreDroppedAndSetOvr : Prop :=
  (∀ (s : State) (r : BitVec 8) (v : Word), s.seq ≠ .idle → regAt s.params.numCtx r ≠ .status →
    hostWrite r v s = .next { s with status := { s.status with ovr := true } } ∧
    s.busyWrite r v = { s with status := { s.status with ovr := true } }) ∧
  (∀ (s : State) (r : BitVec 8) (v : Word), regAt s.params.numCtx r = .status →
    hostWrite r v s =
      .next { s with status := { s.status with ovr := s.status.ovr && !v.getLsbD 11 } } ∧
    s.busyWrite r v = { s with status := { s.status with ovr := s.status.ovr && !v.getLsbD 11 } })

/-- Host writes that land while a command runs change nothing about it but OVR: the command ends as it
would have without them (R38, R71; that they land between its statements is log 1). -/
def Obligations.HostWritesDoNotDisturbACommand : Prop :=
  ∀ (i : Instr) (s : State), (∀ b ∈ s.host.during, ∃ r v, b.act = .write r v) →
    ∃ t u o l, exec i s = .next t ∧ exec i (s.setDuring []) = .next u ∧
      t = (u.onStatus fun st => { st with ovr := o }).setDuring l

/-- A step takes a supported read; it returns STATUS as it is at any time, and any register as it is while
the block is idle, and changes nothing but what it returns; while a command runs a read of another register
returns a value of which nothing is said, and changes nothing of the block (R39, R64). -/
def Obligations.HostReadsReturnTheRegister : Prop :=
  (∀ (s : State) (r : BitVec 8), s.Asks (rd r) → step s = .next (hostRead r s.takeInput) ∧
    s.takeInput = { s with host := { s.host with queue := s.host.queue.tail } }) ∧
  (∀ (s : State) (r : BitVec 8), s.seq = .idle →
    hostRead r s = { s with host := { s.host with reads := (r, s.readWord r) :: s.host.reads } }) ∧
  (∀ (s : State) (r : BitVec 8), regAt s.params.numCtx r = .status →
    hostRead r s = { s with host := { s.host with reads := (r, s.status.word) :: s.host.reads } }) ∧
  (∀ (s : State) (r : BitVec 8), s.seq ≠ .idle → regAt s.params.numCtx r ≠ .status → ∃ v d,
    hostRead r s = { s with host := { s.host with reads := (r, v) :: s.host.reads }
                            env := { s.env with draws := d } })

/-- An access that is not 32 bits wide at a multiple of 4 is refused, and no other input is (R63). -/
def Obligations.AccessesOfAnotherShapeAreRefused : Prop :=
  ∀ (s : State) (i : Input) (rest : List Input), s.engine.tx = none → s.host.queue = i :: rest →
    (step s = .refused .unsupportedAccess ↔
      match i with
      | .read a => a.width ≠ 32 ∨ a.offset.toNat % 4 ≠ 0
      | .write a _ => a.width ≠ 32 ∨ a.offset.toNat % 4 ≠ 0
      | .rst _ => False)

/-- The register space: each register is at its offset and every other offset is reserved (R25), at
BLOCK_BASE of the platform (R60; that an access carries the offset is log 21); each field is at its bits with
its numbers (R26 to R33, R70, R200). A step takes a supported write, and on an idle block it does what the
register does with it. Reserved offsets and bits read 0; writes to reserved offsets, reserved bits and
read-only registers are ignored while idle, and set OVR while busy (R40). -/
def Obligations.ReservedAndReadOnlyRegisters : Prop :=
  (∀ (n : Nat) (r : BitVec 8), n ≤ 16 →
    (∀ x ∈ registerMap n, 4 * r.toNat = x.1 → regAt n r = x.2) ∧
    (4 * r.toNat ∉ (registerMap n).map (·.1) → regAt n r = .reserved)) ∧
  (∀ (p : Params) (a : Access) (addr width : Nat), accessAt p (a.address p) a.width = some a ∧
    (accessAt p addr width = none ↔ addr < p.blockBase ∨ p.blockBase + 1024 ≤ addr)) ∧
  (∀ s : State, let w := s.readReg .status
    w.getLsbD 0 = s.status.busy ∧ (s.status.fault, w.extractLsb' 4 4) ∈ faultNumber ∧
    w.getLsbD 8 = s.status.presence ∧ w.getLsbD 9 = s.status.crcOk ∧ w.getLsbD 10 = s.status.found ∧
    w.getLsbD 11 = s.status.ovr ∧ (s.status.outcome, w.extractLsb' 12 2) ∈ outcomeNumber) ∧
  (∀ s : State, let w := s.readReg .config
    w.getLsbD 0 = decide (s.regs.powerMode = .passive) ∧ (s.pin.mode, w.extractLsb' 1 2) ∈ modeNumber) ∧
  (∀ (s : State) (c : BitVec 4), let x := s.regs.context c
    let w := s.readReg (.ctxCtl c)
    w.extractLsb' 0 8 = byteAt x.addr 0 ∧ w.getLsbD 8 = decide (x.phase = .conversionStarted) ∧
    (x.outcome, w.extractLsb' 9 2) ∈ outcomeNumber ∧ HoldsBytes (s.readReg (.ctxAddrLo c)) x.addr 0 ∧
    HoldsBytes (s.readReg (.ctxAddrHi c)) x.addr 4 ∧
    (s.readReg (.ctxTempRaw c)).extractLsb' 0 16 = x.tempRaw ∧ s.readReg (.ctxTempF32 c) = x.tempF32 ∧
    s.readReg (.ctxT0 c) = x.t0) ∧
  (∀ s : State, (s.readReg .rdata).extractLsb' 0 8 = s.regs.rdata ∧
    (s.readReg .crcAcc).extractLsb' 0 8 = s.regs.crcAcc ∧ (s.readReg .fork).extractLsb' 0 7 = s.regs.fork ∧
    HoldsBytes (s.readReg .curAddrLo) s.regs.curAddr 0 ∧
    HoldsBytes (s.readReg .curAddrHi) s.regs.curAddr 4 ∧
    HoldsBytes (s.readReg .srchLo) s.regs.srchResult 0 ∧
    HoldsBytes (s.readReg .srchHi) s.regs.srchResult 4 ∧
    ∀ k, HoldsBytes (s.readReg (.iobuf k)) s.regs.iobuf (4 * k)) ∧
  (∀ (s : State) (r : BitVec 8) (v : Word), s.Asks (wr r v) → step s = hostWrite r v s.takeInput) ∧
  (∀ (s : State) (r : BitVec 8) (v : Word), s.seq = .idle → regAt s.params.numCtx r ≠ .cmd →
    hostWrite r v s = .next (s.writeReg v (regAt s.params.numCtx r))) ∧
  (∀ (s : State) (r : BitVec 8), regAt s.params.numCtx r = .reserved → s.readWord r = 0) ∧
  (∀ (s : State) (r : BitVec 8) (v : Word), regAt s.params.numCtx r ≠ .status →
    (s.busyWrite r v).status.ovr = true) ∧
  (∀ (s : State) (v : Word) (c : BitVec 4), ∀ reg ∈ [Reg.reserved, .rdata, .fork, .curAddrLo, .curAddrHi,
    .srchLo, .srchHi, .ctxCtl c, .ctxTempRaw c, .ctxTempF32 c, .ctxT0 c], s.writeReg v reg = s) ∧
  (∀ (s : State) (v : Word), s.writeReg v .status = s.writeReg (v &&& 0x800) .status ∧
    s.writeReg v .config = s.writeReg (v &&& 0x7) .config ∧
    s.writeReg v .crcAcc = s.writeReg (v &&& 0xFF) .crcAcc) ∧
  (∀ s : State, s.readReg .status &&& 0xFFFFC00E = 0 ∧ s.readReg .config &&& 0xFFFFFFF8 = 0 ∧
    s.readReg .rdata &&& 0xFFFFFF00 = 0 ∧ s.readReg .crcAcc &&& 0xFFFFFF00 = 0 ∧
    s.readReg .fork &&& 0xFFFFFF80 = 0 ∧ s.readReg .cmd = 0 ∧
    ∀ c, s.readReg (.ctxCtl c) &&& 0xFFFFF800 = 0 ∧ s.readReg (.ctxTempRaw c) &&& 0xFFFF0000 = 0)

/-- A step that takes a host write of IOBUF_k, CTXc_ADDR_LO, CTXc_ADDR_HI or CRCACC on an idle block stores
the written bytes there, which the host reads back, and changes nothing else: not STATUS, no other register,
not the pin and not the trace; of CTXc_CTL only FAMILY, which is ADDR[0] (R29, R32, R33, R64, R70). -/
def Obligations.WritableRegistersReadBack : Prop :=
  ∀ (s : State) (r : BitVec 8) (v : Word), s.Asks (wr r v) → s.seq = .idle →
    (∀ k, regAt s.params.numCtx r = .iobuf k → ∃ buf, BytesWritten s.regs.iobuf buf (4 * k) v ∧
      step s = .next { s.takeInput with regs := { s.regs with iobuf := buf } } ∧
      wordAt buf (4 * k) = v) ∧
    (∀ c, regAt s.params.numCtx r = .ctxAddrLo c → ∃ a, BytesWritten (s.regs.context c).addr a 0 v ∧
      step s = .next { s.takeInput with regs := s.regs.onContext c fun x => { x with addr := a } } ∧
      wordAt a 0 = v ∧ ({ s.regs.context c with addr := a } : Context).family = v.extractLsb' 0 8) ∧
    (∀ c, regAt s.params.numCtx r = .ctxAddrHi c → ∃ a, BytesWritten (s.regs.context c).addr a 4 v ∧
      step s = .next { s.takeInput with regs := s.regs.onContext c fun x => { x with addr := a } } ∧
      wordAt a 4 = v) ∧
    (regAt s.params.numCtx r = .crcAcc →
      step s = .next { s.takeInput with regs := { s.regs with crcAcc := v.extractLsb' 0 8 } }) ∧
    (∀ reg, regAt s.params.numCtx r = reg →
      ((∃ k, reg = .iobuf k) ∨ (∃ c, reg = .ctxAddrLo c ∨ reg = .ctxAddrHi c) ∨ reg = .crcAcc) →
      ∃ t, step s = .next t ∧ t.readReg reg = (if reg = .crcAcc then v &&& 0xFF else v) ∧
        ∀ reg', reg' ≠ reg → (∀ c, reg = .ctxAddrLo c → reg' ≠ .ctxCtl c) → t.readReg reg' = s.readReg reg')

/-- A step that takes a host write of CONFIG on an idle block sets POWER_MODE from bit 0 and LINE_MODE from
bits 2:1; the value 3 leaves LINE_MODE and is no line event; every other value is a `set_mode` event (R27,
R104, D16; how R64 and R215 are read: log 13); OPEN_DRAIN leaves the line released; a write of the mode the
block is in leaves the pin as it was, where no slot is open; nothing else changes (R28, S7). -/
def Obligations.ConfigWriteSetsBothModes : Prop :=
  ∀ (s : State) (v : Word), s.Asks (wr 2 v) → s.seq = .idle →
    ∃ t, step s = .next t ∧
      t = { s.takeInput with
            regs := { s.regs with powerMode := if v.getLsbD 0 then .passive else .active }
            pin := t.pin
            trace := if v.extractLsb' 1 2 = 3 then s.trace else .setMode t.pin.mode :: s.trace } ∧
      (t.pin.mode = match (v.extractLsb' 1 2).toNat with
        | 0 => .openDrain
        | 1 => .strongPullup
        | 2 => .analog
        | _ => s.pin.mode) ∧
      (v.extractLsb' 1 2 = 0 → t.pin.drive = true) ∧ (v.extractLsb' 1 2 = 3 → t.pin = s.pin) ∧
      (s.Closed → t.pin.mode = s.pin.mode → t.pin = s.pin)

/-- COPY_FOUND on an idle block out of reset leaves the context's address equal to SRCH_RESULT, and so its FAMILY the
first byte of that, and changes nothing else, what its reads returned apart (R92). -/
def Obligations.CopyFoundStoresTheSearchResult : Prop :=
  ∀ (c : BitVec 4) (s : State), s.rstIn = false → s.seq = .idle → c.toNat < s.params.numCtx →
    s.params.numCtx ≤ 16 →
    ∃ t reads, runInputs (copyFoundInputs c s) s = .next t ∧
      t = { s with regs := s.regs.onContext c fun x => { x with addr := s.regs.srchResult }
                   host := { s.host with reads := reads } } ∧
      (t.regs.context c).addr = s.regs.srchResult ∧
      (t.regs.context c).family = byteAt s.regs.srchResult 0

/-- Asserting `rst` while the block is idle gives every piece of state the value of R41, with a
`set_mode(ANALOG)` event when the mode was another (R230; what stays, the parameters, the environment and
the host, is log 15). -/
def Obligations.ResetInputLoadsTheResetValues : Prop :=
  ∀ (s : State) (rest : List Input), s.rstIn = false → s.engine.tx = none →
    s.host.queue = .rst true :: rest →
    ∃ t, step s = .next t ∧ t.IsReset ∧ t.rstIn = true ∧ t.params = s.params ∧
      t.trace = (if s.pin.mode = .analog then s.trace else .setMode .analog :: s.trace)

/-- `rst` that lands in the middle of a command abandons it and leaves the reset values, at whichever of
its statements it lands, and however many host accesses land before it. An assertion due after `g` statements
either finds the command over, which has then ended as without it, or ends it: the line has shown the first
events of the undisturbed command, at most `g`, and after them `set_mode(ANALOG)` alone, when the mode was
another (R230; the model runs a command as its statements, log 1). -/
def Obligations.ResetInputAbandonsACommand : Prop :=
  (∀ (i : Instr) (s : State) (w : Word) (k : Nat) (rest : List BusyInput), s.seq = .busy w k →
    s.host.during = ⟨0, .rst⟩ :: rest → exec i s = .next (s.setDuring rest).applyReset) ∧
  (∀ (i : Instr) (s t : State), s.rstIn = false → exec i s = .next t → t.rstIn = true → t.IsReset) ∧
  (∀ (i : Instr) (s : State) (w : Word) (k g : Nat) (rest : List BusyInput), s.rstIn = false →
    s.seq = .busy w k → s.host.during = ⟨g, .rst⟩ :: rest →
    ∃ t u ev, exec i s = .next t ∧ exec i (s.setDuring []) = .next u ∧ s.Emitted u ev ∧
      ((t.rstIn = false ∧ ev.length ≤ g ∧ ∃ g', t = u.setDuring (⟨g', .rst⟩ :: rest)) ∨
       (t.rstIn = true ∧ t.IsReset ∧ t.params = s.params ∧ t.host.during = rest ∧ ∃ shown hidden,
          ev = shown ++ hidden ∧ shown.length ≤ g ∧
          s.Emitted t
            (shown ++ if modeAfter s.pin.mode shown = .analog then [] else [.setMode .analog]))))

/-- While `rst` is asserted the block runs no command and emits no line event: no step changes its
registers, flags, pin, sequencer or trace, and nor do the accesses of a pseudo-instruction (R230, R92; that
host accesses do nothing there is log 15). -/
def Obligations.NothingRunsWhileResetIsAsserted : Prop :=
  (∀ s t : State, s.rstIn = true → step s = .next t →
    t.seq = s.seq ∧ t.status = s.status ∧ t.regs = s.regs ∧ t.pin = s.pin ∧ t.engine = s.engine ∧
    t.trace = s.trace ∧ t.params = s.params) ∧
  (∀ (l : List Input) (s t : State), s.rstIn = true → .rst false ∉ l → runInputs l s = .next t →
    t.rstIn = true ∧ t.seq = s.seq ∧ t.status = s.status ∧ t.regs = s.regs ∧ t.pin = s.pin ∧
    t.engine = s.engine ∧ t.trace = s.trace ∧ t.params = s.params)

/-- The machine right after reset holds every value that R41 states. -/
def Obligations.ResetStateHoldsTheTable : Prop :=
  let s := State.reset
  s.seq = .idle ∧ s.readReg .status = 0 ∧ s.regs.powerMode = .active ∧ s.pin.mode = .analog ∧
  s.pin.drive = true ∧ s.regs.rdata = 0 ∧ s.regs.crcAcc = 0 ∧ (∀ j, byteAt s.regs.curAddr j = 0) ∧
  s.regs.fork = 65 ∧ (∀ j, byteAt s.regs.srchResult j = 0) ∧ (∀ j, byteAt s.regs.iobuf j = 0) ∧
  ∀ c, (∀ j, byteAt (s.regs.context c).addr j = 0) ∧ (s.regs.context c).family = 0 ∧
    (s.regs.context c).phase = .idle ∧ (s.regs.context c).outcome = .ok ∧
    (s.regs.context c).tempRaw = 0 ∧ (s.regs.context c).tempF32 = 0 ∧ (s.regs.context c).t0 = 0

/-! ## Bits and bytes (20_memory.md) -/

/-- `SetBit(a, p, v)` writes position p and no other of the 64 positions, position p is bit (p-1) mod 8 of
byte (p-1) div 8, and the positions 1 to 64 are the address's bits in wire order (R150, R69). -/
def Obligations.SetBitWritesOnePosition : Prop :=
  (∀ (a : Vector Byte 8) (p q : Nat) (v : Bool), 1 ≤ p → p ≤ 64 → 1 ≤ q → q ≤ 64 →
    posBit (setPosBit a p v) q = (if q = p then v else posBit a q) ∧
    posBit a p = (byteAt a ((p - 1) / 8)).getLsbD ((p - 1) % 8)) ∧
  (∀ a : Vector Byte 8, (List.range 64).map (fun k => posBit a (k + 1)) =
    (firstBytes a 8).flatMap byteBits)

/-! ## The bit-level transport (41_transport.md) -/

/-- OW_WRITE_BIT sends one write slot, whose events are those of R106 for the bit and for the result of
the wait for the rise, and writes no register; a timeout leaves no trace in any register or flag and the
command still finishes (R106, R112). -/
def Obligations.OwWriteBitSendsOneSlot : Prop :=
  ∀ (v : Bool) (s : State), s.NoReset →
    ∃ t r, exec (.owWriteBit v) s = .next t ∧ s.Done t s.status s.regs s.pin.mode ∧
      s.Emitted t (writeEvents v r) ∧ (v = false → ∀ r0 rest, s.env.rises = r0 :: rest → r = r0)

/-- OW_READ_BIT runs one read slot and RDATA is the sampled level, zero-extended (R107, R113). -/
def Obligations.OwReadBitReadsOneSlot : Prop :=
  ∀ s : State, s.NoReset →
    ∃ t v, exec .owReadBit s = .next t ∧
      s.Done t s.status { s.regs with rdata := if v then 1 else 0 } s.pin.mode ∧
      s.Emitted t (readEvents v) ∧ ∀ v0 rest, s.env.samples = v0 :: rest → v = v0

/-- OW_WRITE_BYTE sends the eight write slots of its byte, bit 0 first, and changes no register or flag,
whatever the line does (R66, R108, R114, R118). -/
def Obligations.OwWriteByteSendsLsbFirst : Prop :=
  ∀ (b : Byte) (s : State), s.NoReset →
    ∃ t ev, exec (.owWriteByte b) s = .next t ∧ s.Done t s.status s.regs s.pin.mode ∧
      s.Emitted t ev ∧ slotsOf ev = byteSlots b ∧ levelsOf ev = []

/-- OW_READ_BYTE runs eight read slots and RDATA is the byte of their levels, bit 0 first (R66, R109,
R115). -/
def Obligations.OwReadByteAssemblesLsbFirst : Prop :=
  ∀ s : State, s.NoReset →
    ∃ t b ev, exec .owReadByte s = .next t ∧
      s.Done t s.status { s.regs with rdata := b } s.pin.mode ∧ s.Emitted t ev ∧
      slotsOf ev = List.replicate 8 .read ∧ levelsOf ev = byteBits b ∧
      ∀ b0 rest, s.env.samples = byteBits b0 ++ rest → b = b0

/-- OW_WRITE_BYTES sends the first LEN bytes of IOBUF, byte 0 first, and changes no register or flag; LEN
= 0 emits no line event (R67, R116, R118). -/
def Obligations.OwWriteBytesSendsTheBuffer : Prop :=
  ∀ (len : BitVec 5) (s : State), len.toNat ≤ 16 → s.NoReset →
    ∃ t ev, exec (.owWriteBytes len) s = .next t ∧ s.Done t s.status s.regs s.pin.mode ∧
      s.Emitted t ev ∧ slotsOf ev = bytesSlots (firstBytes s.regs.iobuf len.toNat) ∧
      levelsOf ev = [] ∧ (len = 0 → ev = [])

/-- OW_READ_BYTES reads LEN bytes into IOBUF, byte 0 first, and leaves the other bytes of IOBUF, RDATA and
every other register and flag (R117). -/
def Obligations.OwReadBytesFillsTheBuffer : Prop :=
  ∀ (len : BitVec 5) (s : State), len.toNat ≤ 16 → s.NoReset →
    ∃ t buf ev, exec (.owReadBytes len) s = .next t ∧
      s.Done t s.status { s.regs with iobuf := buf } s.pin.mode ∧ s.Emitted t ev ∧
      slotsOf ev = List.replicate (8 * len.toNat) .read ∧
      levelsOf ev = (firstBytes buf len.toNat).flatMap byteBits ∧
      ∀ j, len.toNat ≤ j → byteAt buf j = byteAt s.regs.iobuf j

/-- Each wire command byte is sent as the eight write slots of its value, bit 0 first, and changes no
register, no flag and no mode (R90, R66). -/
def Obligations.WireBytesAreSentLsbFirst : Prop :=
  ∀ x ∈ [(Instr.searchRom, (0xF0 : Byte)), (.readRom, 0x33), (.matchRom, 0x55), (.convertT, 0x44),
      (.readScratchpad, 0xBE), (.writeScratchpad, 0x4E), (.copyScratchpad, 0x48)],
    ∀ s : State, s.NoReset →
      ∃ t ev, exec x.1 s = .next t ∧ s.Sent t ∧ s.Emitted t ev ∧ slotsOf ev = byteSlots x.2 ∧
        levelsOf ev = []

/-- What the host reads of the block is, STATUS and the command's own destination apart, what it read
before a transfer command; all of it for the write commands (R112 to R117). -/
def Obligations.TransfersLeaveEveryOtherRegister : Prop :=
  ∀ s : State, s.NoReset →
    (∀ v, ∃ t, exec (.owWriteBit v) s = .next t ∧ s.ReadsAs t []) ∧
    (∀ b, ∃ t, exec (.owWriteByte b) s = .next t ∧ s.ReadsAs t []) ∧
    (∀ len : BitVec 5, ∃ t, exec (.owWriteBytes len) s = .next t ∧ s.ReadsAs t []) ∧
    (∃ t, exec .owReadBit s = .next t ∧ s.ReadsAs t [.rdata]) ∧
    (∃ t, exec .owReadByte s = .next t ∧ s.ReadsAs t [.rdata]) ∧
    (∀ len : BitVec 5, ∃ t, exec (.owReadBytes len) s = .next t ∧
      s.ReadsAs t [.iobuf 0, .iobuf 1, .iobuf 2, .iobuf 3] ∧
      ∀ j, len.toNat ≤ j → byteAt t.regs.iobuf j = byteAt s.regs.iobuf j)

/-! ## The CRC (42_crc.md) -/

/-- CRC_UPDATE folds its byte into CRCACC and changes nothing else: no flag and no line event (R133;
the order of CrcUpdate's statements is the spec's general knowledge, log 25). -/
def Obligations.CrcUpdateFoldsOneByte : Prop :=
  ∀ (b : Byte) (s : State), s.NoReset →
    ∃ t, exec (.crcUpdate b) s = .next t ∧
      s.Done t s.status { s.regs with crcAcc := crcUpdate s.regs.crcAcc b } s.pin.mode ∧
      t.trace = s.trace ∧ t.pin = s.pin

/-- CRC_CHECK leaves the accumulator over the first LEN bytes of IOBUF in CRCACC and whether it is 0 in
CRC_OK; FAULT and all else stay, and there is no line event (R131, R134; CrcUpdate as in log 25). -/
def Obligations.CrcCheckChecksTheBuffer : Prop :=
  ∀ (len : BitVec 5) (s : State), len.toNat ≤ 16 → s.NoReset →
    ∃ t, exec (.crcCheck len) s = .next t ∧
      s.Done t { s.status with crcOk := crcOf (firstBytes s.regs.iobuf len.toNat) == 0 }
        { s.regs with crcAcc := crcOf (firstBytes s.regs.iobuf len.toNat) } s.pin.mode ∧
      t.trace = s.trace ∧ t.pin = s.pin

/-- The update depends on `c XOR b` alone, is linear in it and one to one (R132 laws 1 and 2, which the
spec marks as derived from R130), and the eight values that determine it are those of the polynomial 0x8C in
R132's table. -/
def Obligations.CrcUpdateIsLinear : Prop :=
  (∀ c b : Byte, crcUpdate c b = crcUpdate 0 (c ^^^ b)) ∧
  (∀ x y : Byte, crcUpdate 0 (x ^^^ y) = crcUpdate 0 x ^^^ crcUpdate 0 y) ∧ crcUpdate 0 0 = 0 ∧
  (∀ x y : Byte, crcUpdate 0 x = crcUpdate 0 y → x = y) ∧
  crcUpdate 0 0x01 = 0x5E ∧ crcUpdate 0 0x02 = 0xBC ∧ crcUpdate 0 0x04 = 0x61 ∧ crcUpdate 0 0x08 = 0xC2 ∧
  crcUpdate 0 0x10 = 0x9D ∧ crcUpdate 0 0x20 = 0x23 ∧ crcUpdate 0 0x40 = 0x46 ∧ crcUpdate 0 0x80 = 0x8C

/-- Appending a buffer's CRC makes the check pass and appending any other byte does not; a change of one
byte of a passing buffer makes it fail; and an all-zero buffer passes (R132 laws 3, 4 and 5, which the spec
marks as derived from R130 and R131). -/
def Obligations.CrcDetectsEveryByteChange : Prop :=
  (∀ m : List Byte, crcCheck (m ++ [crcOf m]) = (true, 0)) ∧
  (∀ (m : List Byte) (x : Byte), (crcCheck (m ++ [x])).1 = true → x = crcOf m) ∧
  (∀ (l r : List Byte) (x y : Byte), x ≠ y → (crcCheck (l ++ x :: r)).1 = true →
    (crcCheck (l ++ y :: r)).1 = false) ∧
  (∀ n : Nat, crcCheck (List.replicate n 0) = (true, 0))

/-! ## Reset and presence (43_reset_presence.md) -/

/-- OW_RESET emits the reset pulse's events; a wait that times out is STUCK_LOW with PRESENCE 0 and no
sample, a high sample NO_PRESENCE with PRESENCE 0, a low sample PRESENCE 1 with FAULT as acceptance left
it; nothing else changes (R140, R141). -/
def Obligations.OwResetReportsPresence : Prop :=
  ∀ s : State, s.NoReset →
    ∃ t hi, exec .owReset s = .next t ∧ s.Done t (s.status.afterReset hi) s.regs s.pin.mode ∧
      s.Emitted t (resetEvents hi) ∧
      (∀ rest, s.env.rises = .timeout :: rest → hi = none) ∧
      (∀ rest v more, s.env.rises = .rose :: rest → s.env.samples = v :: more → hi = some v)

/-! ## The ROM search (44_rom_search.md) -/

/-- SEARCH_INIT clears CUR_ADDR, makes the cursor fresh and clears FOUND, with no line event and no other
change (R151). -/
def Obligations.SearchInitStartsFresh : Prop :=
  ∀ s : State, s.NoReset →
    ∃ t, exec .searchInit s = .next t ∧
      s.Done t { s.status with found := false } { s.regs with curAddr := zeroAddr, fork := 65 }
        s.pin.mode ∧
      t.trace = s.trace ∧ t.pin = s.pin

/-- SEARCH_NEXT with FORK = 0 waits the settle delay and fails with EXHAUSTED: FOUND 0, no reset, no
slot, the cursor unchanged (R154; that the delay is a line event is log 14). -/
def Obligations.SearchNextExhausted : Prop :=
  ∀ s : State, s.NoReset → s.regs.fork = 0 →
    ∃ t, exec .searchNext s = .next t ∧
      s.Done t { s.status with found := false, fault := .exhausted } s.regs s.pin.mode ∧
      s.Emitted t [.delay .tSETTLE]

/-- The branch bit and `newfork` at position p (R152, R153): the pair (0, 1) gives 0 and (1, 0) gives 1;
(1, 1) gives none; at a collision the earlier bit is replayed left of F, and a 0 is remembered, 1 is chosen
at F, and 0 is chosen and remembered right of F. -/
def Obligations.BranchFollowsTheTable : Prop :=
  ∀ (p F : Nat) (newfork : BitVec 7) (prev : Bool), 1 ≤ p → p ≤ 64 →
    branch p F newfork false true prev = some (false, newfork) ∧
    branch p F newfork true false prev = some (true, newfork) ∧
    branch p F newfork true true prev = none ∧
    (p < F → branch p F newfork false false true = some (true, newfork) ∧
      branch p F newfork false false false = some (false, BitVec.ofNat 7 p)) ∧
    (p = F → branch p F newfork false false prev = some (true, newfork)) ∧
    (F < p → branch p F newfork false false prev = some (false, BitVec.ofNat 7 p))

/-- SEARCH_NEXT with FORK not 0: a reset nobody answers ends it with the cursor unchanged; a pass that
meets the pair (1, 1) at position p ends right there with NEITHER, FORK and SRCH_RESULT unchanged, positions
p to 64 of CUR_ADDR as before and positions 1 to p-1 the bits it chose and wrote; a complete pass has read
two levels and written one bit at each of 64 positions, the bits and the new FORK that the branch rule makes
of the levels read, and leaves them in CUR_ADDR and SRCH_RESULT, with FOUND, and CRC_OK by the address's CRC
(R154, R155, R156). -/
def Obligations.SearchNextRunsOnePass : Prop :=
  ∀ s : State, s.NoReset → s.regs.fork ≠ 0 →
    ∃ t hi ev, exec .searchNext s = .next t ∧ s.Emitted t ev ∧
      ((hi ≠ some false ∧ ev = .delay .tSETTLE :: resetEvents hi ∧
          s.Done t ({ s.status with found := false }.afterReset hi) s.regs s.pin.mode) ∨
       (hi = some false ∧ ∃ p a nf l, 1 ≤ p ∧ p ≤ 64 ∧
          l.length = 2 * (p - 1) ∧ levelsOf ev = false :: l ++ [true, true] ∧
          readPass s.regs.fork.toNat s.regs.curAddr l (p - 1) = some (a, nf) ∧
          (∀ q, p ≤ q → q ≤ 64 → posBit a q = posBit s.regs.curAddr q) ∧
          slotsOf ev = [.settle, .reset] ++ byteSlots 0xF0 ++ passSlots a (p - 1) ++ [.read, .read] ∧
          s.Done t { s.status with found := false, presence := true, fault := .neither }
            { s.regs with curAddr := a } s.pin.mode) ∨
       (hi = some false ∧ ∃ a nf l, l.length = 128 ∧ levelsOf ev = false :: l ∧
          readPass s.regs.fork.toNat s.regs.curAddr l 64 = some (a, nf) ∧
          slotsOf ev = [.settle, .reset] ++ byteSlots 0xF0 ++ passSlots a 64 ∧
          s.Done t { s.status with found := true, presence := true, crcOk := crcOf (firstBytes a 8) == 0 }
            { s.regs with curAddr := a, srchResult := a, fork := nf } s.pin.mode))

/-- Against reference devices (D32) a pass ends as the branch rule of R152 and R153 says, position by
position, with the devices that disagree dropping out. That any device's 0 makes the level low is the
spec's general knowledge (R22, G1). -/
def Obligations.SearchNextFollowsTheReferenceBus : Prop :=
  ∀ (s : State) (S : List (Vector Byte 8)) (x : RefPass) (rises : List Rise) (rest : List Bool),
    s.NoReset → s.regs.fork ≠ 0 → s.env.rises = .rose :: rises →
    refPass S s.regs.fork.toNat s.regs.curAddr 64 = some x →
    s.env.samples = false :: refLevels S s.regs.fork.toNat s.regs.curAddr 64 ++ rest →
    ∃ t, exec .searchNext s = .next t ∧
      s.Done t { s.status with found := true, presence := true,
                               crcOk := crcOf (firstBytes x.cur 8) == 0 }
        { s.regs with curAddr := x.cur, srchResult := x.cur, fork := x.newfork } s.pin.mode ∧
      t.env.samples = rest

/-- A single reference device is found by the first pass, whatever its address, and the pass leaves FORK
= 0, so that the second finds nothing (R157 and R159, which the spec marks as its own derivations). -/
def Obligations.SingleDeviceIsFoundByTheFirstPass : Prop :=
  ∀ (a cur : Vector Byte 8) (F : Nat),
    refPass [a] F cur 64 = some { devices := [a], cur := a, newfork := 0 }

/-- Enumeration (R157): from a fresh cursor, successive passes over a set of N distinct reference devices,
N at least 1, find each of them once, and FORK is 0 after the N-th. The spec marks R157 as derived from
R152 to R155. -/
def Obligations.SearchEnumeratesEveryDevice : Prop :=
  ∀ S : List (Vector Byte 8), S ≠ [] → S.Nodup →
    (refSearch S S.length zeroAddr Config.forkFresh).1.Perm S ∧
    (refSearch S S.length zeroAddr Config.forkFresh).2.2 = Config.forkDone

/-- Order (R159): under the same conditions the addresses come out in increasing order of their bit
strings, position 1 first. The spec marks R159 as derived from R153. -/
def Obligations.SearchFindsAddressesInOrder : Prop :=
  ∀ S : List (Vector Byte 8), S ≠ [] → S.Nodup →
    (refSearch S S.length zeroAddr Config.forkFresh).1.Pairwise foundBefore

/-- Retry (R158): a pass from a cursor whose first k positions an aborted pass has already written with the
bits a complete pass chooses finds the same address and leaves the same FORK. The spec marks R158 as
derived from R153 and R156. -/
def Obligations.RetryFindsTheSameAddress : Prop :=
  ∀ (S : List (Vector Byte 8)) (F k : Nat) (cur cut : Vector Byte 8) (x : RefPass), k ≤ 64 →
    refPass S F cur 64 = some x →
    (∀ q, 1 ≤ q → q ≤ k → posBit cut q = posBit x.cur q) →
    (∀ q, k < q → q ≤ 64 → posBit cut q = posBit cur q) →
    refPass S F cut 64 = some x

/-- Only SEARCH_INIT and SEARCH_NEXT write the cursor, only SEARCH_NEXT writes SRCH_RESULT (R30, R31,
R249). -/
def Obligations.OnlyTheSearchWritesTheCursor : Prop :=
  ∀ (i : Instr) (s t : State), s.NoReset → exec i s = .next t →
    (i ≠ .searchInit → i ≠ .searchNext → t.regs.curAddr = s.regs.curAddr ∧ t.regs.fork = s.regs.fork) ∧
    (i ≠ .searchNext → t.regs.srchResult = s.regs.srchResult)

/-! ## The session commands (45_session.md) -/

/-- SELECT sends the Match-ROM byte and the eight address bytes, byte 0 first, each bit 0 first: 72 write
slots, no reset, no register and no flag (R170, R176). -/
def Obligations.SelectSendsTheAddress : Prop :=
  ∀ (c : BitVec 4) (s : State), c.toNat < s.params.numCtx → s.NoReset →
    ∃ t ev, exec (.select c) s = .next t ∧ s.Done t s.status s.regs s.pin.mode ∧ s.Emitted t ev ∧
      slotsOf ev = selectSlots (s.regs.context c).addr ∧ levelsOf ev = []

/-- READ_ADDRESS (R171): a failed reset or a failed CRC zeroes ADDR with outcome Timeout and the code;
otherwise ADDR is the eight bytes read, with outcome Ok; nothing else changes. -/
def Obligations.ReadAddressKeepsOnlyAValidAddress : Prop :=
  ∀ (c : BitVec 4) (s : State), c.toNat < s.params.numCtx → s.NoReset →
    ∃ t hi ev, exec (.readAddress c) s = .next t ∧ s.Emitted t ev ∧
      ((hi ≠ some false ∧ ev = resetEvents hi ∧
          s.Done t { s.status.afterReset hi with outcome := .timeout }
            (s.regs.onContext c fun x => { x with addr := zeroAddr, outcome := .timeout }) s.pin.mode) ∨
       (hi = some false ∧ ∃ a : Vector Byte 8,
          slotsOf ev = .reset :: byteSlots 0x33 ++ List.replicate 64 .read ∧
          levelsOf ev = false :: (firstBytes a 8).flatMap byteBits ∧
          (if crcOf (firstBytes a 8) = 0 then
            s.Done t { s.status with presence := true, crcOk := true, outcome := .ok }
              (s.regs.onContext c fun x => { x with addr := a, outcome := .ok }) s.pin.mode
          else
            s.Done t { s.status with presence := true, crcOk := false, fault := .crc,
                                     outcome := .timeout }
              (s.regs.onContext c fun x => { x with addr := zeroAddr, outcome := .timeout })
              s.pin.mode)))

/-- TEMP_UPDATE in phase Idle (R173): a failed reset leaves Idle with Timeout; otherwise reset, select and
0x44 go out, Passive power mode then sets STRONG_PULLUP, T0 is the tick read, and the phase is
ConversionStarted with PollingInProgress. -/
def Obligations.TempUpdateStartsAConversion : Prop :=
  ∀ (c : BitVec 4) (s : State), c.toNat < s.params.numCtx → s.NoReset →
    (s.regs.context c).phase = .idle →
    ∃ t hi ev, exec (.tempUpdate c) s = .next t ∧ s.Emitted t ev ∧
      ((hi ≠ some false ∧ ev = resetEvents hi ∧
          s.Done t { s.status.afterReset hi with outcome := .timeout }
            (s.regs.onContext c fun x => { x with outcome := .timeout }) s.pin.mode) ∨
       (hi = some false ∧
          slotsOf ev = .reset :: selectSlots (s.regs.context c).addr ++ byteSlots 0x44 ∧
          levelsOf ev = [false] ∧
          (s.regs.powerMode = .passive → ev.getLast? = some (.setMode .strongPullup)) ∧
          s.Done t { s.status with presence := true, outcome := .pollingInProgress }
            (s.regs.onContext c fun x => { x with t0 := t.env.tickIn, phase := .conversionStarted,
                                                  outcome := .pollingInProgress })
            (if s.regs.powerMode = .passive then .strongPullup else s.pin.mode) ∧
          ∀ n rest, s.env.elapses = n :: rest → t.env.tickIn = s.env.tickIn + BitVec.ofNat 32 n))

/-- TEMP_UPDATE in ConversionStarted before POLL_TICKS ticks have passed since T0, modulo 2^32, returns
PollingInProgress with no line event and no other change (R172; the spec derives R247 from it). -/
def Obligations.TempUpdateBeforeTheInterval : Prop :=
  ∀ (c : BitVec 4) (s : State) (n : Nat) (rest : List Nat), c.toNat < s.params.numCtx → s.NoReset →
    (s.regs.context c).phase = .conversionStarted → s.env.elapses = n :: rest →
    (s.env.tickIn + BitVec.ofNat 32 n - (s.regs.context c).t0).toNat < s.params.pollTicks →
    ∃ t, exec (.tempUpdate c) s = .next t ∧
      s.Done t { s.status with outcome := .pollingInProgress }
        (s.regs.onContext c fun x => { x with outcome := .pollingInProgress }) s.pin.mode ∧
      t.trace = s.trace ∧ t.pin = s.pin

/-- TEMP_UPDATE in ConversionStarted once POLL_TICKS ticks have passed since T0 (R174): Passive power mode
first restores OPEN_DRAIN; the phase becomes Idle on every path; a failed reset or CRC is Timeout with the
last good reading kept; otherwise TEMP_RAW and TEMP_F32 are the decoded first two of the nine bytes read,
with Ok. The scratchpad is left open (R34). -/
def Obligations.TempUpdateReadsTheScratchpad : Prop :=
  ∀ (c : BitVec 4) (s : State) (n : Nat) (rest : List Nat), c.toNat < s.params.numCtx → s.NoReset →
    (s.regs.context c).phase = .conversionStarted → s.env.elapses = n :: rest →
    s.params.pollTicks ≤ (s.env.tickIn + BitVec.ofNat 32 n - (s.regs.context c).t0).toNat →
    ∃ t hi ev sp, exec (.tempUpdate c) s = .next t ∧ s.Emitted t ev ∧
      (s.regs.powerMode = .passive → ev.head? = some (.setMode .openDrain)) ∧
      ((hi ≠ some false ∧
          ev = (if s.regs.powerMode = .passive then [.setMode .openDrain] else []) ++ resetEvents hi ∧
          s.Done t { s.status.afterReset hi with outcome := .timeout }
            { s.regs.onContext c fun x => { x with phase := .idle, outcome := .timeout } with sp := sp }
            (if s.regs.powerMode = .passive then .openDrain else s.pin.mode)) ∨
       (hi = some false ∧ ∃ bytes : Vector Byte 9,
          slotsOf ev = .reset :: selectSlots (s.regs.context c).addr ++ byteSlots 0xBE
            ++ List.replicate 72 .read ∧
          levelsOf ev = false :: (firstBytes bytes 9).flatMap byteBits ∧
          s.Done t
            (if crcOf (firstBytes bytes 9) = 0 then
              { s.status with presence := true, crcOk := true, outcome := .ok }
            else
              { s.status with presence := true, crcOk := false, fault := .crc, outcome := .timeout })
            { s.regs.onContext c fun x =>
                if crcOf (firstBytes bytes 9) = 0 then
                  { x with phase := .idle, outcome := .ok
                           tempRaw := (decodeTemp (byteAt bytes 0) (byteAt bytes 1) x.family).1
                           tempF32 := (decodeTemp (byteAt bytes 0) (byteAt bytes 1) x.family).2 }
                else { x with phase := .idle, outcome := .timeout } with sp := sp }
            (if s.regs.powerMode = .passive then .openDrain else s.pin.mode)))

/-- CONFIG_RESOLUTION on a family other than 0x28 and 0x22 reports Ok with no line event; on these it runs
reset, select, 0x4E, TH, TL, the configuration byte, then reset, select, 0x48, and a reset nobody answers
ends it with Timeout and the code (R175; the code 0x22, the byte 0x3F and TH before TL are the spec's general
knowledge, log 25). -/
def Obligations.ConfigResolutionRunsTwoTransactions : Prop :=
  ∀ (c : BitVec 4) (s : State), c.toNat < s.params.numCtx → s.NoReset →
    ∃ t ev, exec (.configResolution c) s = .next t ∧ s.Emitted t ev ∧
      ((s.regs.context c).family ≠ 0x28 → (s.regs.context c).family ≠ 0x22 →
        ev = [] ∧ s.Done t { s.status with outcome := .ok }
          (s.regs.onContext c fun x => { x with outcome := .ok }) s.pin.mode) ∧
      (((s.regs.context c).family = 0x28 ∨ (s.regs.context c).family = 0x22) →
        ∃ first second, ev = first ++ second ∧
        ((∃ hi, hi ≠ some false ∧ first = resetEvents hi ∧ second = [] ∧
            s.Done t { s.status.afterReset hi with outcome := .timeout }
              (s.regs.onContext c fun x => { x with outcome := .timeout }) s.pin.mode) ∨
         (slotsOf first = .reset :: selectSlots (s.regs.context c).addr ++ byteSlots 0x4E
            ++ byteSlots s.params.cfgTh ++ byteSlots s.params.cfgTl ++ byteSlots 0x3F ∧
          levelsOf first = [false] ∧
          ((∃ hi, hi ≠ some false ∧ second = resetEvents hi ∧
              s.Done t { s.status.afterReset hi with outcome := .timeout }
                (s.regs.onContext c fun x => { x with outcome := .timeout }) s.pin.mode) ∨
           (slotsOf second = .reset :: selectSlots (s.regs.context c).addr ++ byteSlots 0x48 ∧
              levelsOf second = [false] ∧
              s.Done t { s.status with presence := true, outcome := .ok }
                (s.regs.onContext c fun x => { x with outcome := .ok }) s.pin.mode)))))

/-- The raw value is the little-endian 16 bits, and its temperature is exactly half of their signed reading
for family 0x10 and a sixteenth for every other; 0 gives +0.0, and no NaN, infinity or subnormal arises: the
exponent field is never all ones, and zero only for +0.0 (R178, R68; the spec marks the exactness as derived
and the code 0x10 as general knowledge, log 25). -/
def Obligations.TemperatureIsExact : Prop :=
  (∀ lo hi fam : Byte, (decodeTemp lo hi fam).1 = hi ++ lo ∧
    binary32Value (decodeTemp lo hi fam).2 =
      ((hi ++ lo).toInt : Rat) / (if fam = 0x10 then 2 else 16)) ∧
  (∀ lo hi fam : Byte, (decodeTemp lo hi fam).2.extractLsb' 23 8 ≠ 255 ∧
    ((decodeTemp lo hi fam).2 = 0 ↔ hi ++ lo = (0 : BitVec 16)) ∧
    ((decodeTemp lo hi fam).2 ≠ 0 → (decodeTemp lo hi fam).2.extractLsb' 23 8 ≠ 0))

/-- Only TEMP_UPDATE changes a PHASE, a T0, TEMP_RAW or TEMP_F32, and only those of the context it names;
only the session commands but SELECT change an outcome (R177, R179, R212). -/
def Obligations.OnlyTempUpdateMovesTheSensorState : Prop :=
  ∀ (i : Instr) (s t : State) (c : BitVec 4), s.NoReset → exec i s = .next t →
    (i ≠ .tempUpdate c → (t.regs.context c).phase = (s.regs.context c).phase ∧
      (t.regs.context c).t0 = (s.regs.context c).t0 ∧
      (t.regs.context c).tempRaw = (s.regs.context c).tempRaw ∧
      (t.regs.context c).tempF32 = (s.regs.context c).tempF32) ∧
    (i ≠ .readAddress c → (t.regs.context c).addr = (s.regs.context c).addr) ∧
    (i ≠ .readAddress c → i ≠ .tempUpdate c → i ≠ .configResolution c →
      (t.regs.context c).outcome = (s.regs.context c).outcome)

/-! ## The whole machine -/

/-- Whatever the host, the environment and the command do, a step keeps the block well-formed: the parameters
are as R4 asks, POLL_TICKS being what TICK_PERIOD gives, BUSY says
whether SEQ is IDLE, FORK stays in 0..65, no slot is left open and the line of OPEN_DRAIN is released,
contexts that do not exist hold nothing, LINE_MODE is the mode of the last `set_mode` event, and TEMP_F32
belongs to TEMP_RAW (R4, R26, R27, R30, R33, R35, R105). -/
def Obligations.EveryStepKeepsTheBlockWellFormed : Prop :=
  ∀ s t : State, s.Wf → step s = .next t → t.Wf

/-- The block is well-formed right after reset (R41). -/
def Obligations.ResetStateIsWellFormed : Prop := State.reset.Wf

/-- No step changes a parameter of the block, and none takes back a line event (R4, R8). -/
def Obligations.StepsKeepParametersAndHistory : Prop :=
  ∀ s t : State, step s = .next t → t.params = s.params ∧ ∃ ev, s.Emitted t ev

/-- The fault codes each command can record (R200): a command that ends with another FAULT than it began
with has one of its own codes. -/
def Obligations.FaultCodesBelongToTheirCommands : Prop :=
  ∀ (i : Instr) (s t : State), s.NoReset → i.wellFormed s.params.numCtx = true → exec i s = .next t →
    t.status.fault = s.status.fault ∨
    (match i with
      | .owReset => t.status.fault ∈ [FaultCode.noPresence, .stuckLow]
      | .searchNext => t.status.fault ∈ [FaultCode.noPresence, .stuckLow, .neither, .exhausted]
      | .readAddress _ => t.status.fault ∈ [FaultCode.noPresence, .stuckLow, .crc]
      | .tempUpdate _ => t.status.fault ∈ [FaultCode.noPresence, .stuckLow, .crc]
      | .configResolution _ => t.status.fault ∈ [FaultCode.noPresence, .stuckLow]
      | _ => False)

/-- No instruction writes a flag other than those its rule names (R43, R26): PRESENCE only the commands
that run a reset, CRC_OK only those that run a check, FOUND only the search, OUTCOME only the session
commands but SELECT. -/
def Obligations.FlagsBelongToTheirCommands : Prop :=
  ∀ (i : Instr) (s t : State), s.NoReset → exec i s = .next t →
    (t.status.presence ≠ s.status.presence → i = .owReset ∨ i = .searchNext ∨
      ∃ c, i = .readAddress c ∨ i = .tempUpdate c ∨ i = .configResolution c) ∧
    (t.status.crcOk ≠ s.status.crcOk → i = .searchNext ∨ (∃ len, i = .crcCheck len) ∨
      ∃ c, i = .readAddress c ∨ i = .tempUpdate c) ∧
    (t.status.found ≠ s.status.found → i = .searchInit ∨ i = .searchNext) ∧
    (t.status.outcome ≠ s.status.outcome →
      ∃ c, i = .readAddress c ∨ i = .tempUpdate c ∨ i = .configResolution c)

/-- RDATA is written only by OW_READ_BIT and OW_READ_BYTE, CRCACC only by CRC_UPDATE and CRC_CHECK, IOBUF
only by OW_READ_BYTES, and the scratchpad only by TEMP_UPDATE (R29, R32, R34). -/
def Obligations.DataRegistersBelongToTheirCommands : Prop :=
  ∀ (i : Instr) (s t : State), s.NoReset → exec i s = .next t →
    (t.regs.rdata ≠ s.regs.rdata → i = .owReadBit ∨ i = .owReadByte) ∧
    (t.regs.crcAcc ≠ s.regs.crcAcc → (∃ b, i = .crcUpdate b) ∨ ∃ len, i = .crcCheck len) ∧
    (t.regs.iobuf ≠ s.regs.iobuf → ∃ len, i = .owReadBytes len) ∧
    (t.regs.sp ≠ s.regs.sp → ∃ c, i = .tempUpdate c)

/-- No instruction writes POWER_MODE, and only TEMP_UPDATE in Passive power mode changes LINE_MODE (R27,
R28). -/
def Obligations.OnlyTempUpdateChangesTheLineMode : Prop :=
  ∀ (i : Instr) (s t : State), s.NoReset → exec i s = .next t →
    t.regs.powerMode = s.regs.powerMode ∧
    (t.pin.mode ≠ s.pin.mode → s.regs.powerMode = .passive ∧ ∃ c, i = .tempUpdate c)

/-- A step of an idle block with nothing asked of it answers the state as it is: it runs no command until
the host writes CMD (R230, R206). That such a step exists and leaves the whole state alone is the model's
choice (log 19), and so is that the tick input stands still in it, since ticks pass only at a `Tick()`
(log 3). -/
def Obligations.AnIdleBlockDoesNothing : Prop :=
  ∀ s : State, s.seq = .idle → s.engine.tx = none → s.host.queue = [] → step s = .next s
end

