-- ==== Sys2Proof/Laws/State.lean ====
section
/-! SUPPORT. For every update of State and every field of it, what the field is after the update. -/

namespace Sys2Proof.Machine

section
variable (s : State)

@[simp] theorem State.setSeq_params (q : Seq) : (s.setSeq q).params = s.params := rfl
@[simp] theorem State.setSeq_seq (q : Seq) : (s.setSeq q).seq = q := rfl
@[simp] theorem State.setSeq_status (q : Seq) : (s.setSeq q).status = s.status := rfl
@[simp] theorem State.setSeq_regs (q : Seq) : (s.setSeq q).regs = s.regs := rfl
@[simp] theorem State.setSeq_pin (q : Seq) : (s.setSeq q).pin = s.pin := rfl
@[simp] theorem State.setSeq_engine (q : Seq) : (s.setSeq q).engine = s.engine := rfl
@[simp] theorem State.setSeq_rstIn (q : Seq) : (s.setSeq q).rstIn = s.rstIn := rfl
@[simp] theorem State.setSeq_env (q : Seq) : (s.setSeq q).env = s.env := rfl
@[simp] theorem State.setSeq_host (q : Seq) : (s.setSeq q).host = s.host := rfl
@[simp] theorem State.setSeq_trace (q : Seq) : (s.setSeq q).trace = s.trace := rfl

@[simp] theorem State.onStatus_params (f : Status → Status) : (s.onStatus f).params = s.params := rfl
@[simp] theorem State.onStatus_seq (f : Status → Status) : (s.onStatus f).seq = s.seq := rfl
@[simp] theorem State.onStatus_status (f : Status → Status) : (s.onStatus f).status = f s.status := rfl
@[simp] theorem State.onStatus_regs (f : Status → Status) : (s.onStatus f).regs = s.regs := rfl
@[simp] theorem State.onStatus_pin (f : Status → Status) : (s.onStatus f).pin = s.pin := rfl
@[simp] theorem State.onStatus_engine (f : Status → Status) : (s.onStatus f).engine = s.engine := rfl
@[simp] theorem State.onStatus_rstIn (f : Status → Status) : (s.onStatus f).rstIn = s.rstIn := rfl
@[simp] theorem State.onStatus_env (f : Status → Status) : (s.onStatus f).env = s.env := rfl
@[simp] theorem State.onStatus_host (f : Status → Status) : (s.onStatus f).host = s.host := rfl
@[simp] theorem State.onStatus_trace (f : Status → Status) : (s.onStatus f).trace = s.trace := rfl

@[simp] theorem State.onRegs_params (f : Regs → Regs) : (s.onRegs f).params = s.params := rfl
@[simp] theorem State.onRegs_seq (f : Regs → Regs) : (s.onRegs f).seq = s.seq := rfl
@[simp] theorem State.onRegs_status (f : Regs → Regs) : (s.onRegs f).status = s.status := rfl
@[simp] theorem State.onRegs_regs (f : Regs → Regs) : (s.onRegs f).regs = f s.regs := rfl
@[simp] theorem State.onRegs_pin (f : Regs → Regs) : (s.onRegs f).pin = s.pin := rfl
@[simp] theorem State.onRegs_engine (f : Regs → Regs) : (s.onRegs f).engine = s.engine := rfl
@[simp] theorem State.onRegs_rstIn (f : Regs → Regs) : (s.onRegs f).rstIn = s.rstIn := rfl
@[simp] theorem State.onRegs_env (f : Regs → Regs) : (s.onRegs f).env = s.env := rfl
@[simp] theorem State.onRegs_host (f : Regs → Regs) : (s.onRegs f).host = s.host := rfl
@[simp] theorem State.onRegs_trace (f : Regs → Regs) : (s.onRegs f).trace = s.trace := rfl

@[simp] theorem State.onPin_params (f : Pin → Pin) : (s.onPin f).params = s.params := rfl
@[simp] theorem State.onPin_seq (f : Pin → Pin) : (s.onPin f).seq = s.seq := rfl
@[simp] theorem State.onPin_status (f : Pin → Pin) : (s.onPin f).status = s.status := rfl
@[simp] theorem State.onPin_regs (f : Pin → Pin) : (s.onPin f).regs = s.regs := rfl
@[simp] theorem State.onPin_pin (f : Pin → Pin) : (s.onPin f).pin = f s.pin := rfl
@[simp] theorem State.onPin_engine (f : Pin → Pin) : (s.onPin f).engine = s.engine := rfl
@[simp] theorem State.onPin_rstIn (f : Pin → Pin) : (s.onPin f).rstIn = s.rstIn := rfl
@[simp] theorem State.onPin_env (f : Pin → Pin) : (s.onPin f).env = s.env := rfl
@[simp] theorem State.onPin_host (f : Pin → Pin) : (s.onPin f).host = s.host := rfl
@[simp] theorem State.onPin_trace (f : Pin → Pin) : (s.onPin f).trace = s.trace := rfl

@[simp] theorem State.onEngine_params (f : Engine → Engine) : (s.onEngine f).params = s.params := rfl
@[simp] theorem State.onEngine_seq (f : Engine → Engine) : (s.onEngine f).seq = s.seq := rfl
@[simp] theorem State.onEngine_status (f : Engine → Engine) : (s.onEngine f).status = s.status := rfl
@[simp] theorem State.onEngine_regs (f : Engine → Engine) : (s.onEngine f).regs = s.regs := rfl
@[simp] theorem State.onEngine_pin (f : Engine → Engine) : (s.onEngine f).pin = s.pin := rfl
@[simp] theorem State.onEngine_engine (f : Engine → Engine) : (s.onEngine f).engine = f s.engine := rfl
@[simp] theorem State.onEngine_rstIn (f : Engine → Engine) : (s.onEngine f).rstIn = s.rstIn := rfl
@[simp] theorem State.onEngine_env (f : Engine → Engine) : (s.onEngine f).env = s.env := rfl
@[simp] theorem State.onEngine_host (f : Engine → Engine) : (s.onEngine f).host = s.host := rfl
@[simp] theorem State.onEngine_trace (f : Engine → Engine) : (s.onEngine f).trace = s.trace := rfl

@[simp] theorem State.setRst_params (l : Bool) : (s.setRst l).params = s.params := rfl
@[simp] theorem State.setRst_seq (l : Bool) : (s.setRst l).seq = s.seq := rfl
@[simp] theorem State.setRst_status (l : Bool) : (s.setRst l).status = s.status := rfl
@[simp] theorem State.setRst_regs (l : Bool) : (s.setRst l).regs = s.regs := rfl
@[simp] theorem State.setRst_pin (l : Bool) : (s.setRst l).pin = s.pin := rfl
@[simp] theorem State.setRst_engine (l : Bool) : (s.setRst l).engine = s.engine := rfl
@[simp] theorem State.setRst_rstIn (l : Bool) : (s.setRst l).rstIn = l := rfl
@[simp] theorem State.setRst_env (l : Bool) : (s.setRst l).env = s.env := rfl
@[simp] theorem State.setRst_host (l : Bool) : (s.setRst l).host = s.host := rfl
@[simp] theorem State.setRst_trace (l : Bool) : (s.setRst l).trace = s.trace := rfl

@[simp] theorem State.onEnv_params (f : Env → Env) : (s.onEnv f).params = s.params := rfl
@[simp] theorem State.onEnv_seq (f : Env → Env) : (s.onEnv f).seq = s.seq := rfl
@[simp] theorem State.onEnv_status (f : Env → Env) : (s.onEnv f).status = s.status := rfl
@[simp] theorem State.onEnv_regs (f : Env → Env) : (s.onEnv f).regs = s.regs := rfl
@[simp] theorem State.onEnv_pin (f : Env → Env) : (s.onEnv f).pin = s.pin := rfl
@[simp] theorem State.onEnv_engine (f : Env → Env) : (s.onEnv f).engine = s.engine := rfl
@[simp] theorem State.onEnv_rstIn (f : Env → Env) : (s.onEnv f).rstIn = s.rstIn := rfl
@[simp] theorem State.onEnv_env (f : Env → Env) : (s.onEnv f).env = f s.env := rfl
@[simp] theorem State.onEnv_host (f : Env → Env) : (s.onEnv f).host = s.host := rfl
@[simp] theorem State.onEnv_trace (f : Env → Env) : (s.onEnv f).trace = s.trace := rfl

@[simp] theorem State.onHost_params (f : HostSide → HostSide) : (s.onHost f).params = s.params := rfl
@[simp] theorem State.onHost_seq (f : HostSide → HostSide) : (s.onHost f).seq = s.seq := rfl
@[simp] theorem State.onHost_status (f : HostSide → HostSide) : (s.onHost f).status = s.status := rfl
@[simp] theorem State.onHost_regs (f : HostSide → HostSide) : (s.onHost f).regs = s.regs := rfl
@[simp] theorem State.onHost_pin (f : HostSide → HostSide) : (s.onHost f).pin = s.pin := rfl
@[simp] theorem State.onHost_engine (f : HostSide → HostSide) : (s.onHost f).engine = s.engine := rfl
@[simp] theorem State.onHost_rstIn (f : HostSide → HostSide) : (s.onHost f).rstIn = s.rstIn := rfl
@[simp] theorem State.onHost_env (f : HostSide → HostSide) : (s.onHost f).env = s.env := rfl
@[simp] theorem State.onHost_host (f : HostSide → HostSide) : (s.onHost f).host = f s.host := rfl
@[simp] theorem State.onHost_trace (f : HostSide → HostSide) : (s.onHost f).trace = s.trace := rfl

@[simp] theorem State.emit_params (e : LineEvent) : (s.emit e).params = s.params := rfl
@[simp] theorem State.emit_seq (e : LineEvent) : (s.emit e).seq = s.seq := rfl
@[simp] theorem State.emit_status (e : LineEvent) : (s.emit e).status = s.status := rfl
@[simp] theorem State.emit_regs (e : LineEvent) : (s.emit e).regs = s.regs := rfl
@[simp] theorem State.emit_pin (e : LineEvent) : (s.emit e).pin = s.pin := rfl
@[simp] theorem State.emit_engine (e : LineEvent) : (s.emit e).engine = s.engine := rfl
@[simp] theorem State.emit_rstIn (e : LineEvent) : (s.emit e).rstIn = s.rstIn := rfl
@[simp] theorem State.emit_env (e : LineEvent) : (s.emit e).env = s.env := rfl
@[simp] theorem State.emit_host (e : LineEvent) : (s.emit e).host = s.host := rfl
@[simp] theorem State.emit_trace (e : LineEvent) : (s.emit e).trace = e :: s.trace := rfl

@[simp] theorem State.putMode_params (m : LineMode) : (s.putMode m).params = s.params := rfl
@[simp] theorem State.putMode_seq (m : LineMode) : (s.putMode m).seq = s.seq := rfl
@[simp] theorem State.putMode_status (m : LineMode) : (s.putMode m).status = s.status := rfl
@[simp] theorem State.putMode_regs (m : LineMode) : (s.putMode m).regs = s.regs := rfl
@[simp] theorem State.putMode_engine (m : LineMode) : (s.putMode m).engine = s.engine := rfl
@[simp] theorem State.putMode_rstIn (m : LineMode) : (s.putMode m).rstIn = s.rstIn := rfl
@[simp] theorem State.putMode_env (m : LineMode) : (s.putMode m).env = s.env := rfl
@[simp] theorem State.putMode_host (m : LineMode) : (s.putMode m).host = s.host := rfl
@[simp] theorem State.putMode_trace (m : LineMode) : (s.putMode m).trace = s.trace := rfl
@[simp] theorem State.putMode_mode (m : LineMode) : (s.putMode m).pin.mode = m := rfl
@[simp] theorem State.putMode_drive (m : LineMode) :
    (s.putMode m).pin.drive = if m = .openDrain then true else s.pin.drive := rfl

/-- Where no slot is open, SetMode of the mode the block is in leaves the pin as it is (R104, R105). -/
theorem State.putMode_same (h : s.pin.mode = .openDrain → s.pin.drive = true) :
    s.putMode s.pin.mode = s := by
  obtain ⟨_, _, _, _, ⟨m, d⟩, _, _, _, _, _⟩ := s
  cases m <;> simp_all [State.putMode, State.onPin]

end

/-! The derived updates. -/

section
variable (s : State)

@[simp] theorem State.drawn_params : s.drawn.params = s.params := rfl
@[simp] theorem State.drawn_seq : s.drawn.seq = s.seq := rfl
@[simp] theorem State.drawn_status : s.drawn.status = s.status := rfl
@[simp] theorem State.drawn_regs : s.drawn.regs = s.regs := rfl
@[simp] theorem State.drawn_pin : s.drawn.pin = s.pin := rfl
@[simp] theorem State.drawn_engine : s.drawn.engine = s.engine := rfl
@[simp] theorem State.drawn_rstIn : s.drawn.rstIn = s.rstIn := rfl
@[simp] theorem State.drawn_env : s.drawn.env = { s.env with draws := s.env.draws + 1 } := rfl
@[simp] theorem State.drawn_host : s.drawn.host = s.host := rfl
@[simp] theorem State.drawn_trace : s.drawn.trace = s.trace := rfl

@[simp] theorem State.setDuring_params (l : List BusyInput) : (s.setDuring l).params = s.params := rfl
@[simp] theorem State.setDuring_seq (l : List BusyInput) : (s.setDuring l).seq = s.seq := rfl
@[simp] theorem State.setDuring_status (l : List BusyInput) : (s.setDuring l).status = s.status := rfl
@[simp] theorem State.setDuring_regs (l : List BusyInput) : (s.setDuring l).regs = s.regs := rfl
@[simp] theorem State.setDuring_pin (l : List BusyInput) : (s.setDuring l).pin = s.pin := rfl
@[simp] theorem State.setDuring_engine (l : List BusyInput) : (s.setDuring l).engine = s.engine := rfl
@[simp] theorem State.setDuring_rstIn (l : List BusyInput) : (s.setDuring l).rstIn = s.rstIn := rfl
@[simp] theorem State.setDuring_env (l : List BusyInput) : (s.setDuring l).env = s.env := rfl
@[simp] theorem State.setDuring_host (l : List BusyInput) : (s.setDuring l).host = { s.host with during := l } := rfl
@[simp] theorem State.setDuring_trace (l : List BusyInput) : (s.setDuring l).trace = s.trace := rfl

@[simp] theorem State.setFault_params (c : FaultCode) : (s.setFault c).params = s.params := rfl
@[simp] theorem State.setFault_seq (c : FaultCode) : (s.setFault c).seq = s.seq := rfl
@[simp] theorem State.setFault_status (c : FaultCode) : (s.setFault c).status = { s.status with fault := c } := rfl
@[simp] theorem State.setFault_regs (c : FaultCode) : (s.setFault c).regs = s.regs := rfl
@[simp] theorem State.setFault_pin (c : FaultCode) : (s.setFault c).pin = s.pin := rfl
@[simp] theorem State.setFault_engine (c : FaultCode) : (s.setFault c).engine = s.engine := rfl
@[simp] theorem State.setFault_rstIn (c : FaultCode) : (s.setFault c).rstIn = s.rstIn := rfl
@[simp] theorem State.setFault_env (c : FaultCode) : (s.setFault c).env = s.env := rfl
@[simp] theorem State.setFault_host (c : FaultCode) : (s.setFault c).host = s.host := rfl
@[simp] theorem State.setFault_trace (c : FaultCode) : (s.setFault c).trace = s.trace := rfl

@[simp] theorem State.endCommand_params : s.endCommand.params = s.params := rfl
@[simp] theorem State.endCommand_seq : s.endCommand.seq = .idle := rfl
@[simp] theorem State.endCommand_status : s.endCommand.status = { s.status with busy := false } := rfl
@[simp] theorem State.endCommand_regs : s.endCommand.regs = s.regs := rfl
@[simp] theorem State.endCommand_pin : s.endCommand.pin = s.pin := rfl
@[simp] theorem State.endCommand_engine : s.endCommand.engine = s.engine := rfl
@[simp] theorem State.endCommand_rstIn : s.endCommand.rstIn = s.rstIn := rfl
@[simp] theorem State.endCommand_env : s.endCommand.env = s.env := rfl
@[simp] theorem State.endCommand_host : s.endCommand.host = s.host := rfl
@[simp] theorem State.endCommand_trace : s.endCommand.trace = s.trace := rfl

@[simp] theorem State.answer_params (r : BitVec 8) (v : Word) : (s.answer r v).params = s.params := rfl
@[simp] theorem State.answer_seq (r : BitVec 8) (v : Word) : (s.answer r v).seq = s.seq := rfl
@[simp] theorem State.answer_status (r : BitVec 8) (v : Word) : (s.answer r v).status = s.status := rfl
@[simp] theorem State.answer_regs (r : BitVec 8) (v : Word) : (s.answer r v).regs = s.regs := rfl
@[simp] theorem State.answer_pin (r : BitVec 8) (v : Word) : (s.answer r v).pin = s.pin := rfl
@[simp] theorem State.answer_engine (r : BitVec 8) (v : Word) : (s.answer r v).engine = s.engine := rfl
@[simp] theorem State.answer_rstIn (r : BitVec 8) (v : Word) : (s.answer r v).rstIn = s.rstIn := rfl
@[simp] theorem State.answer_env (r : BitVec 8) (v : Word) : (s.answer r v).env = s.env := rfl
@[simp] theorem State.answer_host (r : BitVec 8) (v : Word) : (s.answer r v).host = { s.host with reads := (r, v) :: s.host.reads } := rfl
@[simp] theorem State.answer_trace (r : BitVec 8) (v : Word) : (s.answer r v).trace = s.trace := rfl

@[simp] theorem State.onCtx_params (c : BitVec 4) (f : Context → Context) : (s.onCtx c f).params = s.params := rfl
@[simp] theorem State.onCtx_seq (c : BitVec 4) (f : Context → Context) : (s.onCtx c f).seq = s.seq := rfl
@[simp] theorem State.onCtx_status (c : BitVec 4) (f : Context → Context) : (s.onCtx c f).status = s.status := rfl
@[simp] theorem State.onCtx_regs (c : BitVec 4) (f : Context → Context) : (s.onCtx c f).regs = s.regs.setContext c (f (s.regs.context c)) := rfl
@[simp] theorem State.onCtx_pin (c : BitVec 4) (f : Context → Context) : (s.onCtx c f).pin = s.pin := rfl
@[simp] theorem State.onCtx_engine (c : BitVec 4) (f : Context → Context) : (s.onCtx c f).engine = s.engine := rfl
@[simp] theorem State.onCtx_rstIn (c : BitVec 4) (f : Context → Context) : (s.onCtx c f).rstIn = s.rstIn := rfl
@[simp] theorem State.onCtx_env (c : BitVec 4) (f : Context → Context) : (s.onCtx c f).env = s.env := rfl
@[simp] theorem State.onCtx_host (c : BitVec 4) (f : Context → Context) : (s.onCtx c f).host = s.host := rfl
@[simp] theorem State.onCtx_trace (c : BitVec 4) (f : Context → Context) : (s.onCtx c f).trace = s.trace := rfl

@[simp] theorem State.accept_params (w : Word) : (s.accept w).params = s.params := rfl
@[simp] theorem State.accept_seq (w : Word) : (s.accept w).seq = .busy w 0 := rfl
@[simp] theorem State.accept_status (w : Word) : (s.accept w).status = { s.status with busy := true, fault := .none } := rfl
@[simp] theorem State.accept_regs (w : Word) : (s.accept w).regs = s.regs := rfl
@[simp] theorem State.accept_pin (w : Word) : (s.accept w).pin = s.pin := rfl
@[simp] theorem State.accept_engine (w : Word) : (s.accept w).engine = s.engine := rfl
@[simp] theorem State.accept_rstIn (w : Word) : (s.accept w).rstIn = s.rstIn := rfl
@[simp] theorem State.accept_env (w : Word) : (s.accept w).env = s.env := rfl
@[simp] theorem State.accept_host (w : Word) : (s.accept w).host = s.host := rfl
@[simp] theorem State.accept_trace (w : Word) : (s.accept w).trace = s.trace := rfl

end

end Sys2Proof.Machine
end

