-- ==== Sys2Proof/Laws/Spec.lean ====
section
/-! SUPPORT. How to say what a piece of pseudocode can do: `Spec c s Q F` covers its three endings
(it goes on, it finishes the command, or `rst` abandons it), with the rules for sequences and loops. -/

namespace Sys2Proof.Machine

/-- What holds between a state and every later state of the same command. -/
structure Base (s t : State) : Prop where
  params : t.params = s.params
  rst : t.rstIn = s.rstIn
  queue : t.host.queue = s.host.queue
  noReset : s.NoReset → t.NoReset
  quiet : s.Quiet → t.Quiet
  grows : ∃ ev, s.Emitted t ev
  modeIsLast : s.pin.mode = lastMode s.trace → t.pin.mode = lastMode t.trace

theorem Base.refl (s : State) : Base s s :=
  ⟨rfl, rfl, rfl, id, id, ⟨[], rfl⟩, id⟩

theorem State.Emitted.trans {s t u : State} {a b : List LineEvent} (h : s.Emitted t a) (k : t.Emitted u b) :
    s.Emitted u (a ++ b) := by
  simp only [State.Emitted] at *
  simp [k, h]

theorem Base.trans {s t u : State} (h : Base s t) (k : Base t u) : Base s u where
  params := k.params.trans h.params
  rst := k.rst.trans h.rst
  queue := k.queue.trans h.queue
  noReset := k.noReset ∘ h.noReset
  quiet := k.quiet ∘ h.quiet
  grows := by
    obtain ⟨a, ha⟩ := h.grows
    obtain ⟨b, hb⟩ := k.grows
    exact ⟨a ++ b, State.Emitted.trans ha hb⟩
  modeIsLast := k.modeIsLast ∘ h.modeIsLast

/-- What `rst` leaves of a command that began in `s` (R230): the reset of some state the command was
in. Without an `rst` among the acts that land there is none. -/
def Abandoned (s t : State) : Prop := ¬ s.NoReset ∧ ∃ u, Base s u ∧ t = u.applyReset

theorem Abandoned.of_base {s t u : State} (h : Base s t) (k : Abandoned t u) : Abandoned s u := by
  obtain ⟨hn, v, hv, rfl⟩ := k
  exact ⟨fun hs => hn (h.noReset hs), v, h.trans hv, rfl⟩

/-- What the pseudocode `c` does from `s`: it goes on with a value and a state that satisfy `Q`, or it
finishes in a state that satisfies `F`, or `rst` abandons it. -/
def Spec {α : Type} (c : Cmd α) (s : State) (Q : α → State → Prop) (F : State → Prop) : Prop :=
  match c s with
  | .ok a t => Base s t ∧ Q a t
  | .error .finished t => Base s t ∧ F t
  | .error .abandoned t => Abandoned s t

section
variable {α β : Type} {c : Cmd α} {f : α → Cmd β} {s : State}
variable {Q Q' : α → State → Prop} {P : β → State → Prop} {F F' : State → Prop}

theorem Spec.mono (h : Spec c s Q F) (hQ : ∀ a t, Base s t → Q a t → Q' a t)
    (hF : ∀ t, Base s t → F t → F' t) : Spec c s Q' F' := by
  unfold Spec at *
  split at h
  · exact ⟨h.1, hQ _ _ h.1 h.2⟩
  · exact ⟨h.1, hF _ h.1 h.2⟩
  · exact h

theorem Spec.bind (h : Spec c s Q F) (hF : ∀ t, Base s t → F t → F' t)
    (hf : ∀ a t, Base s t → Q a t → Spec (f a) t P (fun u => F' u)) : Spec (c >>= f) s P F' := by
  have hb : (c >>= f) s = match c s with
      | .ok a t => f a t
      | .error e t => .error e t := by
    change EStateM.bind c f s = _
    unfold EStateM.bind
    cases c s <;> rfl
  unfold Spec at h ⊢
  rw [hb]
  cases hc : c s with
  | ok a t =>
    rw [hc] at h
    have k := hf a t h.1 h.2
    unfold Spec at k
    simp only
    split at k
    · exact ⟨h.1.trans k.1, k.2⟩
    · exact ⟨h.1.trans k.1, k.2⟩
    · exact k.of_base h.1
  | error e t =>
    rw [hc] at h
    cases e with
    | finished => exact ⟨h.1, hF t h.1 h.2⟩
    | abandoned => exact h

/-- The sequence rule for a part that never finishes the command. -/
theorem Spec.andThen (h : Spec c s Q (fun _ => False))
    (hf : ∀ a t, Base s t → Q a t → Spec (f a) t P F') : Spec (c >>= f) s P F' :=
  h.bind (fun _ _ k => k.elim) hf

theorem Spec.pure {a : α} (h : Q a s) : Spec (pure a : Cmd α) s Q F := ⟨Base.refl s, h⟩

theorem Spec.ask {g : State → α} (h : Q (g s) s) : Spec (ask g) s Q F := ⟨Base.refl s, h⟩

theorem Spec.act {g : State → State} {Q : Unit → State → Prop} (hb : Base s (g s)) (h : Q () (g s)) :
    Spec (act g) s Q F := ⟨hb, h⟩

/-- What `runs` answers for a piece of pseudocode (the meanings of all instructions are of this form). -/
theorem Spec.runs {c : Cmd Unit} {Q : Unit → State → Prop} (h : Spec c s Q F) :
    ∃ t, runs c s = .next t ∧ (Abandoned s t ∨ Base s t ∧ (Q () t ∨ F t)) := by
  unfold Spec at h
  unfold Machine.runs runCmd
  split at h <;> rename_i hc <;> rw [hc]
  · exact ⟨_, rfl, .inr ⟨h.1, .inl h.2⟩⟩
  · exact ⟨_, rfl, .inr ⟨h.1, .inr h.2⟩⟩
  · exact ⟨_, rfl, .inl h⟩

/-- The same when no `rst` lands. -/
theorem Spec.runs_of_noReset {c : Cmd Unit} {Q : Unit → State → Prop} (h : Spec c s Q F)
    (hn : s.NoReset) : ∃ t, Machine.runs c s = .next t ∧ Base s t ∧ (Q () t ∨ F t) := by
  obtain ⟨t, ht, ha | hb⟩ := h.runs
  · exact absurd hn ha.1
  · exact ⟨t, ht, hb⟩

/-- The loop rule: an invariant `I k` after `k` rounds. -/
theorem Spec.upTo {g : Nat → Cmd Unit} {I : Nat → State → Prop} (n : Nat) (h0 : I 0 s)
    (hs : ∀ k t, k < n → Base s t → I k t → Spec (g k) t (fun _ u => I (k + 1) u) (fun _ => False)) :
    Spec (upTo n g) s (fun _ t => I n t) (fun _ => False) := by
  induction n with
  | zero => exact .pure h0
  | succ n ih =>
    refine (ih fun k t hk => hs k t (Nat.lt_succ_of_lt hk)).andThen fun _ t hb ht => ?_
    exact hs n t (Nat.lt_succ_self n) hb ht

end

end Sys2Proof.Machine
end

