-- ==== Sys2Proof/Laws/Ops.lean ====
section
/-! SUPPORT. What each shared operation of Machine/Ops.lean can do. -/

namespace Sys2Proof.Machine

/-- What the host acts of R38 and R39 leave of a state: they set or clear OVR, take their place off the
list, answer reads, and may use up free values. -/
structure Pass (s t : State) : Prop where
  params : t.params = s.params
  status : Status.SameButOvr s.status t.status
  regs : t.regs = s.regs
  pin : t.pin = s.pin
  engine : t.engine = s.engine
  rst : t.rstIn = s.rstIn
  samples : t.env.samples = s.env.samples
  rises : t.env.rises = s.env.rises
  elapses : t.env.elapses = s.env.elapses
  tickIn : t.env.tickIn = s.env.tickIn
  queue : t.host.queue = s.host.queue
  trace : t.trace = s.trace

theorem Status.SameButOvr.refl (a : Status) : a.SameButOvr a := rfl

theorem Status.SameButOvr.trans {a b c : Status} (h : a.SameButOvr b) (k : b.SameButOvr c) :
    a.SameButOvr c := by
  unfold SameButOvr at *
  rw [k, h]

theorem Pass.refl (s : State) : Pass s s :=
  ⟨rfl, .refl _, rfl, rfl, rfl, rfl, rfl, rfl, rfl, rfl, rfl, rfl⟩

theorem Pass.trans {s t u : State} (h : Pass s t) (k : Pass t u) : Pass s u where
  params := k.params.trans h.params
  status := h.status.trans k.status
  regs := k.regs.trans h.regs
  pin := k.pin.trans h.pin
  engine := k.engine.trans h.engine
  rst := k.rst.trans h.rst
  samples := k.samples.trans h.samples
  rises := k.rises.trans h.rises
  elapses := k.elapses.trans h.elapses
  tickIn := k.tickIn.trans h.tickIn
  queue := k.queue.trans h.queue
  trace := k.trace.trans h.trace

theorem setDuring_pass (s : State) (l : List BusyInput) : Pass s (s.setDuring l) :=
  ⟨rfl, .refl _, rfl, rfl, rfl, rfl, rfl, rfl, rfl, rfl, rfl, rfl⟩

theorem setSeq_pass (s : State) (q : Seq) : Pass s (s.setSeq q) :=
  ⟨rfl, .refl _, rfl, rfl, rfl, rfl, rfl, rfl, rfl, rfl, rfl, rfl⟩

theorem answer_pass (s : State) (r : BitVec 8) (v : Word) : Pass s (s.answer r v) :=
  ⟨rfl, .refl _, rfl, rfl, rfl, rfl, rfl, rfl, rfl, rfl, rfl, rfl⟩

theorem drawn_pass (s : State) : Pass s s.drawn :=
  ⟨rfl, .refl _, rfl, rfl, rfl, rfl, rfl, rfl, rfl, rfl, rfl, rfl⟩

theorem setOvr_pass (s : State) (o : Bool) : Pass s (s.onStatus fun t => { t with ovr := o }) :=
  ⟨rfl, rfl, rfl, rfl, rfl, rfl, rfl, rfl, rfl, rfl, rfl, rfl⟩

theorem writeStatus_pass (s : State) (v : Word) : Pass s (s.writeStatus v) := by
  unfold State.writeStatus
  split
  · exact setOvr_pass s false
  · exact .refl s

theorem busyRead_pass (s : State) (r : BitVec 8) : Pass s (s.busyRead r) := by
  unfold State.busyRead
  split
  · exact answer_pass ..
  · exact answer_pass ..
  · exact (answer_pass ..).trans (drawn_pass _)

theorem busyWrite_pass (s : State) (r : BitVec 8) (v : Word) : Pass s (s.busyWrite r v) := by
  unfold State.busyWrite
  split
  · exact writeStatus_pass ..
  · exact setOvr_pass ..

@[simp] theorem busyRead_seq (s : State) (r : BitVec 8) : (s.busyRead r).seq = s.seq := by
  unfold State.busyRead
  split <;> simp

@[simp] theorem busyWrite_seq (s : State) (r : BitVec 8) (v : Word) : (s.busyWrite r v).seq = s.seq := by
  unfold State.busyWrite State.writeStatus
  split <;> (try split) <;> simp

theorem Pass.emitted {s t : State} (h : Pass s t) : s.Emitted t [] := by
  simp [State.Emitted, h.trace]

/-- What landing can do: the acts due are done and the rest is a part of the list, or there was an
`rst` among them (R38, R39, R230). -/
theorem land_spec (l : List BusyInput) (s : State) :
    match land l s with
    | .ok _ t => Pass s t ∧ t.seq = s.seq ∧ (l = [] → t = s.setDuring []) ∧
        ∀ b ∈ t.host.during, ∃ b' ∈ l, b.act = b'.act
    | .error .finished _ => False
    | .error .abandoned t => (∃ b ∈ l, b.act.isRst = true) ∧ ∃ u, Pass s u ∧ t = u.applyReset := by
  induction l generalizing s with
  | nil => exact ⟨setDuring_pass .., rfl, fun _ => rfl, by simp⟩
  | cons b rest ih =>
    obtain ⟨gap, a⟩ := b
    cases gap with
    | succ n =>
      refine ⟨setDuring_pass .., rfl, by simp, ?_⟩
      intro b hb
      rcases List.mem_cons.1 hb with rfl | hb
      · exact ⟨_, List.mem_cons_self .., rfl⟩
      · exact ⟨b, List.mem_cons_of_mem _ hb, rfl⟩
    | zero =>
      cases a with
      | rst => exact ⟨⟨_, List.mem_cons_self .., rfl⟩, _, setDuring_pass s rest, rfl⟩
      | read r =>
        have h := ih (s.busyRead r)
        simp only [land]
        split at h
        · obtain ⟨h1, h2, -, h3⟩ := h
          refine ⟨(busyRead_pass s r).trans h1, h2.trans (busyRead_seq s r), by simp, fun b hb => ?_⟩
          obtain ⟨b', hb', e⟩ := h3 b hb
          exact ⟨b', List.mem_cons_of_mem _ hb', e⟩
        · exact h
        · obtain ⟨⟨b, hb, hr⟩, u, hu, rfl⟩ := h
          exact ⟨⟨b, List.mem_cons_of_mem _ hb, hr⟩, u, (busyRead_pass s r).trans hu, rfl⟩
      | write r v =>
        have h := ih (s.busyWrite r v)
        simp only [land]
        split at h
        · obtain ⟨h1, h2, -, h3⟩ := h
          refine ⟨(busyWrite_pass s r v).trans h1, h2.trans (busyWrite_seq s r v), by simp,
            fun b hb => ?_⟩
          obtain ⟨b', hb', e⟩ := h3 b hb
          exact ⟨b', List.mem_cons_of_mem _ hb', e⟩
        · exact h
        · obtain ⟨⟨b, hb, hr⟩, u, hu, rfl⟩ := h
          exact ⟨⟨b, List.mem_cons_of_mem _ hb, hr⟩, u, (busyWrite_pass s r v).trans hu, rfl⟩

/-- A statement later: what the host acts that landed left, and SEQ one further (R35). Without host acts
that is all. -/
structure Later (s t : State) : Prop extends Pass s t where
  base : Base s t
  idle : t.seq = .idle ↔ s.seq = .idle
  exact : s.Quiet → t = s.setSeq s.seq.next

theorem Later.refl_of_idle {s : State} (h : s.seq = .idle) : Later s s := by
  refine ⟨.refl s, .refl s, Iff.rfl, fun _ => ?_⟩
  simp only [State.setSeq, h, Seq.next]
  rw [← h]

theorem base_of_parts {s t : State} (hp : t.params = s.params) (hr : t.rstIn = s.rstIn)
    (hh : t.host = s.host) (hm : t.pin.mode = s.pin.mode) (ht : t.trace = s.trace) : Base s t where
  params := hp
  rst := hr
  queue := by rw [hh]
  noReset := by simp only [State.NoReset, hh, imp_self]
  quiet := by simp only [State.Quiet, hh, imp_self]
  grows := ⟨[], by simp [State.Emitted, ht]⟩
  modeIsLast := by rw [hm, ht]; exact id

theorem Pass.base_of_during {s t : State} (h : Pass s t)
    (hd : ∀ b ∈ t.host.during, ∃ b' ∈ s.host.during, b.act = b'.act) : Base s t where
  params := h.params
  rst := h.rst
  queue := h.queue
  noReset hs b hb := by
    obtain ⟨b', hb', e⟩ := hd b hb
    rw [e]
    exact hs b' hb'
  quiet hs := by
    rw [State.Quiet] at *
    refine List.eq_nil_iff_forall_not_mem.2 fun b hb => ?_
    obtain ⟨b', hb', -⟩ := hd b hb
    simp [hs] at hb'
  grows := ⟨[], h.emitted⟩
  modeIsLast := by rw [h.pin, h.trace]; exact id

theorem NoReset.of_quiet {s : State} (h : s.Quiet) : s.NoReset := by
  simp [State.NoReset, h]

theorem Pass.base_of_reset {s t : State} (h : Pass s t) (hn : ¬ s.NoReset) : Base s t where
  params := h.params
  rst := h.rst
  queue := h.queue
  noReset hs := absurd hs hn
  quiet hs := absurd (NoReset.of_quiet hs) hn
  grows := ⟨[], h.emitted⟩
  modeIsLast := by rw [h.pin, h.trace]; exact id

/-- A statement that comes to its place (R35): the host acts due have landed. -/
theorem advance_spec (s : State) {F : State → Prop} : Spec advance s (fun _ t => Later s t) F := by
  unfold Spec advance
  cases hq : s.seq with
  | idle => exact ⟨.refl s, .refl_of_idle hq⟩
  | busy w k =>
    have h := land_spec s.host.during s
    simp only
    cases hl : land s.host.during s with
    | ok a t =>
      rw [hl] at h
      obtain ⟨h1, h2, h3, h4⟩ := h
      have hp : Pass s (t.setSeq t.seq.next) := h1.trans (setSeq_pass ..)
      refine ⟨hp.base_of_during h4, ⟨hp, hp.base_of_during h4, ?_, fun hs => ?_⟩⟩
      · simp [h2, hq, Seq.next]
      · have e : t = s := by
          rw [h3 hs]
          simp only [State.setDuring, State.onHost]
          rw [← hs]
        rw [e]
    | error e t =>
      rw [hl] at h
      cases e with
      | finished => exact h.elim
      | abandoned =>
        obtain ⟨⟨b, hb, hr⟩, u, hu, rfl⟩ := h
        have hn : ¬ s.NoReset := fun hs => by simp [hs b hb] at hr
        exact ⟨hn, u, hu.base_of_reset hn, rfl⟩

section
variable {s : State} {F : State → Prop}

/-- A statement that writes state: what landed, then the write. -/
theorem write_spec {f : State → State} {Q : Unit → State → Prop}
    (hb : ∀ t, Later s t → Base t (f t)) (h : ∀ t, Later s t → Q () (f t)) : Spec (write f) s Q F :=
  (advance_spec s).andThen fun _ t _ ht => .act (hb t ht) (h t ht)

/-- `finish` (R36): SEQ is IDLE and BUSY is 0, and the command goes no further. -/
theorem finish_spec {α : Type} {Q : α → State → Prop}
    (h : ∀ t, Later s t → F t.endCommand) : Spec (finish : Cmd α) s Q F := by
  refine (write_spec (Q := fun _ t => F t) (F := fun _ => False) (fun t _ => ?_) h).andThen
    fun _ t _ ht => ⟨Base.refl t, ht⟩
  exact base_of_parts rfl rfl rfl rfl rfl

/-- `fail(code)` (R201): FAULT is the code, and the command is finished. -/
theorem fail_spec {α : Type} {Q : α → State → Prop} {code : FaultCode}
    (h : ∀ t u, Later s t → Later (t.setFault code) u → F u.endCommand) :
    Spec (fail code : Cmd α) s Q F := by
  refine (write_spec (f := fun s => s.setFault code) (Q := fun _ t => ∃ t0, Later s t0 ∧ t = t0.setFault code) (F := fun _ => False)
    (fun t _ => base_of_parts rfl rfl rfl rfl rfl) fun t ht => ⟨t, ht, rfl⟩).andThen fun _ t _ ht => ?_
  obtain ⟨t0, h0, rfl⟩ := ht
  exact finish_spec fun u hu => h t0 u h0 hu

end

/-- Work on the line between two states of a command: the registers, the mode and all flags but OVR
stay, and the line events `ev` are emitted; scripted samples are the levels they show. -/
structure Work (s t : State) (ev : List LineEvent) : Prop extends Base s t where
  regs : t.regs = s.regs
  status : Status.SameButOvr s.status t.status
  quietStatus : s.Quiet → t.status = s.status
  quietReads : s.Quiet → t.host = s.host
  mode : t.pin.mode = s.pin.mode
  idle : t.seq = .idle ↔ s.seq = .idle
  tx : t.engine.tx = s.engine.tx
  elapses : t.env.elapses = s.env.elapses
  tickIn : t.env.tickIn = s.env.tickIn
  emitted : s.Emitted t ev
  script : ∀ l rest, s.env.samples = l ++ rest → l.length = (levelsOf ev).length →
    levelsOf ev = l ∧ t.env.samples = rest
  scriptRises : ∀ l rest, s.env.rises = l ++ rest → l.length = (risesOf ev).length →
    risesOf ev = l ∧ t.env.rises = rest

section
variable (d : Delay) (v : Bool) (n : Nat) (r : Rise) (m : LineMode)

@[simp] theorem levelOf_driveLow : levelOf .driveLow = none := rfl
@[simp] theorem levelOf_release : levelOf .release = none := rfl
@[simp] theorem levelOf_delay : levelOf (.delay d) = none := rfl
@[simp] theorem levelOf_sample : levelOf (.sample v) = some v := rfl
@[simp] theorem levelOf_awaitHigh : levelOf (.awaitHigh n r) = none := rfl
@[simp] theorem levelOf_setMode : levelOf (.setMode m) = none := rfl
@[simp] theorem riseOf_driveLow : riseOf .driveLow = none := rfl
@[simp] theorem riseOf_release : riseOf .release = none := rfl
@[simp] theorem riseOf_delay : riseOf (.delay d) = none := rfl
@[simp] theorem riseOf_sample : riseOf (.sample v) = none := rfl
@[simp] theorem riseOf_awaitHigh : riseOf (.awaitHigh n r) = some r := rfl
@[simp] theorem riseOf_setMode : riseOf (.setMode m) = none := rfl
@[simp] theorem slotOf_driveLow : slotOf .driveLow = none := rfl
@[simp] theorem slotOf_release : slotOf .release = none := rfl
@[simp] theorem slotOf_sample : slotOf (.sample v) = none := rfl
@[simp] theorem slotOf_awaitHigh : slotOf (.awaitHigh n r) = none := rfl
@[simp] theorem slotOf_setMode : slotOf (.setMode m) = none := rfl

end

theorem risesOf_append (a b : List LineEvent) : risesOf (a ++ b) = risesOf a ++ risesOf b := by
  simp [risesOf]

theorem levelsOf_append (a b : List LineEvent) : levelsOf (a ++ b) = levelsOf a ++ levelsOf b := by
  simp [levelsOf]

theorem slotsOf_append (a b : List LineEvent) : slotsOf (a ++ b) = slotsOf a ++ slotsOf b := by
  simp [slotsOf]

theorem Work.refl (s : State) : Work s s [] :=
  ⟨.refl s, rfl, .refl _, fun _ => rfl, fun _ => rfl, rfl, Iff.rfl, rfl, rfl, rfl, rfl,
    fun l rest h hl => by simp_all [levelsOf], fun l rest h hl => by simp_all [risesOf]⟩

theorem Work.trans {s t u : State} {a b : List LineEvent} (h : Work s t a) (k : Work t u b) :
    Work s u (a ++ b) where
  toBase := h.toBase.trans k.toBase
  regs := k.regs.trans h.regs
  status := h.status.trans k.status
  quietStatus hq := (k.quietStatus (h.quiet hq)).trans (h.quietStatus hq)
  quietReads hq := (k.quietReads (h.quiet hq)).trans (h.quietReads hq)
  mode := k.mode.trans h.mode
  idle := k.idle.trans h.idle
  tx := k.tx.trans h.tx
  elapses := k.elapses.trans h.elapses
  tickIn := k.tickIn.trans h.tickIn
  emitted := State.Emitted.trans h.emitted k.emitted
  script l rest hs hl := by
    rw [levelsOf_append, List.length_append] at hl
    have e1 := h.script (l.take (levelsOf a).length) (l.drop (levelsOf a).length ++ rest)
      (by rw [← List.append_assoc, List.take_append_drop, hs]) (by simp; omega)
    have e2 := k.script (l.drop (levelsOf a).length) rest e1.2 (by simp; omega)
    refine ⟨?_, e2.2⟩
    rw [levelsOf_append, e1.1, e2.1, List.take_append_drop]
  scriptRises l rest hs hl := by
    rw [risesOf_append, List.length_append] at hl
    have e1 := h.scriptRises (l.take (risesOf a).length) (l.drop (risesOf a).length ++ rest)
      (by rw [← List.append_assoc, List.take_append_drop, hs]) (by simp; omega)
    have e2 := k.scriptRises (l.drop (risesOf a).length) rest e1.2 (by simp; omega)
    refine ⟨?_, e2.2⟩
    rw [risesOf_append, e1.1, e2.1, List.take_append_drop]

theorem Later.work {s t : State} (h : Later s t) : Work s t [] where
  toBase := h.base
  regs := h.regs
  status := h.status
  quietStatus hq := by rw [h.exact hq]; rfl
  quietReads hq := by rw [h.exact hq]; rfl
  mode := by rw [h.pin]
  idle := h.idle
  tx := by rw [h.engine]
  elapses := h.elapses
  tickIn := h.tickIn
  emitted := h.toPass.emitted
  script l rest hs hl := by
    simp only [levelsOf, List.filterMap_nil, List.length_nil, List.length_eq_zero_iff] at hl ⊢
    subst hl
    exact ⟨rfl, by rw [h.samples, hs]; rfl⟩
  scriptRises l rest hs hl := by
    simp only [risesOf, List.filterMap_nil, List.length_nil, List.length_eq_zero_iff] at hl ⊢
    subst hl
    exact ⟨rfl, by rw [h.rises, hs]; rfl⟩

section
variable {s : State} {F : State → Prop}

/-- Entering a micro-state changes nothing else. -/
theorem enter_spec (m : MicroState) :
    Spec (enter m) s (fun _ t => Work s t [] ∧ t.pin = s.pin ∧ t.engine.micro = m ∧
      t.engine.shift = s.engine.shift) F :=
  .act (base_of_parts rfl rfl rfl rfl rfl) ⟨⟨base_of_parts rfl rfl rfl rfl rfl, rfl, .refl _, fun _ => rfl, fun _ => rfl, rfl, Iff.rfl,
    rfl, rfl, rfl, rfl, fun l rest h hl => by simp_all [levelsOf],
    fun l rest h hl => by simp_all [risesOf]⟩, rfl, rfl, rfl⟩

theorem base_of_emit {t u : State} {e : LineEvent} (hm : u.pin.mode = t.pin.mode)
    (he : ∀ m, e ≠ .setMode m) (hp : u.params = t.params) (hr : u.rstIn = t.rstIn)
    (hh : u.host = t.host) (ht : u.trace = e :: t.trace) : Base t u where
  params := hp
  rst := hr
  queue := by rw [hh]
  noReset := by simp only [State.NoReset, hh, imp_self]
  quiet := by simp only [State.Quiet, hh, imp_self]
  grows := ⟨[e], by simp [State.Emitted, ht]⟩
  modeIsLast := by
    rw [hm, ht]
    cases e <;> simp_all [lastMode]

/-- A line event whose only other effect is on `pin_drive` and the free values taken. -/
theorem Work.emit {t u : State} {e : LineEvent} {p : Pin} {d : Nat} (hl : levelOf e = none)
    (hr : riseOf e = none) (he : ∀ m, e ≠ .setMode m) (hm : p.mode = t.pin.mode)
    (hu : u = { t with pin := p, env := { t.env with draws := d }, trace := e :: t.trace }) :
    Work t u [e] := by
  subst hu
  refine ⟨base_of_emit hm he rfl rfl rfl rfl, rfl, .refl _, fun _ => rfl, fun _ => rfl, hm, Iff.rfl, rfl, rfl, rfl, rfl, ?_, ?_⟩
  · intro l rest h hl'
    simp_all [levelsOf]
  · intro l rest h hl'
    simp_all [risesOf]

/-- `Delay(t)` emits its event and changes nothing else (R101). -/
theorem delay_spec (d : Delay) :
    Spec (delay d) s (fun _ t => Work s t [.delay d] ∧ t.pin = s.pin ∧ t.engine = s.engine) F :=
  write_spec (fun _ _ => base_of_emit rfl (by simp) rfl rfl rfl rfl) fun t ht =>
    ⟨ht.work.trans (Work.emit rfl rfl (by simp) rfl rfl), ht.pin, ht.engine⟩

/-- What `DriveLow` and `Release` do to the state apart from the event (R100, log 7). -/
theorem setDrive_eq (t : State) (l : Bool) : ∃ p d, p.mode = t.pin.mode ∧
    (t.pin.mode = .openDrain → p.drive = l) ∧
    t.setDrive l = { t with pin := p, env := { t.env with draws := d } } := by
  unfold State.setDrive
  split
  · exact ⟨{ t.pin with drive := l }, t.env.draws, rfl, fun _ => rfl, rfl⟩
  · exact ⟨{ t.pin with drive := Config.freeDrive t.env.draws }, t.env.draws + 1, rfl,
      fun h => absurd h ‹_›, rfl⟩

theorem drive_spec (l : Bool) (e : LineEvent) (he : ∀ m, e ≠ .setMode m) (hl : levelOf e = none)
    (hr : riseOf e = none) :
    Spec (write fun s => (s.setDrive l).emit e) s (fun _ t => Work s t [e] ∧ t.engine = s.engine ∧
      (t.pin.mode = .openDrain → t.pin.drive = l)) F := by
  refine write_spec (fun t _ => ?_) fun t ht => ?_ <;> obtain ⟨p, d, hm, hd, h⟩ := setDrive_eq t l <;>
    rw [h]
  · exact base_of_emit hm he rfl rfl rfl rfl
  · exact ⟨ht.work.trans (Work.emit hl hr he hm rfl), ht.engine, fun hp => hd (hm ▸ hp)⟩

/-- `DriveLow()` (R100). -/
theorem driveLow_spec : Spec driveLow s (fun _ t => Work s t [.driveLow] ∧ t.engine = s.engine ∧
    (t.pin.mode = .openDrain → t.pin.drive = false)) F :=
  drive_spec false .driveLow (by simp) rfl rfl

/-- `Release()` (R100). -/
theorem release_spec : Spec release s (fun _ t => Work s t [.release] ∧ t.engine = s.engine ∧
    (t.pin.mode = .openDrain → t.pin.drive = true)) F :=
  drive_spec true .release (by simp) rfl rfl

/-- `Sample()` (R102): the level it answers is the one its event shows. -/
theorem sample_spec : Spec sample s (fun v t => Work s t [.sample v] ∧ t.engine = s.engine ∧
    t.pin = s.pin) F := by
  refine (advance_spec s).andThen fun _ t _ ht => (Spec.ask (Q := fun v u => u = t ∧ v = t.nextSample)
    (F := fun _ => False) ⟨rfl, rfl⟩).andThen fun v u _ hu => ?_
  obtain ⟨rfl, rfl⟩ := hu
  refine (Spec.act (Q := fun _ w => w = u.dropSample.emit (.sample u.nextSample)) (F := fun _ => False)
    ?_ rfl).andThen fun _ w _ hw => .pure ?_
  · unfold State.dropSample
    split <;> exact base_of_emit rfl (by simp) rfl rfl rfl rfl
  · subst hw
    refine ⟨ht.work.trans ?_, ?_, ?_⟩
    · have hs : u.env.samples = [] ∨ ∃ v l, u.env.samples = v :: l := by
        cases u.env.samples <;> simp
      unfold State.dropSample State.nextSample
      obtain hs | ⟨v, l, hs⟩ := hs <;> simp only [hs]
      · refine ⟨base_of_emit rfl (by simp) rfl rfl rfl rfl, rfl, .refl _, fun _ => rfl, fun _ => rfl, rfl, Iff.rfl, rfl, rfl, rfl, rfl, ?_, ?_⟩
        · intro l rest h hl
          simp_all [levelsOf]
        · intro l rest h hl
          simp_all [risesOf, List.filterMap_cons]
      · refine ⟨base_of_emit rfl (by simp) rfl rfl rfl rfl, rfl, .refl _, fun _ => rfl, fun _ => rfl, rfl, Iff.rfl, rfl, rfl, rfl, rfl, ?_, ?_⟩
        · intro l' rest h hl
          cases l' <;> simp_all [levelsOf]
        · intro l rest h hl
          simp_all [risesOf, List.filterMap_cons]
    · unfold State.dropSample
      split <;> exact ht.engine
    · unfold State.dropSample
      split <;> exact ht.pin

/-- `AwaitHigh` (R103): the result it answers is the one its event shows. -/
theorem awaitHigh_spec : Spec awaitHigh s (fun r t => Work s t [.awaitHigh 100 r] ∧
    t.engine = s.engine ∧ t.pin = s.pin) F := by
  refine (advance_spec s).andThen fun _ t _ ht => (Spec.ask (Q := fun v u => u = t ∧ v = t.nextRise)
    (F := fun _ => False) ⟨rfl, rfl⟩).andThen fun v u _ hu => ?_
  obtain ⟨rfl, rfl⟩ := hu
  refine (Spec.act (Q := fun _ w => w = u.dropRise.emit (.awaitHigh 100 u.nextRise))
    (F := fun _ => False) ?_ rfl).andThen fun _ w _ hw => .pure ?_
  · unfold State.dropRise
    split <;> exact base_of_emit rfl (by simp) rfl rfl rfl rfl
  · subst hw
    refine ⟨ht.work.trans ?_, ?_, ?_⟩
    · have hs : u.env.rises = [] ∨ ∃ v l, u.env.rises = v :: l := by
        cases u.env.rises <;> simp
      unfold State.dropRise State.nextRise
      obtain hs | ⟨v, l, hs⟩ := hs <;> simp only [hs]
      · refine ⟨base_of_emit rfl (by simp) rfl rfl rfl rfl, rfl, .refl _, fun _ => rfl, fun _ => rfl, rfl, Iff.rfl, rfl, rfl, rfl, rfl, ?_, ?_⟩
        · intro l rest h hl
          simp_all [levelsOf, List.filterMap_cons]
        · intro l rest h hl
          simp_all [risesOf]
      · refine ⟨base_of_emit rfl (by simp) rfl rfl rfl rfl, rfl, .refl _, fun _ => rfl, fun _ => rfl, rfl, Iff.rfl, rfl, rfl, rfl, rfl, ?_, ?_⟩
        · intro l rest h hl
          simp_all [levelsOf, List.filterMap_cons]
        · intro l' rest h hl
          cases l' <;> simp_all [risesOf]
    · unfold State.dropRise
      split <;> exact ht.engine
    · unfold State.dropRise
      split <;> exact ht.pin

/-- `Tick()` (R24): only the tick source's part changes, and the answer is the tick input. -/
theorem tick_spec : Spec tick s (fun v t => ∃ u, Later s u ∧ t = u.advanceTick ∧ v = t.env.tickIn) F := by
  refine (advance_spec s).andThen fun _ u _ hu => (Spec.act (Q := fun _ t => t = u.advanceTick)
    (F := fun _ => False) ?_ rfl).andThen fun _ t _ ht => .ask ⟨u, hu, ht, rfl⟩
  unfold State.advanceTick
  simp only
  split <;> exact base_of_parts rfl rfl rfl rfl rfl

/-- `SetMode(m)` (R104). -/
theorem setMode_spec (m : LineMode) :
    Spec (setMode m) s (fun _ t => ∃ u, Later s u ∧ t = u.changeMode m) F := by
  refine write_spec (fun t _ => ⟨rfl, rfl, rfl, id, id, ⟨[.setMode m], rfl⟩, fun _ => rfl⟩)
    fun t ht => ⟨t, ht, rfl⟩

/-- A range condition on CTX (R86): in range the command runs, else the word is illegal. -/
theorem withCtx_spec {c : Cmd Unit} {k : BitVec 4} {Q : Unit → State → Prop}
    (hc : k.toNat < s.params.numCtx → Spec c s Q F)
    (hi : s.params.numCtx ≤ k.toNat → Spec (fail .illegal) s Q F) : Spec (withCtx k c) s Q F := by
  unfold Spec withCtx
  by_cases h : k.toNat < s.params.numCtx
  · rw [if_pos h]
    exact hc h
  · rw [if_neg h]
    exact hi (Nat.le_of_not_lt h)

/-- A range condition on LEN (R86). -/
theorem withLen_spec {c : Cmd Unit} {len : BitVec 5} {Q : Unit → State → Prop}
    (hc : len.toNat ≤ 16 → Spec c s Q F) (hi : 16 < len.toNat → Spec (fail .illegal) s Q F) :
    Spec (withLen len c) s Q F := by
  unfold withLen
  split
  · exact hc ‹_›
  · exact hi (by omega)

end

end Sys2Proof.Machine
end

