-- ==== Sys2Proof/Laws/Transport.lean ====
section
/-! SUPPORT. What the transport subroutines can do (41_transport.md R106-R109): the slots they put on
the line, the levels they read, and that they change nothing else. -/

namespace Sys2Proof.Machine

section
variable {s : State} {F : State → Prop}

theorem Work.cast {s t : State} {a b : List LineEvent} (h : Work s t a) (e : a = b) : Work s t b := e ▸ h

theorem writeOne_spec (r : Rise) :
    Spec writeOne s (fun _ t => Work s t (writeEvents true r) ∧ t.Closed) F := by
  refine (enter_spec .w1Low).andThen fun _ t1 _ h1 => driveLow_spec.andThen fun _ t2 _ h2 => ?_
  refine (delay_spec .tW1L).andThen fun _ t3 _ h3 => (enter_spec .w1High).andThen fun _ t4 _ h4 => ?_
  refine release_spec.andThen fun _ t5 _ h5 => (delay_spec .tW1H).andThen fun _ t6 _ h6 => ?_
  refine (enter_spec .idle).mono (fun _ t7 _ h7 => ⟨?_, h7.2.2.1, fun hm => ?_⟩) fun _ _ h => h
  · exact (((((h1.1.trans h2.1).trans h3.1).trans h4.1).trans h5.1).trans h6.1).trans h7.1
  · rw [h7.2.1, h6.2.1] at hm ⊢
    exact h5.2.2 hm

/-- The end of a write-0 slot: what comes after the wait for the rise (R106). -/
theorem endWrite0_spec (r : Rise) (hd : s.pin.mode = .openDrain → s.pin.drive = true) :
    Spec (endWrite0 r) s (fun _ t => Work s t (if r = .rose then [.delay .tW0H] else []) ∧ t.Closed) F := by
  cases r with
  | timeout =>
    refine (enter_spec .idle).mono (fun _ t _ h => ⟨h.1, h.2.2.1, fun hm => ?_⟩) fun _ _ h => h
    rw [h.2.1] at hm ⊢
    exact hd hm
  | rose =>
    refine (enter_spec .w0High).andThen fun _ t1 _ h1 => (delay_spec .tW0H).andThen fun _ t2 _ h2 => ?_
    refine (enter_spec .idle).mono (fun _ t3 _ h3 => ⟨(h1.1.trans h2.1).trans h3.1, h3.2.2.1,
      fun hm => ?_⟩) fun _ _ h => h
    rw [h3.2.1, h2.2.1, h1.2.1] at hm ⊢
    exact hd hm

theorem writeZero_spec :
    Spec writeZero s (fun _ t => (∃ r, Work s t (writeEvents false r)) ∧ t.Closed) F := by
  refine (enter_spec .w0Low).andThen fun _ t1 _ h1 => driveLow_spec.andThen fun _ t2 _ h2 => ?_
  refine (delay_spec .tW0L).andThen fun _ t3 _ h3 => (enter_spec .w0Rise).andThen fun _ t4 _ h4 => ?_
  refine release_spec.andThen fun _ t5 _ h5 => awaitHigh_spec.andThen fun r t6 _ h6 => ?_
  refine (endWrite0_spec r (by rw [h6.2.2]; exact h5.2.2)).mono (fun _ t7 _ h7 => ⟨⟨r, ?_⟩, h7.2⟩)
    fun _ _ h => h
  have hw := (((((h1.1.trans h2.1).trans h3.1).trans h4.1).trans h5.1).trans h6.1).trans h7.1
  cases r <;> exact hw

/-- `WriteBit(v)` (R106): one write slot, and nothing else but what the host does meanwhile. -/
theorem writeBit_spec (v : Bool) :
    Spec (writeBit v) s (fun _ t => (∃ r, Work s t (writeEvents v r)) ∧ t.Closed) F := by
  cases v with
  | false => exact writeZero_spec
  | true => exact (writeOne_spec .rose).mono (fun _ _ _ h => ⟨⟨_, h.1⟩, h.2⟩) fun _ _ h => h

/-- `ReadBit()` (R107): one read slot, whose sample is the answer. -/
theorem readBit_spec : Spec readBit s (fun v t => Work s t (readEvents v) ∧ t.Closed ∧
    t.engine.shift = s.engine.shift) F := by
  refine (enter_spec .rLow).andThen fun _ t1 _ h1 => driveLow_spec.andThen fun _ t2 _ h2 => ?_
  refine (delay_spec .tRL).andThen fun _ t3 _ h3 => (enter_spec .rWait).andThen fun _ t4 _ h4 => ?_
  refine release_spec.andThen fun _ t5 _ h5 => (delay_spec .tRS).andThen fun _ t6 _ h6 => ?_
  refine sample_spec.andThen fun v t7 _ h7 => (enter_spec .rTail).andThen fun _ t8 _ h8 => ?_
  refine (delay_spec .tRH).andThen fun _ t9 _ h9 => (enter_spec .idle).andThen fun _ t _ h => .pure ?_
  refine ⟨?_, ⟨h.2.2.1, fun hm => ?_⟩, ?_⟩
  · exact ((((((((h1.1.trans h2.1).trans h3.1).trans h4.1).trans h5.1).trans h6.1).trans h7.1).trans
      h8.1).trans h9.1).trans h.1
  · rw [h.2.1, h9.2.1, h8.2.1, h7.2.2, h6.2.1] at hm ⊢
    exact h5.2.2 hm
  · rw [h.2.2.2, h9.2.2, h8.2.2.2, h7.2.1, h6.2.2, h5.2.1, h4.2.2.2, h3.2.2, h2.2.1, h1.2.2.2]

/-- Line work that shows the slots `sl` and the levels `lv` and leaves the transceiver between two
slots if it began there. -/
def Slots (s t : State) (sl : List Slot) (lv : List Bool) : Prop :=
  (∃ ev, Work s t ev ∧ slotsOf ev = sl ∧ levelsOf ev = lv) ∧ (s.Closed → t.Closed)

theorem Slots.refl (s : State) : Slots s s [] [] := ⟨⟨[], .refl s, rfl, rfl⟩, id⟩

theorem Slots.trans {s t u : State} {a b : List Slot} {l m : List Bool} (h : Slots s t a l)
    (k : Slots t u b m) : Slots s u (a ++ b) (l ++ m) := by
  obtain ⟨⟨e, he, rfl, rfl⟩, hc⟩ := h
  obtain ⟨⟨f, hf, rfl, rfl⟩, kc⟩ := k
  exact ⟨⟨e ++ f, he.trans hf, slotsOf_append .., levelsOf_append ..⟩, kc ∘ hc⟩

theorem Later.slots {s t : State} (h : Later s t) : Slots s t [] [] :=
  ⟨⟨[], h.work, rfl, rfl⟩, fun hc => ⟨by rw [h.engine]; exact hc.microIdle,
    by rw [h.pin]; exact hc.released⟩⟩

theorem slotsOf_writeEvents (v : Bool) (r : Rise) : slotsOf (writeEvents v r) = [.write v] := by
  cases v <;> cases r <;> rfl

theorem levelsOf_writeEvents (v : Bool) (r : Rise) : levelsOf (writeEvents v r) = [] := by
  cases v <;> cases r <;> rfl

theorem writeBit_slots (v : Bool) : Spec (writeBit v) s (fun _ t => Slots s t [.write v] []) F :=
  (writeBit_spec v).mono (fun _ _ _ h => by
    obtain ⟨⟨r, hw⟩, hc⟩ := h
    exact ⟨⟨_, hw, slotsOf_writeEvents v r, levelsOf_writeEvents v r⟩, fun _ => hc⟩) fun _ _ h => h

theorem readBit_slots : Spec readBit s (fun v t => Slots s t [.read] [v] ∧
    t.engine.shift = s.engine.shift) F :=
  readBit_spec.mono (fun _ _ _ h => ⟨⟨⟨_, h.1, rfl, rfl⟩, fun _ => h.2.1⟩, h.2.2⟩) fun _ _ h => h

/-- An effect on the byte engine alone is no line work (R105). -/
theorem engine_slots {f : Engine → Engine} (hm : ∀ e, (f e).micro = e.micro) (ht : ∀ e, (f e).tx = e.tx) :
    Spec (act (·.onEngine f)) s (fun _ t => Slots s t [] [] ∧ t.engine = f s.engine) F := by
  refine .act (base_of_parts rfl rfl rfl rfl rfl) ⟨⟨⟨[], ⟨base_of_parts rfl rfl rfl rfl rfl, rfl, .refl _,
    fun _ => rfl, fun _ => rfl, rfl, Iff.rfl, ht _, rfl, rfl, rfl, ?_, ?_⟩, rfl, rfl⟩, fun h => ?_⟩, rfl⟩
  · intro l rest h hl
    simp_all [levelsOf]
  · intro l rest h hl
    simp_all [risesOf]
  · exact ⟨(hm _).trans h.microIdle, h.released⟩

theorem setShift_slots (b : Byte) : Spec (setShift b) s (fun _ t => Slots s t [] [] ∧
    t.engine = { s.engine with shift := b }) F :=
  engine_slots (f := fun e => { e with shift := b }) (fun _ => rfl) fun _ => rfl

theorem setBitcnt_slots (i : Nat) : Spec (setBitcnt i) s (fun _ t => Slots s t [] [] ∧
    t.engine = { s.engine with bitcnt := BitVec.ofNat 3 i }) F :=
  engine_slots (f := fun e => { e with bitcnt := BitVec.ofNat 3 i }) (fun _ => rfl) fun _ => rfl

theorem byteSlots_take (b : Byte) (k : Nat) (h : k < 8) :
    (byteSlots b).take (k + 1) = (byteSlots b).take k ++ [.write (b.getLsbD k)] := by
  rw [List.take_add_one]
  simp [byteSlots, byteBits, h]

/-- `WriteByte(b)` (R108): the eight write slots of `b`, bit 0 first. -/
theorem writeByte_spec (b : Byte) : Spec (writeByte b) s (fun _ t => Slots s t (byteSlots b) []) F := by
  refine Spec.mono (F := fun _ => False) ?_ (fun _ _ _ h => h) fun _ _ h => h.elim
  refine (setShift_slots _).andThen fun _ t1 _ h1 => ?_
  refine (Spec.upTo (I := fun k t => Slots t1 t ((byteSlots b).take k) []) 8 (by exact .refl t1) ?_).mono
    (fun _ t _ h => ?_) fun _ _ h => h
  · intro k t hk _ ht
    refine (setBitcnt_slots _).andThen fun _ t2 _ h2 => ?_
    refine (writeBit_slots _).mono (fun _ u _ hu => ?_) fun _ _ h => h
    rw [byteSlots_take b k hk]
    have h := (ht.trans h2.1).trans hu
    simpa using h
  · have hl : (byteSlots b).take 8 = byteSlots b := by
      rw [List.take_of_length_le]
      simp [byteSlots, byteBits]
    rw [hl] at h
    simpa using h1.1.trans h

theorem getLsbD_setBit (b : Byte) (i j : Nat) (v : Bool) (hi : i < 8) (hj : j < 8) :
    (setBit b i v).getLsbD j = if j = i then v else b.getLsbD j := by
  unfold setBit
  by_cases h : j = i
  · subst h
    cases v <;> simp [hi]
  · cases v <;> simp [h, hj] <;> omega

/-- `ReadByte()` (R109): eight read slots, and the answer is the byte whose bits they are, bit 0
first. -/
theorem readByte_spec :
    Spec readByte s (fun b t => Slots s t (List.replicate 8 .read) (byteBits b)) F := by
  refine Spec.mono (F := fun _ => False) ?_ (fun _ _ _ h => h) fun _ _ h => h.elim
  refine (setShift_slots _).andThen fun _ t1 _ h1 => ?_
  refine (Spec.upTo (I := fun k t => Slots t1 t (List.replicate k .read)
    ((byteBits t.engine.shift).take k)) 8 (by exact .refl t1) ?_).andThen fun _ t _ h => .ask ?_
  · intro k t hk _ ht
    refine (setBitcnt_slots _).andThen fun _ t2 _ h2 => ?_
    refine readBit_slots.andThen fun v t3 _ h3 => ?_
    refine (engine_slots (f := fun e => { e with shift := setBit e.shift k v }) (fun _ => rfl)
      fun _ => rfl).mono (fun _ u _ hu => ?_) fun _ _ h => h
    have h := ((ht.trans h2.1).trans h3.1).trans hu.1
    have hs : u.engine.shift = setBit t.engine.shift k v := by rw [hu.2, h3.2, h2.2]
    have e : (byteBits u.engine.shift).take (k + 1) = (byteBits t.engine.shift).take k ++ [v] := by
      rw [hs]
      apply List.ext_getElem
      · simp [byteBits]
        omega
      · intro j h1 h2
        simp only [byteBits, List.length_take, List.length_map, List.length_range] at h1
        have hj : j < 8 := by omega
        by_cases hjk : j < k
        · rw [List.getElem_append_left
            (by simp only [byteBits, List.length_map, List.length_range, List.length_take]; omega)]
          simp [byteBits, getLsbD_setBit _ _ _ _ hk hj]
          omega
        · have : j = k := by omega
          subst this
          rw [List.getElem_append_right
            (by simp only [byteBits, List.length_map, List.length_range, List.length_take]; omega)]
          simp [byteBits, getLsbD_setBit _ _ _ _ hk hj]
    rw [e, List.replicate_succ']
    simpa using h
  · have hl : (byteBits t.engine.shift).take 8 = byteBits t.engine.shift := by
      rw [List.take_of_length_le]
      simp [byteBits]
    rw [hl] at h
    simpa using h1.1.trans h

end

end Sys2Proof.Machine
end

