-- ==== Sys2Proof/Laws/Command.lean ====
section
/-! SUPPORT. How far a command has come: `Did` says what it has done to the block since it began, and each
rule says what one more piece of pseudocode adds. -/

namespace Sys2Proof.Machine

/-- Since `s` the command has left the flags `st` (OVR apart), the registers `r` and the mode `m`, emitted
`ev`, and the tick input and the counts still to pass are `k`. Scripted answers have come in their order. -/
structure Did (s t : State) (st : Status) (r : Regs) (m : LineMode) (ev : List LineEvent)
    (k : Word × List Nat) : Prop extends Base s t where
  status : st.SameButOvr t.status
  ovr : s.Quiet → t.status.ovr = s.status.ovr
  regs : t.regs = r
  mode : t.pin.mode = m
  idle : t.seq = .idle ↔ s.seq = .idle
  closed : s.Closed → t.Closed
  tickIn : t.env.tickIn = k.1
  elapses : t.env.elapses = k.2
  emitted : s.Emitted t ev
  script : ∀ l rest, s.env.samples = l ++ rest → l.length = (levelsOf ev).length →
    levelsOf ev = l ∧ t.env.samples = rest
  scriptRises : ∀ l rest, s.env.rises = l ++ rest → l.length = (risesOf ev).length →
    risesOf ev = l ∧ t.env.rises = rest

/-- A command that has not begun has done nothing. -/
theorem Did.start (s : State) :
    Did s s s.status s.regs s.pin.mode [] (s.env.tickIn, s.env.elapses) where
  toBase := .refl s
  status := rfl
  ovr _ := rfl
  regs := rfl
  mode := rfl
  idle := Iff.rfl
  closed := id
  tickIn := rfl
  elapses := rfl
  emitted := rfl
  script := (Work.refl s).script
  scriptRises := (Work.refl s).scriptRises

section
variable {s t u : State} {st : Status} {r : Regs} {m : LineMode} {ev : List LineEvent}
variable {k : Word × List Nat} {F : State → Prop}

/-- Line work adds its events. -/
theorem Did.work {ev' : List LineEvent} (h : Did s t st r m ev k) (w : Work t u ev')
    (hc : t.Closed → u.Closed) : Did s u st r m (ev ++ ev') k where
  toBase := h.toBase.trans w.toBase
  status := h.status.trans w.status
  ovr hq := by rw [w.quietStatus (h.quiet hq), h.ovr hq]
  regs := w.regs.trans h.regs
  mode := w.mode.trans h.mode
  idle := w.idle.trans h.idle
  closed := hc ∘ h.closed
  tickIn := w.tickIn.trans h.tickIn
  elapses := w.elapses.trans h.elapses
  emitted := State.Emitted.trans h.emitted w.emitted
  script l rest hs hl := by
    rw [levelsOf_append, List.length_append] at hl
    have e1 := h.script (l.take (levelsOf ev).length) (l.drop (levelsOf ev).length ++ rest)
      (by rw [← List.append_assoc, List.take_append_drop, hs])
      (by rw [List.length_take]; omega)
    have e2 := w.script (l.drop (levelsOf ev).length) rest e1.2 (by rw [List.length_drop]; omega)
    refine ⟨?_, e2.2⟩
    rw [levelsOf_append, e1.1, e2.1, List.take_append_drop]
  scriptRises l rest hs hl := by
    rw [risesOf_append, List.length_append] at hl
    have e1 := h.scriptRises (l.take (risesOf ev).length) (l.drop (risesOf ev).length ++ rest)
      (by rw [← List.append_assoc, List.take_append_drop, hs])
      (by rw [List.length_take]; omega)
    have e2 := w.scriptRises (l.drop (risesOf ev).length) rest e1.2 (by rw [List.length_drop]; omega)
    refine ⟨?_, e2.2⟩
    rw [risesOf_append, e1.1, e2.1, List.take_append_drop]

theorem Later.closed (h : Later t u) (hc : t.Closed) : u.Closed :=
  ⟨by rw [h.engine]; exact hc.microIdle, by rw [h.pin]; exact hc.released⟩

/-- A statement that comes to its place adds nothing. -/
theorem Did.later (h : Did s t st r m ev k) (w : Later t u) : Did s u st r m ev k := by
  simpa using h.work w.work w.closed

/-- An update of the flags that neither looks at OVR nor writes it. -/
theorem Did.onStatus {f : Status → Status} (h : Did s t st r m ev k)
    (hf : ∀ a o, f { a with ovr := o } = { f a with ovr := o }) :
    Did s (t.onStatus f) (f st) r m ev k where
  toBase := h.toBase.trans (base_of_parts rfl rfl rfl rfl rfl)
  status := by
    have e : (t.onStatus f).status = { f st with ovr := t.status.ovr } := by
      show f t.status = _
      rw [← hf, ← h.status]
    unfold Status.SameButOvr
    rw [e]
  ovr hq := by
    rw [← h.ovr hq]
    show (f t.status).ovr = _
    conv => lhs; rw [h.status, hf]
  regs := h.regs
  mode := h.mode
  idle := h.idle
  closed hc := ⟨(h.closed hc).microIdle, (h.closed hc).released⟩
  tickIn := h.tickIn
  elapses := h.elapses
  emitted := h.emitted
  script := h.script
  scriptRises := h.scriptRises

/-- An update of the registers. -/
theorem Did.onRegs (f : Regs → Regs) (h : Did s t st r m ev k) : Did s (t.onRegs f) st (f r) m ev k where
  toBase := h.toBase.trans (base_of_parts rfl rfl rfl rfl rfl)
  status := h.status
  ovr := h.ovr
  regs := congrArg f h.regs
  mode := h.mode
  idle := h.idle
  closed hc := ⟨(h.closed hc).microIdle, (h.closed hc).released⟩
  tickIn := h.tickIn
  elapses := h.elapses
  emitted := h.emitted
  script := h.script
  scriptRises := h.scriptRises

/-- A change of the mode. -/
theorem Did.changeMode (m' : LineMode) (h : Did s t st r m ev k) :
    Did s (t.changeMode m') st r m' (ev ++ [.setMode m']) k where
  toBase := h.toBase.trans ⟨rfl, rfl, rfl, id, id, ⟨[.setMode m'], rfl⟩, fun _ => rfl⟩
  status := h.status
  ovr := h.ovr
  regs := h.regs
  mode := rfl
  idle := h.idle
  closed hc := ⟨(h.closed hc).microIdle, fun e => by
    simp only [State.changeMode, State.putMode, State.emit, State.onPin] at e ⊢
    rw [if_pos e]⟩
  tickIn := h.tickIn
  elapses := h.elapses
  emitted := State.Emitted.trans h.emitted rfl
  script l rest hs hl := by
    rw [levelsOf_append, show levelsOf [.setMode m'] = [] from rfl, List.append_nil] at hl ⊢
    exact h.script l rest hs hl
  scriptRises l rest hs hl := by
    rw [risesOf_append, show risesOf [.setMode m'] = [] from rfl, List.append_nil] at hl ⊢
    exact h.scriptRises l rest hs hl

/-- A statement that updates the flags. -/
theorem Did.writeStatus {f : Status → Status} (h : Did s t st r m ev k)
    (hf : ∀ a o, f { a with ovr := o } = { f a with ovr := o }) :
    Spec (write (·.onStatus f)) t (fun _ u => Did s u (f st) r m ev k) F :=
  write_spec (fun _ _ => base_of_parts rfl rfl rfl rfl rfl) fun _ hl => (h.later hl).onStatus hf

/-- A statement that updates the registers. -/
theorem Did.writeRegs (f : Regs → Regs) (h : Did s t st r m ev k) :
    Spec (write (·.onRegs f)) t (fun _ u => Did s u st (f r) m ev k) F :=
  write_spec (fun _ _ => base_of_parts rfl rfl rfl rfl rfl) fun _ hl => (h.later hl).onRegs f

/-- `SetMode(m)` (R104). -/
theorem Did.setMode (m' : LineMode) (h : Did s t st r m ev k) :
    Spec (setMode m') t (fun _ u => Did s u st r m' (ev ++ [.setMode m']) k) F :=
  (setMode_spec m').mono (fun _ _ _ hu => by
    obtain ⟨v, hv, rfl⟩ := hu
    exact (h.later hv).changeMode m') fun _ _ hu => hu

/-- `Tick()` (R24): the counts that are scripted come in their order. -/
theorem Did.tick (h : Did s t st r m ev k) :
    Spec tick t (fun v u => ∃ k' : Word × List Nat, v = k'.1 ∧
      (∀ n rest, k.2 = n :: rest → k' = (k.1 + BitVec.ofNat 32 n, rest)) ∧
      Did s u st r m ev k') F := by
  refine tick_spec.mono (fun v u hb hu => ?_) fun _ _ hu => hu
  obtain ⟨w, hw, rfl, rfl⟩ := hu
  have d := h.later hw
  have ha : ∃ e, w.advanceTick = { w with env := e } ∧ e.samples = w.env.samples ∧
      e.rises = w.env.rises ∧ ∀ n rest, w.env.elapses = n :: rest →
        e.tickIn = w.env.tickIn + BitVec.ofNat 32 n ∧ e.elapses = rest := by
    unfold State.advanceTick State.nextElapsed
    cases w.env.elapses <;> exact ⟨_, rfl, rfl, rfl, by simp⟩
  obtain ⟨e, he, h1, h2, h3⟩ := ha
  rw [he]
  refine ⟨(e.tickIn, e.elapses), rfl, fun n rest hk => ?_, ?_⟩
  · obtain ⟨a, b⟩ := h3 n rest (by rw [d.elapses, hk])
    rw [a, b, d.tickIn]
  · exact ⟨⟨d.params, d.rst, d.queue, d.noReset, d.quiet, d.grows, d.modeIsLast⟩, d.status, d.ovr, d.regs,
      d.mode, d.idle, fun hc => ⟨(d.closed hc).microIdle, (d.closed hc).released⟩, rfl, rfl, d.emitted,
      fun l rest hs hl => (d.script l rest hs hl).imp_right (h1.trans ·),
      fun l rest hs hl => (d.scriptRises l rest hs hl).imp_right (h2.trans ·)⟩

/-- What a command has done when it has ended: `Did`, but SEQ is IDLE and BUSY is 0 (R36). -/
structure Ends (s t : State) (st : Status) (r : Regs) (m : LineMode) (ev : List LineEvent)
    (k : Word × List Nat) : Prop where
  done : s.Done t st r m
  closed : s.Closed → t.Closed
  tickIn : t.env.tickIn = k.1
  elapses : t.env.elapses = k.2
  emitted : s.Emitted t ev
  script : ∀ l rest, s.env.samples = l ++ rest → l.length = (levelsOf ev).length →
    levelsOf ev = l ∧ t.env.samples = rest
  scriptRises : ∀ l rest, s.env.rises = l ++ rest → l.length = (risesOf ev).length →
    risesOf ev = l ∧ t.env.rises = rest

theorem Did.ends (h : Did s t st r m ev k) (w : Later t u) : Ends s u.endCommand st r m ev k := by
  have d := h.later w
  exact ⟨⟨rfl, by
      have e := d.status
      unfold Status.SameButOvr at e ⊢
      show ({ u.status with busy := false } : Status) = _
      conv => lhs; rw [e]
      rfl, d.ovr, d.regs, d.mode, d.params, d.rst, d.queue⟩,
    fun hc => ⟨(d.closed hc).microIdle, (d.closed hc).released⟩, d.tickIn, d.elapses, d.emitted,
    d.script, d.scriptRises⟩

/-- `finish` (R36). -/
theorem Did.finish {α : Type} {Q : α → State → Prop} (h : Did s t st r m ev k)
    (hF : ∀ u, Ends s u st r m ev k → F u) : Spec (finish : Cmd α) t Q F :=
  finish_spec fun _ hu => hF _ (h.ends hu)

/-- `fail(code)` (R201). -/
theorem Did.fail {α : Type} {Q : α → State → Prop} (code : FaultCode) (h : Did s t st r m ev k)
    (hF : ∀ u, Ends s u { st with fault := code } r m ev k → F u) : Spec (fail code : Cmd α) t Q F :=
  fail_spec fun _ _ hu hv => hF _ (((h.later hu).onStatus (f := fun a => { a with fault := code })
    fun _ _ => rfl).ends hv)

/-- What follows if slots were shown. -/
theorem Did.slots {sl : List Slot} {lv : List Bool} (h : Did s t st r m ev k) (w : Slots t u sl lv) :
    ∃ ev', slotsOf ev' = sl ∧ levelsOf ev' = lv ∧ Did s u st r m (ev ++ ev') k := by
  obtain ⟨⟨ev', hw, h1, h2⟩, hc⟩ := w
  exact ⟨ev', h1, h2, h.work hw hc⟩

/-- `WriteByte(b)` (R108). -/
theorem Did.writeByte (b : Byte) (h : Did s t st r m ev k) :
    Spec (writeByte b) t (fun _ u => ∃ ev', slotsOf ev' = byteSlots b ∧ levelsOf ev' = [] ∧
      Did s u st r m (ev ++ ev') k) F :=
  (writeByte_spec b).mono (fun _ _ _ hu => h.slots hu) fun _ _ hu => hu

/-- `ReadByte()` (R109). -/
theorem Did.readByte (h : Did s t st r m ev k) :
    Spec readByte t (fun b u => ∃ ev', slotsOf ev' = List.replicate 8 .read ∧ levelsOf ev' = byteBits b ∧
      Did s u st r m (ev ++ ev') k) F :=
  readByte_spec.mono (fun _ _ _ hu => h.slots hu) fun _ _ hu => hu

/-- The loop rule for a command that has come as far as `A k` after `k` rounds. -/
theorem upTo_did {g : Nat → Cmd Unit} {A : Nat → State → Prop} (n : Nat) (h0 : A 0 t)
    (hs : ∀ j v, j < n → A j v → Spec (g j) v (fun _ u => A (j + 1) u) (fun _ => False)) :
    Spec (upTo n g) t (fun _ u => A n u) F :=
  (Spec.upTo n h0 fun j v hj _ hv => hs j v hj hv).mono (fun _ _ _ h => h) fun _ _ h => h.elim

/-- The bytes `f 0 .. f (n-1)`, which the loop reads off the registers, sent in order (R67). -/
theorem Did.sendBytes {f : Regs → Nat → Byte} {g : Nat → Cmd Unit} (n : Nat) (h : Did s t st r m ev k)
    (hg : ∀ j, g j = do { let b ← ask fun s => f s.regs j; Machine.writeByte b }) :
    Spec (upTo n g) t (fun _ u => ∃ ev', slotsOf ev' = bytesSlots ((List.range n).map (f r)) ∧
      levelsOf ev' = [] ∧ (n = 0 → ev' = []) ∧ Did s u st r m (ev ++ ev') k) F := by
  refine upTo_did (A := fun j u => ∃ ev', slotsOf ev' = bytesSlots ((List.range j).map (f r)) ∧
    levelsOf ev' = [] ∧ (j = 0 → ev' = []) ∧ Did s u st r m (ev ++ ev') k) n
    ⟨[], rfl, rfl, fun _ => rfl, by simpa using h⟩ ?_
  rintro j v - ⟨ev', h1, h2, -, hd⟩
  rw [hg j]
  refine (Spec.ask (Q := fun b w => w = v ∧ b = f r j) (F := fun _ => False)
    ⟨rfl, by rw [hd.regs]⟩).andThen ?_
  rintro b w - ⟨rfl, rfl⟩
  refine (hd.writeByte (f r j)).mono (fun _ u _ hu => ?_) fun _ _ hu => hu
  obtain ⟨ev'', k1, k2, hk⟩ := hu
  refine ⟨ev' ++ ev'', ?_, ?_, by simp, by simpa using hk⟩
  · rw [slotsOf_append, h1, k1, List.range_succ, List.map_append, bytesSlots, bytesSlots,
      List.flatMap_append]
    simp
  · rw [levelsOf_append, h2, k2]
    rfl

end

end Sys2Proof.Machine
end

