-- ==== Sys2Proof/Laws/Operands.lean ====
section
/-! SUPPORT. Reading a byte or a context after writing one. -/

namespace Sys2Proof.Machine

theorem byteAt_setByte {n : Nat} (a : Vector Byte n) (i j : Nat) (b : Byte) (hj : j < n) :
    byteAt (setByte a j b) i = if i = j then b else byteAt a i := by
  unfold byteAt setByte
  by_cases h : i = j
  · subst h
    simp [hj]
  · rw [if_neg h, Vector.getElem?_setIfInBounds_ne (Ne.symm h)]

/-- A byte stored behind the first `j` is the next of them. -/
theorem firstBytes_setByte {n : Nat} (a : Vector Byte n) (j : Nat) (b : Byte) (hj : j < n) :
    firstBytes (setByte a j b) (j + 1) = firstBytes a j ++ [b] := by
  unfold firstBytes setByte
  apply List.ext_getElem
  · simp
    omega
  · intro i h1 h2
    simp at h1
    by_cases h : i < j
    · rw [List.getElem_append_left (by simp only [List.length_take, Vector.length_toList]; omega)]
      simp only [List.getElem_take, Vector.getElem_toList]
      exact Vector.getElem_setIfInBounds_ne (by omega) (by omega)
    · have : i = j := by omega
      subst this
      rw [List.getElem_append_right (by simp only [List.length_take, Vector.length_toList]; omega)]
      simp

/-- The first bytes of a buffer, one by one. -/
theorem firstBytes_eq_map {n : Nat} (a : Vector Byte n) (k : Nat) (hk : k ≤ n) :
    (List.range k).map (byteAt a) = firstBytes a k := by
  apply List.ext_getElem
  · simp [firstBytes]
    omega
  · intro i h1 h2
    simp at h1
    simp [firstBytes, byteAt, show i < n by omega]

theorem context_setContext (r : Regs) (c d : BitVec 4) (x : Context) :
    (r.setContext c x).context d = if d = c then x else r.context d := by
  unfold Regs.setContext Regs.context
  by_cases h : d = c
  · subst h
    rw [if_pos rfl]
    exact Vector.getElem_set_self d.toFin.isLt
  · rw [if_neg h]
    have : c.toFin.val ≠ d.toFin.val := fun e => h (BitVec.eq_of_toNat_eq e.symm)
    exact Vector.getElem_set_ne c.toFin.isLt d.toFin.isLt this

theorem setContext_setContext (r : Regs) (c : BitVec 4) (x y : Context) :
    (r.setContext c x).setContext c y = r.setContext c y := by
  unfold Regs.setContext
  simp

@[simp] theorem onContext_context (r : Regs) (c : BitVec 4) (f : Context → Context) :
    (r.onContext c f).context c = f (r.context c) := by
  simp [Regs.onContext, context_setContext]

theorem onContext_onContext (r : Regs) (c : BitVec 4) (f g : Context → Context) :
    (r.onContext c f).onContext c g = r.onContext c fun x => g (f x) := by
  simp [Regs.onContext, context_setContext, setContext_setContext]

end Sys2Proof.Machine
end

