-- ==== Sys2Proof/Laws/Host.lean ====
section
/-! SUPPORT. How a step takes the host's next act, and what a written word leaves in a buffer
(20_memory.md R63, R64, R70). -/

namespace Sys2Proof.Machine

/-- The next step takes the host's next act. -/
theorem State.Asks.step {s : State} {i : Input} (h : s.Asks i) : step s = input s.takeInput i := by
  obtain ⟨hr, ht, hq⟩ := h
  unfold Machine.step fetchAndRun
  rw [hr, ht]
  cases hs : s.host.queue with
  | nil => simp [hs] at hq
  | cons a rest =>
    rw [hs, List.head?_cons, Option.some.injEq] at hq
    rw [hq]

/-- Out of reset a host input is taken as one. -/
@[simp] theorem hostInput_of_low {s : State} {i : Input} (h : s.rstIn = false) :
    hostInput s i = input s i := by
  simp [hostInput, h]

/-- In reset it is taken as one in reset (log 15). -/
@[simp] theorem hostInput_of_high {s : State} {i : Input} (h : s.rstIn = true) :
    hostInput s i = inputInReset s i := by
  simp [hostInput, h]

/-- A 32-bit access at the offset of word index `r` names that word (R60, R63). -/
theorem reg?_wordIndex (r : BitVec 8) : Access.reg? { offset := r ++ 0#2, width := 32 } = some r := by
  revert r
  decide +kernel

/-- A read of a register is taken as one (R39). -/
@[simp] theorem input_rd (s : State) (r : BitVec 8) : input s (rd r) = .next (hostRead r s) := by
  simp only [rd, input, reg?_wordIndex]

/-- A write of a register is taken as one (R38). -/
@[simp] theorem input_wr (s : State) (r : BitVec 8) (v : Word) : input s (wr r v) = hostWrite r v s := by
  simp only [wr, input, reg?_wordIndex]

/-- Byte `j` of a buffer after a word was written to it (R70). -/
theorem byteAt_setWordAt {n : Nat} (a : Vector Byte n) (base : Nat) (v : Word) (h : base + 3 < n)
    (j : Nat) : byteAt (setWordAt a base v) j =
      if j = base + 3 then byteOfWord v 3 else if j = base + 2 then byteOfWord v 2
      else if j = base + 1 then byteOfWord v 1 else if j = base then byteOfWord v 0 else byteAt a j := by
  unfold setWordAt
  rw [byteAt_setByte _ _ _ _ h, byteAt_setByte _ _ _ _ (by omega), byteAt_setByte _ _ _ _ (by omega),
    byteAt_setByte _ _ _ _ (by omega)]

/-- A written word leaves its four bytes and no other byte changed (R64, R70). -/
theorem bytesWritten_setWordAt {n : Nat} (a : Vector Byte n) (base : Nat) (v : Word) (h : base + 3 < n) :
    BytesWritten a (setWordAt a base v) base v := by
  refine ⟨fun j hj => ?_, fun j hj => ?_⟩
  · rw [byteAt_setWordAt a base v h]
    match j, hj with
    | 0, _ => simp [byteOfWord]
    | 1, _ => simp [byteOfWord]
    | 2, _ => simp [byteOfWord]
    | 3, _ => simp [byteOfWord]
  · rw [byteAt_setWordAt a base v h, if_neg (by omega), if_neg (by omega), if_neg (by omega),
      if_neg (by omega)]

end Sys2Proof.Machine
end

