-- ==== Sys2Proof/Laws/Landing.lean ====
section
/-! SUPPORT. What an assertion of `rst` that is due later does to a command (70_reset_and_hazards.md R230):
`Lands c` holds of every piece of pseudocode the commands are made of, and so of every instruction. -/

namespace Sys2Proof.Machine

theorem modeAfter_append (m : LineMode) (a b : List LineEvent) :
    modeAfter m (a ++ b) = modeAfter (modeAfter m a) b := by
  induction a generalizing m with
  | nil => rfl
  | cons e a ih => cases e <;> simp [modeAfter, ih]

/-- The state pseudocode leaves, however it ends. -/
def stOf {α : Type} : EStateM.Result Ended State α → State
  | .ok _ t => t
  | .error _ t => t

/-- An ending with its state changed. -/
def onRes {α : Type} (f : State → State) :
    EStateM.Result Ended State α → EStateM.Result Ended State α
  | .ok a t => .ok a (f t)
  | .error e t => .error e (f t)

/-- From `s` pseudocode that no host act disturbs has come to `t` and shown `ev`. -/
structure Undisturbed (s t : State) (ev : List LineEvent) : Prop where
  emitted : s.Emitted t ev
  mode : t.pin.mode = modeAfter s.pin.mode ev
  rst : t.rstIn = s.rstIn
  params : t.params = s.params
  quiet : t.host.during = []

theorem Undisturbed.trans {s t u : State} {a b} (h : Undisturbed s t a) (k : Undisturbed t u b) :
    Undisturbed s u (a ++ b) :=
  ⟨State.Emitted.trans h.emitted k.emitted, by rw [k.mode, h.mode, modeAfter_append], k.rst.trans h.rst,
      k.params.trans h.params, k.quiet⟩

/-- `rst` has cut the pseudocode that began in `s` when it had shown `shown`, at most `g` events. -/
structure Cut (s v : State) (rest : List BusyInput) (g : Nat) (shown : List LineEvent) : Prop where
  reset : v.IsReset
  rst : v.rstIn = true
  params : v.params = s.params
  during : v.host.during = rest
  len : shown.length ≤ g
  emitted : s.Emitted v (shown ++ if modeAfter s.pin.mode shown = .analog then [] else [.setMode .analog])

/-- With an `rst` due after `g` statements, `c` ends as without it, if it has at most `g` statements left, or
is cut where the assertion lands. -/
def Lands {α : Type} (c : Cmd α) : Prop :=
  ∀ s : State, s.seq ≠ .idle → s.host.during = [] → ∀ g rest,
    ∃ ev, Undisturbed s (stOf (c s)) ev ∧ (∀ a t, c s = .ok a t → t.seq ≠ .idle) ∧
      ((∃ m, m ≤ g ∧ ev.length ≤ m ∧ c (s.setDuring (⟨g, .rst⟩ :: rest)) =
          onRes (·.setDuring (⟨g - m, .rst⟩ :: rest)) (c s)) ∨
       (∃ v shown hidden, c (s.setDuring (⟨g, .rst⟩ :: rest)) = .error .abandoned v ∧
          ev = shown ++ hidden ∧ Cut s v rest g shown))

theorem setDuring_self (s : State) (h : s.host.during = []) : s.setDuring [] = s := by
  obtain ⟨p,q,st,r,pin,e,ri,env,host,tr⟩ := s
  obtain ⟨a,b,c⟩ := host
  simp only at h; subst h; rfl

theorem Lands.bind {α β : Type} {c : Cmd α} {f : α → Cmd β} (hc : Lands c) (hf : ∀ a,
    Lands (f a)) : Lands (c >>= f) := by
  intro s hs hd g rest
  obtain ⟨ev, hu, hq, h⟩ := hc s hs hd g rest
  have hb : ∀ s, (c >>= f) s = match c s with | .ok a t => f a t | .error e t => .error e t := fun s => by
    show EStateM.bind c f s = _
    unfold EStateM.bind; cases c s <;> rfl
  simp only [hb]
  cases hcs : c s with
  | error e t =>
    rw [hcs] at hu h
    refine ⟨ev, hu, by simp, ?_⟩
    rcases h with ⟨m, h1, h2, h3⟩ | ⟨v, a, b, h1, h2, h3⟩
    · exact .inl ⟨m, h1, h2, by rw [h3]; rfl⟩
    · exact .inr ⟨v, a, b, by rw [h1], h2, h3⟩
  | ok a t =>
    rw [hcs] at hu h
    simp only
    rcases h with ⟨m, h1, h2, h3⟩ | ⟨v, sh, hi, h1, h2, h3⟩
    · obtain ⟨ev', hu', hq', h'⟩ := hf a t (hq a t hcs) hu.quiet (g - m) rest
      refine ⟨ev ++ ev', Undisturbed.trans hu hu', hq', ?_⟩
      rw [h3]
      simp only [onRes]
      rcases h' with ⟨m', k1, k2, k3⟩ | ⟨v, sh, hi, k1, k2, k3⟩
      · refine .inl ⟨m + m', by omega, by rw [List.length_append]; omega, ?_⟩
        rw [k3, Nat.sub_sub]
        cases f a t <;> rfl
      · have hl : (ev ++ sh).length ≤ g := by
          have := k3.len
          rw [List.length_append]
          omega
        refine .inr ⟨v, ev ++ sh, hi, k1, by rw [k2, List.append_assoc],
          k3.reset, k3.rst, k3.params.trans hu.params, k3.during, hl, ?_⟩
        have := State.Emitted.trans hu.emitted k3.emitted
        rw [modeAfter_append, ← show t.pin.mode = _ from hu.mode, List.append_assoc]
        exact this
    · obtain ⟨ev', hu', hq', -⟩ := hf a t (hq a t hcs) hu.quiet g rest
      exact ⟨ev ++ ev', Undisturbed.trans hu hu', hq', .inr ⟨v, sh, hi ++ ev', by rw [h1], by rw [h2,
          List.append_assoc], h3⟩⟩

/-- An effect on the state that shows at most `n` events and does not look at the host acts. -/
structure Local (n : Nat) (f : State → State) : Prop where
  comm : ∀ s l, f (s.setDuring l) = (f s).setDuring l
  eff : ∀ s, ∃ ev, ev.length ≤ n ∧ s.Emitted (f s) ev ∧ (f s).pin.mode = modeAfter s.pin.mode ev ∧
      (f s).rstIn = s.rstIn ∧ (f s).params = s.params ∧ (f s).host = s.host ∧ (f s).seq = s.seq

theorem Lands.pure {α} (a : α) : Lands (pure a : Cmd α) := fun _ hs hd _ _ =>
  ⟨[], ⟨rfl, rfl, rfl, rfl, hd⟩, fun _ _ h => by cases h; exact hs,
    .inl ⟨0, by omega, by simp, rfl⟩⟩

theorem Lands.act {f} (h : Local 0 f) : Lands (act f) := fun s hs hd g rest => by
  obtain ⟨ev, h1, h2, h3, h4, h5, h6, h7⟩ := h.eff s
  have e : ev = [] := by simpa using h1
  subst e
  refine ⟨[], ⟨h2, h3, h4, h5, ?_⟩, fun _ _ h => ?_, .inl ⟨0, by omega, by simp, ?_⟩⟩
  · show (f s).host.during = _
    rw [h6, hd]
  · cases h
    rwa [h7]
  · simp [Machine.act, onRes, h.comm]

theorem Lands.ask {α} {f : State → α} (h : ∀ s l, f (s.setDuring l) = f s) : Lands (ask f) :=
  fun _ hs hd _ _ => ⟨[], ⟨rfl, rfl, rfl, rfl, hd⟩, fun _ _ h => by cases h; exact hs,
    .inl ⟨0, by omega, by simp, by simp [Machine.ask, onRes, h]⟩⟩

theorem advance_quiet {s : State} (hs : s.seq ≠ .idle) (hd : s.host.during = []) :
    advance s = .ok () (s.setSeq s.seq.next) := by
  unfold advance
  cases h : s.seq with
  | idle => exact absurd h hs
  | busy w k => simp only [hd, land, setDuring_self s hd, h]

theorem advance_due {s : State} (hs : s.seq ≠ .idle) (g : Nat) (rest : List BusyInput) :
    advance (s.setDuring (⟨g, .rst⟩ :: rest)) =
      match g with
      | 0 => .error .abandoned (s.setDuring rest).applyReset
      | n + 1 => .ok () ((s.setSeq s.seq.next).setDuring (⟨n, .rst⟩ :: rest)) := by
  unfold advance
  have e : (s.setDuring (⟨g, .rst⟩ :: rest)).seq = s.seq := rfl
  rw [e]
  cases h : s.seq with
  | idle => exact absurd h hs
  | busy w k =>
    cases g with
    | zero => rfl
    | succ n => simp [land, State.setDuring, State.onHost, State.setSeq, h]

theorem Cut.now (s : State) (rest : List BusyInput) (g : Nat) :
    Cut s (s.setDuring rest).applyReset rest g [] where
  reset := ⟨rfl, rfl, ⟨_, rfl⟩, rfl, rfl⟩
  rst := rfl
  params := rfl
  during := rfl
  len := by simp
  emitted := by
    show (if s.pin.mode = .analog then s.trace else _) = _
    simp only [modeAfter]
    split <;> simp_all [State.setDuring, State.onHost]

/-- A statement: the host acts due land, and then it has its effect. -/
theorem Lands.stmt {α} {f : State → State} {q : State → α} (h : Local 1 f)
    (hq : ∀ s l, q (s.setDuring l) = q s) {c : Cmd α} (hc : ∀ s, c s = match advance s with
      | .ok _ t => .ok (q t) (f t)
      | .error e t => .error e t) : Lands c := fun s hs hd g rest => by
  obtain ⟨ev, h1, h2, h3, h4, h5, h6, h7⟩ := h.eff (s.setSeq s.seq.next)
  have hn : s.seq.next ≠ .idle := by cases hh : s.seq with
    | idle => exact absurd hh hs
    | busy => simp [Seq.next]
  refine ⟨ev, ?_, ?_, ?_⟩
  · rw [hc, advance_quiet hs hd]
    exact ⟨h2, h3, h4, h5, by show (f _).host.during = _; rw [h6]; exact hd⟩
  · rw [hc, advance_quiet hs hd]
    rintro a t ⟨⟩
    rw [h7]; exact hn
  · rw [hc, hc, advance_quiet hs hd, advance_due hs]
    cases g with
    | zero => exact .inr ⟨_, [], ev, rfl, rfl, Cut.now s rest 0⟩
    | succ n => exact .inl ⟨1, by omega, h1, by simp [onRes, h.comm, hq]⟩

theorem Lands.write {f} (h : Local 1 f) : Lands (write f) :=
  Lands.stmt (q := fun _ => ()) h (fun _ _ => rfl) fun s => by
    show EStateM.bind advance (fun _ => Machine.act f) s = _
    unfold EStateM.bind; cases advance s <;> rfl

theorem Lands.finish {α} : Lands (finish : Cmd α) := fun s hs hd g rest => by
  have hc : ∀ s, (Machine.finish : Cmd α) s = match advance s with
      | .ok _ t => .error .finished t.endCommand
      | .error e t => .error e t := fun s => by
    show EStateM.bind (EStateM.bind advance _) _ s = _
    unfold EStateM.bind; cases advance s <;> rfl
  refine ⟨[], ?_, ?_, ?_⟩
  · rw [hc, advance_quiet hs hd]; exact ⟨rfl, rfl, rfl, rfl, hd⟩
  · rw [hc, advance_quiet hs hd]; rintro a t ⟨⟩
  · rw [hc, hc, advance_quiet hs hd, advance_due hs]
    cases g with
    | zero => exact .inr ⟨_, [], [], rfl, rfl, Cut.now s rest 0⟩
    | succ n => exact .inl ⟨1, by omega, by simp, rfl⟩

/-- An effect on the flags, the registers, the transceiver and the environment alone. -/
theorem Local.plain {f : State → State} (n : Nat) (h : ∀ s l, f (s.setDuring l) = (f s).setDuring l)
    (he : ∀ s, f s = { s with status := (f s).status, regs := (f s).regs, engine := (f s).engine
                              env := (f s).env }) : Local n f :=
  ⟨h, fun s => ⟨[], by simp, by rw [he]; exact ⟨rfl, rfl, rfl, rfl, rfl, rfl⟩⟩⟩

theorem Lands.status (f : Status → Status) : Lands (Machine.write (·.onStatus f)) :=
  .write (Local.plain (f := fun s => s.onStatus f) 1 (fun _ _ => rfl) fun _ => rfl)

theorem Lands.regs (f : Regs → Regs) : Lands (Machine.write (·.onRegs f)) :=
  .write (Local.plain (f := fun s => s.onRegs f) 1 (fun _ _ => rfl) fun _ => rfl)

theorem Lands.engine (f : Engine → Engine) : Lands (Machine.act (·.onEngine f)) :=
  .act (Local.plain (f := fun s => s.onEngine f) 0 (fun _ _ => rfl) fun _ => rfl)

theorem Lands.enter (m) : Lands (enter m) := .engine _

theorem Lands.fail {α} (code) : Lands (fail code : Cmd α) := (Lands.status _).bind fun _ => .finish

theorem Local.drive (l : Bool) (e : LineEvent) (he : ∀ m, modeAfter m [e] = m) :
    Local 1 fun s => (s.setDrive l).emit e where
  comm s d := by
    unfold State.setDrive
    show (if s.pin.mode = _ then _ else _ : State).emit e = _
    split <;> rfl
  eff s := by
    refine ⟨[e], by simp, ?_⟩
    unfold State.setDrive
    split <;> exact ⟨rfl, by rw [he]; rfl, rfl, rfl, rfl, rfl⟩

theorem Lands.driveLow : Lands driveLow := .write (Local.drive _ _ fun _ => rfl)

theorem Lands.release : Lands Machine.release := .write (Local.drive _ _ fun _ => rfl)

theorem Lands.delay (t) : Lands (delay t) :=
  .write ⟨fun _ _ => rfl, fun _ => ⟨[.delay t], by simp, rfl, rfl, rfl, rfl, rfl, rfl⟩⟩

theorem Lands.setMode (m) : Lands (setMode m) :=
  .write ⟨fun _ _ => rfl, fun _ => ⟨[.setMode m], by simp, rfl, rfl, rfl, rfl, rfl, rfl⟩⟩

theorem Local.sample : Local 1 fun s => s.dropSample.emit (.sample s.nextSample) where
  comm s l := by
    unfold State.dropSample State.nextSample
    obtain ⟨_, _, _, _, _, _, _, ⟨_, a, _, _, _⟩, _, _⟩ := s
    cases a <;> rfl
  eff s := by
    refine ⟨[.sample s.nextSample], by simp, ?_⟩
    unfold State.dropSample
    split <;> exact ⟨rfl, rfl, rfl, rfl, rfl, rfl⟩

theorem Lands.sample : Lands sample :=
  Lands.stmt (q := State.nextSample) Local.sample (fun _ _ => rfl) fun s => by
    show EStateM.bind advance _ s = _
    unfold EStateM.bind
    cases advance s <;> rfl

theorem Local.awaitHigh :
    Local 1 fun s => s.dropRise.emit (.awaitHigh Config.timeoutTicks s.nextRise) where
  comm s l := by
    unfold State.dropRise State.nextRise
    obtain ⟨_, _, _, _, _, _, _, ⟨_, _, a, _, _⟩, _, _⟩ := s
    cases a <;> rfl
  eff s := by
    refine ⟨[.awaitHigh Config.timeoutTicks s.nextRise], by simp, ?_⟩
    unfold State.dropRise
    split <;> exact ⟨rfl, rfl, rfl, rfl, rfl, rfl⟩

theorem Lands.awaitHigh : Lands awaitHigh :=
  Lands.stmt (q := State.nextRise) Local.awaitHigh (fun _ _ => rfl) fun s => by
    show EStateM.bind advance _ s = _
    unfold EStateM.bind
    cases advance s <;> rfl

theorem advanceTick_setDuring (s : State) (l : List BusyInput) :
    (s.setDuring l).advanceTick = s.advanceTick.setDuring l := by
  unfold State.advanceTick State.nextElapsed
  obtain ⟨_, _, _, _, _, _, _, ⟨_, _, _, a, _⟩, _, _⟩ := s
  cases a <;> rfl

theorem Local.tick : Local 1 State.advanceTick where
  comm := advanceTick_setDuring
  eff s := by
    refine ⟨[], by simp, ?_⟩
    unfold State.advanceTick
    split <;> exact ⟨rfl, rfl, rfl, rfl, rfl, rfl⟩

theorem Lands.tick : Lands tick :=
  Lands.stmt (q := fun s => s.advanceTick.env.tickIn) Local.tick
    (fun s l => by rw [advanceTick_setDuring]; rfl) fun s => by
    show EStateM.bind advance _ s = _
    unfold EStateM.bind
    cases advance s <;> rfl

theorem Lands.upTo (n : Nat) {f : Nat → Cmd Unit} (h : ∀ j, Lands (f j)) : Lands (upTo n f) := by
  induction n with
  | zero => exact .pure ()
  | succ n ih => exact ih.bind fun _ => h n

theorem Lands.writeBit (v) : Lands (writeBit v) := by
  cases v
  · refine (Lands.enter _).bind fun _ => Lands.driveLow.bind fun _ => (Lands.delay _).bind fun _ =>
      (Lands.enter _).bind fun _ => Lands.release.bind fun _ => Lands.awaitHigh.bind fun r => ?_
    cases r
    · exact (Lands.enter _).bind fun _ => (Lands.delay _).bind fun _ => Lands.enter _
    · exact Lands.enter _
  · exact (Lands.enter _).bind fun _ => Lands.driveLow.bind fun _ => (Lands.delay _).bind fun _ =>
      (Lands.enter _).bind fun _ => Lands.release.bind fun _ => (Lands.delay _).bind fun _ => Lands.enter _

theorem Lands.readBit : Lands readBit :=
  (Lands.enter _).bind fun _ => Lands.driveLow.bind fun _ => (Lands.delay _).bind fun _ =>
      (Lands.enter _).bind fun _ => Lands.release.bind fun _ => (Lands.delay _).bind fun _ =>
      Lands.sample.bind fun v => (Lands.enter _).bind fun _ => (Lands.delay _).bind fun _ =>
      (Lands.enter _).bind fun _ => .pure v

theorem Lands.writeByte (b) : Lands (writeByte b) :=
  (Lands.engine _).bind fun _ => .upTo 8 fun _ => (Lands.engine _).bind fun _ => .writeBit _

theorem Lands.readByte : Lands readByte :=
  (Lands.engine _).bind fun _ => (Lands.upTo 8 fun _ => (Lands.engine _).bind fun _ =>
      Lands.readBit.bind fun _ => Lands.engine _).bind fun _ => .ask fun _ _ => rfl

theorem Lands.withLen (l) {c : Cmd Unit} (h : Lands c) : Lands (withLen l c) := by
  unfold Machine.withLen; split
  · exact h
  · exact .fail _

theorem Lands.withCtx (k) {c : Cmd Unit} (h : Lands c) : Lands (withCtx k c) := by
  have e : Machine.withCtx k c = (Machine.ask (fun s => decide (k.toNat < s.params.numCtx)) >>=
      fun b => bif b then c else Machine.fail .illegal) := by
    funext s
    unfold Machine.withCtx
    show _ = EStateM.bind _ _ s
    unfold EStateM.bind Machine.ask
    by_cases hh : k.toNat < s.params.numCtx <;> simp [hh]
  rw [e]
  refine (Lands.ask fun _ _ => rfl).bind fun b => ?_
  cases b
  · exact .fail _
  · exact h

theorem Lands.resetPresence : Lands resetPresence := by
  refine (Lands.enter _).bind fun _ => Lands.driveLow.bind fun _ => (Lands.delay _).bind fun _ =>
      (Lands.enter _).bind fun _ => Lands.release.bind fun _ => Lands.awaitHigh.bind fun r => ?_
  cases r
  · exact (Lands.enter _).bind fun _ => (Lands.delay _).bind fun _ => Lands.sample.bind fun v =>
      (Lands.enter _).bind fun _ => (Lands.delay _).bind fun _ => (Lands.enter _).bind fun _ =>
      (Lands.status _).bind fun _ => .pure _
  · exact (Lands.enter _).bind fun _ => (Lands.status _).bind fun _ => .pure _

theorem Lands.beginTransaction {c} (h : Lands c) : Lands (beginTransaction c) := by
  refine Lands.resetPresence.bind fun code => ?_
  cases code
  case none => exact .pure ()
  all_goals exact h.bind fun _ => .fail _

theorem Lands.searchPositions (F n) : Lands (searchPositions F n) := by
  induction n with
  | zero => exact .pure _
  | succ n ih =>
    refine ih.bind fun nf => Lands.readBit.bind fun b => Lands.readBit.bind fun cb =>
        (Lands.ask fun _ _ => rfl).bind fun prev => ?_
    cases branch (n+1) F nf b cb prev with
    | none => exact .fail _
    | some c =>
      exact (Lands.writeBit _).bind fun _ =>
        (Lands.regs fun r => { r with curAddr := setPosBit r.curAddr (n + 1) c.1 }).bind fun _ => .pure _

theorem Lands.selectSeq (c) : Lands (selectSeq c) :=
  (Lands.writeByte _).bind fun _ => .upTo 8 fun _ => (Lands.ask fun _ _ => rfl).bind fun _ => .writeByte _

theorem Lands.ctx (c f) : Lands (Machine.write (·.onCtx c f)) :=
  .regs fun r => r.setContext c (f (r.context c))

theorem Lands.setOutcome (c o) : Lands (setOutcome c o) := (Lands.status _).bind fun _ => .ctx _ _

theorem Lands.clearAddress (c) : Lands (clearAddress c) := (Lands.ctx _ _).bind fun _ => .setOutcome _ _

theorem Lands.crcGate (ok) {c} (h : Lands c) : Lands (crcGate ok c) := by
  refine (Lands.status _).bind fun _ => ?_
  cases ok
  · exact h.bind fun _ => .fail _
  · exact .pure ()

theorem Lands.ifPassive (m p) : Lands (ifPassive m p) := by
  cases p
  · exact .pure ()
  · exact .setMode m

theorem Lands.releaseScratchpad : Lands (Machine.act State.releaseScratchpad) :=
  .act (Local.plain (f := State.releaseScratchpad) 0 (fun _ _ => rfl) fun _ => rfl)

theorem Lands.setCrcOk :
    Lands (Machine.write fun s => s.setCrcOk (crcCheck (firstBytes s.regs.srchResult 8)).1) :=
  .write (Local.plain (f := fun s => s.setCrcOk (crcCheck (firstBytes s.regs.srchResult 8)).1) 1
    (fun _ _ => rfl) fun _ => rfl)

theorem Lands.readPhase (c) : Lands (readPhase c) :=
  (Lands.ask fun _ _ => rfl).bind fun _ => (Lands.ifPassive _ _).bind fun _ =>
  (Lands.ctx _ _).bind fun _ => (Lands.beginTransaction (.setOutcome _ _)).bind fun _ =>
  (Lands.selectSeq _).bind fun _ => (Lands.writeByte _).bind fun _ =>
  (Lands.upTo 9 fun _ => Lands.readByte.bind fun _ => .regs _).bind fun _ =>
  (Lands.ask fun _ _ => rfl).bind fun _ =>
  (Lands.crcGate _ (Lands.releaseScratchpad.bind fun _ => .setOutcome _ _)).bind fun _ =>
  ((Lands.ask fun _ _ => rfl).bind fun _ => (Lands.ctx _ _).bind fun _ => .ctx _ _).bind fun _ =>
  Lands.releaseScratchpad.bind fun _ => (Lands.setOutcome _ _).bind fun _ => .finish

theorem Lands.startPhase (c) : Lands (startPhase c) :=
  (Lands.beginTransaction (.setOutcome _ _)).bind fun _ => (Lands.selectSeq _).bind fun _ =>
  (Lands.writeByte _).bind fun _ => (Lands.ask fun _ _ => rfl).bind fun _ =>
  (Lands.ifPassive _ _).bind fun _ => Lands.tick.bind fun _ => (Lands.ctx _ _).bind fun _ =>
  (Lands.ctx _ _).bind fun _ => (Lands.setOutcome _ _).bind fun _ => .finish

theorem Lands.tempPhase (c p) : Lands (tempPhase c p) := by
  cases p
  · exact .startPhase c
  · refine Lands.tick.bind fun _ => (Lands.ask fun _ _ => rfl).bind fun b => ?_
    cases b
    · exact (Lands.setOutcome _ _).bind fun _ => .finish
    · exact .readPhase c

theorem Lands.configureFamily (c f) : Lands (configureFamily c f) := by
  unfold Machine.configureFamily
  split
  · exact ((Lands.beginTransaction (.setOutcome _ _)).bind fun _ => (Lands.selectSeq _).bind fun _ =>
      (Lands.writeByte _).bind fun _ => (Lands.ask fun _ _ => rfl).bind fun _ =>
      (Lands.writeByte _).bind fun _ => (Lands.writeByte _).bind fun _ => .writeByte _).bind fun _ =>
      (Lands.beginTransaction (.setOutcome _ _)).bind fun _ => (Lands.selectSeq _).bind fun _ =>
      .writeByte _
  · exact .pure ()

/-- Every instruction is pseudocode of this kind. -/
theorem exec_lands (i : Instr) : ∃ c : Cmd Unit, Lands c ∧ ∀ s, exec i s = runs c s := by
  cases i
  case owReset => exact ⟨_, (Lands.beginTransaction (.pure ())).bind fun _ => .finish, fun _ => rfl⟩
  case owWriteBit => exact ⟨_, (Lands.writeBit _).bind fun _ => .finish, fun _ => rfl⟩
  case owReadBit => exact ⟨_, Lands.readBit.bind fun _ => (Lands.regs _).bind fun _ => .finish, fun _ =>
      rfl⟩
  case owWriteByte => exact ⟨_, (Lands.writeByte _).bind fun _ => .finish, fun _ => rfl⟩
  case owReadByte => exact ⟨_, Lands.readByte.bind fun _ => (Lands.regs _).bind fun _ => .finish,
      fun _ => rfl⟩
  case owWriteBytes => exact ⟨_, .withLen _ ((Lands.upTo _ fun _ => (Lands.ask fun _ _ =>
      rfl).bind fun _ => .writeByte _).bind fun _ => .finish), fun _ => rfl⟩
  case owReadBytes => exact ⟨_, .withLen _ ((Lands.upTo _ fun _ => Lands.readByte.bind fun _ =>
      .regs _).bind fun _ => .finish), fun _ => rfl⟩
  case crcUpdate b => exact ⟨_,
      (Lands.regs fun r => { r with crcAcc := crcUpdate r.crcAcc b }).bind fun _ => .finish, fun _ => rfl⟩
  case crcCheck => exact ⟨_, .withLen _ ((Lands.ask fun _ _ => rfl).bind fun _ =>
      (Lands.regs _).bind fun _ => (Lands.status _).bind fun _ => .finish), fun _ => rfl⟩
  case searchInit => exact ⟨_, (Lands.regs _).bind fun _ => (Lands.regs _).bind fun _ =>
      (Lands.status _).bind fun _ => .finish, fun _ => rfl⟩
  case searchNext =>
    refine ⟨_, (Lands.enter _).bind fun _ => (Lands.delay _).bind fun _ => (Lands.enter _).bind fun _ =>
        (Lands.status _).bind fun _ => (Lands.ask fun _ _ => rfl).bind fun fk => ?_, fun _ => rfl⟩
    refine Lands.bind ?_ fun _ => (Lands.beginTransaction (.pure ())).bind fun _ =>
        (Lands.writeByte _).bind fun _ => (Lands.ask fun _ _ => rfl).bind fun _ =>
        (Lands.searchPositions _ _).bind fun _ => ?_
    · unfold unlessExhausted; split
      · exact .fail _
      · exact .pure ()
    · exact (Lands.regs _).bind fun _ => 
        (Lands.regs fun r => { r with srchResult := r.curAddr }).bind fun _ =>
        (Lands.status _).bind fun _ => Lands.setCrcOk.bind fun _ => .finish
  case readAddress c => exact ⟨_, .withCtx _ ((Lands.beginTransaction (.clearAddress _)).bind fun _ =>
      (Lands.writeByte _).bind fun _ => (Lands.upTo 8 fun _ => Lands.readByte.bind fun _ =>
      .ctx _ _).bind fun _ => (Lands.ask fun _ _ => rfl).bind fun _ =>
      (Lands.crcGate _ (.clearAddress _)).bind fun _ => (Lands.setOutcome _ _).bind fun _ => .finish),
      fun _ => rfl⟩
  case select => exact ⟨_, .withCtx _ ((Lands.selectSeq _).bind fun _ => .finish), fun _ => rfl⟩
  case tempUpdate => exact ⟨_, .withCtx _ ((Lands.ask fun _ _ => rfl).bind fun _ => .tempPhase _ _),
      fun _ => rfl⟩
  case configResolution => exact ⟨_, .withCtx _ ((Lands.ask fun _ _ => rfl).bind fun _ =>
      (Lands.configureFamily _ _).bind fun _ => (Lands.setOutcome _ _).bind fun _ => .finish), fun _ => rfl⟩
  all_goals exact ⟨_, .writeByte _, fun _ => rfl⟩

end Sys2Proof.Machine
end

