-- ==== Sys2Proof/Laws/Params.lean ====
section
/-! SUPPORT. What holds of the parameters of `State.reset` whatever their open values are (00_scope.md R4). -/

namespace Sys2Proof.Machine

/-- A tick lasts some time. -/
theorem tickPeriod_pos : 0 < Config.tickPeriod := by
  unfold Config.tickPeriod
  positivity

/-- The parameters of the reset state are as R4 asks. -/
theorem State.reset_params_wf : State.reset.params.wf :=
  ⟨by decide, by decide, tickPeriod_pos, rfl⟩

end Sys2Proof.Machine
end

