-- ==== Sys2Proof/Laws/PerInstr.lean ====
section
/-! SUPPORT. What holds of every instruction as syntax: the family Format (30_encoding.md R80, R86, R90). -/

namespace Sys2Proof.Laws.Format

/-- A command has a command word whose reserved fields are 0 (R80) and every other instruction a wire byte
(R90); and operands that a block with `n` contexts admits are admitted by one with more (R86). -/
def Statement (i : Instr) : Prop :=
  (match encode i with
    | .cmd w => i.isCommand = true ∧ w.extractLsb' 21 3 = 0 ∧ w.extractLsb' 28 4 = 0
    | .wire b => i.isCommand = false ∧ decodeWire b = .ok i) ∧
  ∀ n m, n ≤ m → i.wellFormed n = true → i.wellFormed m = true

theorem getLsbD_cmdWord (opc imm8 : BitVec 8) (len : BitVec 5) (ctx : BitVec 4) (i : Nat) :
    (cmdWord opc imm8 len ctx).getLsbD i = (0#4 ++ ctx ++ 0#3 ++ len ++ imm8 ++ opc).getLsbD i := rfl

/-- The reserved fields of an encoded word are 0. -/
theorem reserved_cmdWord (opc imm8 : BitVec 8) (len : BitVec 5) (ctx : BitVec 4) :
    (cmdWord opc imm8 len ctx).extractLsb' 21 3 = 0 ∧ (cmdWord opc imm8 len ctx).extractLsb' 28 4 = 0 := by
  constructor <;> apply BitVec.eq_of_getLsbD_eq <;> intro i hi <;>
    rw [BitVec.getLsbD_extractLsb', getLsbD_cmdWord]
  · rcases i with _ | _ | _ | i <;> first | omega | (simp only [BitVec.getLsbD_append]; simp)
  · rcases i with _ | _ | _ | _ | i <;> first | omega | (simp only [BitVec.getLsbD_append]; simp)

theorem owReset : Statement .owReset := ⟨⟨rfl, reserved_cmdWord ..⟩, fun _ _ _ h => h⟩
theorem owWriteBit (v : Bool) : Statement (.owWriteBit v) := ⟨⟨rfl, reserved_cmdWord ..⟩, fun _ _ _ h => h⟩
theorem owReadBit : Statement .owReadBit := ⟨⟨rfl, reserved_cmdWord ..⟩, fun _ _ _ h => h⟩
theorem owWriteByte (b : Byte) : Statement (.owWriteByte b) := ⟨⟨rfl, reserved_cmdWord ..⟩, fun _ _ _ h => h⟩
theorem owReadByte : Statement .owReadByte := ⟨⟨rfl, reserved_cmdWord ..⟩, fun _ _ _ h => h⟩
theorem owWriteBytes (l : BitVec 5) : Statement (.owWriteBytes l) :=
  ⟨⟨rfl, reserved_cmdWord ..⟩, fun _ _ _ h => h⟩
theorem owReadBytes (l : BitVec 5) : Statement (.owReadBytes l) :=
  ⟨⟨rfl, reserved_cmdWord ..⟩, fun _ _ _ h => h⟩
theorem crcUpdate (b : Byte) : Statement (.crcUpdate b) := ⟨⟨rfl, reserved_cmdWord ..⟩, fun _ _ _ h => h⟩
theorem crcCheck (l : BitVec 5) : Statement (.crcCheck l) := ⟨⟨rfl, reserved_cmdWord ..⟩, fun _ _ _ h => h⟩
theorem searchInit : Statement .searchInit := ⟨⟨rfl, reserved_cmdWord ..⟩, fun _ _ _ h => h⟩
theorem searchNext : Statement .searchNext := ⟨⟨rfl, reserved_cmdWord ..⟩, fun _ _ _ h => h⟩

/-- A context below `n` is below every larger number. -/
theorem ctx_mono {c : BitVec 4} {n m : Nat} (h : n ≤ m) (k : (true && decide (c.toNat < n)) = true) :
    (true && decide (c.toNat < m)) = true := by
  simp only [Bool.true_and, decide_eq_true_eq] at *
  omega

theorem readAddress (c : BitVec 4) : Statement (.readAddress c) :=
  ⟨⟨rfl, reserved_cmdWord ..⟩, fun _ _ => ctx_mono⟩
theorem select (c : BitVec 4) : Statement (.select c) := ⟨⟨rfl, reserved_cmdWord ..⟩, fun _ _ => ctx_mono⟩
theorem tempUpdate (c : BitVec 4) : Statement (.tempUpdate c) :=
  ⟨⟨rfl, reserved_cmdWord ..⟩, fun _ _ => ctx_mono⟩
theorem configResolution (c : BitVec 4) : Statement (.configResolution c) :=
  ⟨⟨rfl, reserved_cmdWord ..⟩, fun _ _ => ctx_mono⟩

theorem searchRom : Statement .searchRom := ⟨⟨rfl, rfl⟩, fun _ _ _ h => h⟩
theorem readRom : Statement .readRom := ⟨⟨rfl, rfl⟩, fun _ _ _ h => h⟩
theorem matchRom : Statement .matchRom := ⟨⟨rfl, rfl⟩, fun _ _ _ h => h⟩
theorem convertT : Statement .convertT := ⟨⟨rfl, rfl⟩, fun _ _ _ h => h⟩
theorem readScratchpad : Statement .readScratchpad := ⟨⟨rfl, rfl⟩, fun _ _ _ h => h⟩
theorem writeScratchpad : Statement .writeScratchpad := ⟨⟨rfl, rfl⟩, fun _ _ _ h => h⟩
theorem copyScratchpad : Statement .copyScratchpad := ⟨⟨rfl, rfl⟩, fun _ _ _ h => h⟩

end Sys2Proof.Laws.Format
end

