-- ==== Sys2Proof/Laws/Presence.lean ====
section
/-! SUPPORT. What the reset pulse and the start of a transaction can do (43_reset_presence.md R140, R142). -/

namespace Sys2Proof.Machine

section
variable {s t u : State} {st : Status} {r : Regs} {m : LineMode} {ev a : List LineEvent}
variable {k : Word × List Nat} {F : State → Prop}

/-- The end of the pulse when the line rose: `a` is what it has shown so far. -/
theorem Did.presenceWindow (h : Did s t st r m ev k) (w : Work t u a)
    (hd : u.pin.mode = .openDrain → u.pin.drive = true) :
    Spec Machine.presenceWindow u (fun code v => ∃ high, code = resetCode (some high) ∧
      Did s v { st with presence := some high == some false } r m
        (ev ++ (a ++ [.delay .tPDW, .sample high, .delay .tRSTT])) k) F := by
  refine (enter_spec .rstWait).andThen fun _ t1 _ h1 => (delay_spec .tPDW).andThen fun _ t2 _ h2 => ?_
  refine sample_spec.andThen fun high t3 _ h3 => (enter_spec .rstTail).andThen fun _ t4 _ h4 => ?_
  refine (delay_spec .tRSTT).andThen fun _ t5 _ h5 => (enter_spec .idle).andThen fun _ t6 _ h6 => ?_
  have wk := (((((w.trans h1.1).trans h2.1).trans h3.1).trans h4.1).trans h5.1).trans h6.1
  have d := h.work wk fun _ => ⟨h6.2.2.1, fun hm => by
    rw [h6.2.1, h5.2.1, h4.2.1, h3.2.2, h2.2.1, h1.2.1] at hm ⊢
    exact hd hm⟩
  refine (d.writeStatus (f := fun b => { b with presence := !high }) fun _ _ => rfl).andThen
    fun _ v _ hv => .pure ⟨high, by cases high <;> rfl, ?_⟩
  have e : (some high == some false) = !high := by cases high <;> rfl
  rw [e]
  simpa using hv

/-- `ResetPresence()` (R140): the events of the pulse, PRESENCE, and the code. -/
theorem Did.resetPresence (h : Did s t st r m ev k) :
    Spec Machine.resetPresence t (fun code u => ∃ hi, code = resetCode hi ∧
      Did s u { st with presence := hi == some false } r m (ev ++ resetEvents hi) k) F := by
  refine Spec.mono (F := fun _ => False) ?_ (fun _ _ _ h => h) fun _ _ h => h.elim
  refine (enter_spec .rstLow).andThen fun _ t1 _ h1 => driveLow_spec.andThen fun _ t2 _ h2 => ?_
  refine (delay_spec .tRSTL).andThen fun _ t3 _ h3 => (enter_spec .rstRise).andThen fun _ t4 _ h4 => ?_
  refine release_spec.andThen fun _ t5 _ h5 => awaitHigh_spec.andThen fun rise t6 _ h6 => ?_
  have w := ((((h1.1.trans h2.1).trans h3.1).trans h4.1).trans h5.1).trans h6.1
  have hd : t6.pin.mode = .openDrain → t6.pin.drive = true := by
    rw [h6.2.2]
    exact h5.2.2
  cases rise with
  | rose =>
    refine (h.presenceWindow w hd).mono (fun code v _ hv => ?_) fun _ _ h => h
    obtain ⟨high, rfl, d⟩ := hv
    exact ⟨some high, rfl, by simpa [resetEvents] using d⟩
  | timeout =>
    refine (enter_spec .idle).andThen fun _ t7 _ h7 => ?_
    have d := h.work (w.trans h7.1) fun _ => ⟨h7.2.2.1, fun hm => by
      rw [h7.2.1] at hm ⊢
      exact hd hm⟩
    refine (d.writeStatus (f := fun b => { b with presence := false }) fun _ _ => rfl).andThen
      fun _ v _ hv => .pure ⟨none, rfl, ?_⟩
    simpa [resetEvents] using hv

/-- The start of a transaction (R142): it goes on when a device answered; otherwise `onFail` runs and the
command fails with the code of the pulse. -/
theorem Did.beginTransaction {onFail : Cmd Unit} (h : Did s t st r m ev k)
    (hf : ∀ hi u, hi ≠ some false →
      Did s u { st with presence := hi == some false } r m (ev ++ resetEvents hi) k →
      Spec (onFail >>= fun _ => (Machine.fail (resetCode hi) : Cmd Unit)) u (fun (_ : Unit) _ => False) F) :
    Spec (Machine.beginTransaction onFail) t (fun _ u =>
      Did s u { st with presence := true } r m (ev ++ resetEvents (some false)) k) F := by
  refine h.resetPresence.andThen fun code u _ hu => ?_
  obtain ⟨hi, rfl, d⟩ := hu
  rcases hi with _ | high
  · exact (hf none u (by simp) d).mono (fun _ _ _ h => h.elim) fun _ _ h => h
  · cases high with
    | true => exact (hf (some true) u (by simp) d).mono (fun _ _ _ h => h.elim) fun _ _ h => h
    | false => exact .pure d

end

end Sys2Proof.Machine
end

