-- ==== Sys2Proof/Laws/Search.lean ====
section
/-! SUPPORT. What one position of a search pass can do (44_rom_search.md R152-R154, R156). -/

namespace Sys2Proof.Machine

section
variable {s t u : State} {st : Status} {r : Regs} {m : LineMode} {ev : List LineEvent}
variable {k : Word × List Nat} {F : State → Prop}

/-- `ReadBit()` (R107). -/
theorem Did.readBit (h : Did s t st r m ev k) :
    Spec Machine.readBit t (fun v u => Did s u st r m (ev ++ readEvents v) k) F :=
  readBit_spec.mono (fun _ _ _ hu => h.work hu.1 fun _ => hu.2.1) fun _ _ hu => hu

/-- `WriteBit(v)` (R106). -/
theorem Did.writeBit (v : Bool) (h : Did s t st r m ev k) :
    Spec (Machine.writeBit v) t (fun _ u => ∃ rise, Did s u st r m (ev ++ writeEvents v rise) k) F :=
  (writeBit_spec v).mono (fun _ _ _ hu => by
    obtain ⟨⟨rise, hw⟩, hc⟩ := hu
    exact ⟨rise, h.work hw fun _ => hc⟩) fun _ _ hu => hu

/-- One position (R154): two read slots, and then either the branch bit is written to the line and into
CUR_ADDR, or the pair (1, 1) ends the command with NEITHER (R156). -/
theorem Did.searchPosition (p f : Nat) (nf : BitVec 7) (h : Did s t st r m ev k)
    (hF : ∀ u ev', slotsOf ev' = [.read, .read] → levelsOf ev' = [true, true] →
      Ends s u { st with fault := .neither } r m (ev ++ ev') k → F u) :
    Spec (Machine.searchPosition p f nf) t (fun nf' u => ∃ b cb v ev',
      branch p f nf b cb (posBit r.curAddr p) = some (v, nf') ∧
      slotsOf ev' = positionSlots v ∧ levelsOf ev' = [b, cb] ∧
      Did s u st { r with curAddr := setPosBit r.curAddr p v } m (ev ++ ev') k) F := by
  refine h.readBit.andThen fun b t1 _ h1 => h1.readBit.andThen fun cb t2 _ h2 => ?_
  refine (Spec.ask (Q := fun prev w => w = t2 ∧ prev = posBit r.curAddr p) (F := fun _ => False)
    ⟨rfl, by rw [h2.regs]⟩).andThen ?_
  rintro prev w - ⟨rfl, rfl⟩
  rw [List.append_assoc] at h2
  cases hb : branch p f nf b cb (posBit r.curAddr p) with
  | none =>
    have e : b = true ∧ cb = true := by
      revert hb
      unfold branch
      cases b <;> cases cb <;> simp only [reduceCtorEq, false_imp_iff, implies_true, and_self]
      split <;> (try split) <;> simp
    obtain ⟨rfl, rfl⟩ := e
    exact h2.fail .neither fun u hu => hF u _ rfl rfl hu
  | some c =>
    obtain ⟨v, nf'⟩ := c
    refine (h2.writeBit v).andThen fun _ t3 _ h3 => ?_
    obtain ⟨rise, h3⟩ := h3
    refine (h3.writeRegs fun r => { r with curAddr := setPosBit r.curAddr p v }).andThen
      fun _ t4 _ h4 => .pure ⟨b, cb, v, readEvents b ++ readEvents cb ++ writeEvents v rise, hb, ?_, ?_, ?_⟩
    · rw [slotsOf_append, slotsOf_writeEvents]
      rfl
    · rw [levelsOf_append, levelsOf_writeEvents]
      rfl
    · simpa using h4

end

end Sys2Proof.Machine
end

