-- ==== Sys2Proof/Laws/Session.lean ====
section
/-! SUPPORT. What the shared pieces of the session commands and of the buffer transfers can do
(45_session.md R170, R177, 41_transport.md R117). -/

namespace Sys2Proof.Machine

section
variable {s t u : State} {st : Status} {r : Regs} {m : LineMode} {ev : List LineEvent}
variable {k : Word × List Nat} {F : State → Prop}

theorem bytesSlots_append (a b : List Byte) : bytesSlots (a ++ b) = bytesSlots a ++ bytesSlots b := by
  simp [bytesSlots]

/-- `SelectSeq(c)` (R170): the slots of the Match-ROM byte and the address. -/
theorem Did.selectSeq (c : BitVec 4) (h : Did s t st r m ev k) :
    Spec (Machine.selectSeq c) t (fun _ u => ∃ ev', slotsOf ev' = selectSlots (r.context c).addr ∧
      levelsOf ev' = [] ∧ Did s u st r m (ev ++ ev') k) F := by
  refine Spec.mono (F := fun _ => False) ?_ (fun _ _ _ h => h) fun _ _ h => h.elim
  refine (h.writeByte 0x55).andThen fun _ t1 _ h1 => ?_
  obtain ⟨ev1, a1, b1, h1⟩ := h1
  refine (h1.sendBytes (f := fun r j => byteAt (r.context c).addr j) (g := sendAddressByte c) 8
    fun _ => rfl).mono (fun _ u _ hu => ?_) fun _ _ h => h
  obtain ⟨ev2, a2, b2, -, h2⟩ := hu
  refine ⟨ev1 ++ ev2, ?_, ?_, by simpa using h2⟩
  · rw [slotsOf_append, a1, a2, firstBytes_eq_map _ _ (by omega)]
    rfl
  · rw [levelsOf_append, b1, b2]
    rfl

/-- A statement that updates a context. -/
theorem Did.writeCtx (c : BitVec 4) (f : Context → Context) (h : Did s t st r m ev k) :
    Spec (write (·.onCtx c f)) t (fun _ u => Did s u st (r.onContext c f) m ev k) F :=
  h.writeRegs fun r => r.setContext c (f (r.context c))

/-- `SetOutcome(c, o)` (R177). -/
theorem Did.setOutcome (c : BitVec 4) (o : SensorOutcome) (h : Did s t st r m ev k) :
    Spec (Machine.setOutcome c o) t (fun _ u => Did s u { st with outcome := o }
      (r.onContext c fun x => { x with outcome := o }) m ev k) F :=
  (h.writeStatus (F := F) (f := fun t => { t with outcome := o }) fun _ _ => rfl).bind (fun _ _ h => h)
    fun _ _ _ h1 => h1.writeCtx c _

/-- The loop that reads `n` bytes into a buffer of the registers, byte 0 first (R67): the levels of the
read slots are the bits of its first `n` bytes, and the others stay. -/
theorem Did.readBytes {N : Nat} {get : Regs → Vector Byte N} {put : Regs → Vector Byte N → Regs}
    {g : Nat → Cmd Unit} (n : Nat) (hn : n ≤ N) (h : Did s t st r m ev k)
    (hget : ∀ r v, get (put r v) = v) (hput : ∀ r v w, put (put r v) w = put r w)
    (hself : put r (get r) = r)
    (hg : ∀ j, g j = do
      let b ← Machine.readByte
      write (·.onRegs fun r => put r (setByte (get r) j b))) :
    Spec (upTo n g) t (fun _ u => ∃ buf ev', slotsOf ev' = List.replicate (8 * n) .read ∧
      levelsOf ev' = (firstBytes buf n).flatMap byteBits ∧
      (∀ i, n ≤ i → byteAt buf i = byteAt (get r) i) ∧ (n = 0 → ev' = []) ∧
      Did s u st (put r buf) m (ev ++ ev') k) F := by
  refine upTo_did (A := fun j u => ∃ buf ev', slotsOf ev' = List.replicate (8 * j) .read ∧
    levelsOf ev' = (firstBytes buf j).flatMap byteBits ∧
    (∀ i, j ≤ i → byteAt buf i = byteAt (get r) i) ∧ (j = 0 → ev' = []) ∧
    Did s u st (put r buf) m (ev ++ ev') k) n
    ⟨get r, [], rfl, by simp [firstBytes, levelsOf], fun _ _ => rfl, fun _ => rfl, by simpa [hself] using h⟩
    ?_
  rintro j v hj ⟨buf, ev', a1, a2, a3, -, hd⟩
  rw [hg j]
  refine hd.readByte.andThen fun b w _ hw => ?_
  obtain ⟨ev'', b1, b2, hw⟩ := hw
  refine (hw.writeRegs fun r => put r (setByte (get r) j b)).mono (fun _ u _ hu => ?_) fun _ _ h => h
  rw [hget, hput] at hu
  refine ⟨_, ev' ++ ev'', ?_, ?_, fun i hi => ?_, by simp, by simpa using hu⟩
  · rw [slotsOf_append, a1, b1, List.replicate_append_replicate]
    rfl
  · rw [levelsOf_append, a2, b2, firstBytes_setByte _ _ _ (by omega), List.flatMap_append]
    simp
  · rw [byteAt_setByte _ _ _ _ (by omega), if_neg (by omega), a3 i (by omega)]

end

end Sys2Proof.Machine
end

