-- ==== Sys2Proof/Tests/Slice0.lean ====
section
/-! SUPPORT. Small tests: operands the spec forbids are refused, words written out from 30_encoding.md
decode, vectors of 95_test_vectors.md come out, and every statement with hypotheses has a witness. -/

namespace Sys2Proof.Tests

-- one theorem at a time: the kernel checks of this file would otherwise each hold a thread
set_option Elab.async false

open Sys2Proof.Machine

/-- The state the vectors start from (95_test_vectors.md, Conventions) with the parameters of P7: OPEN_DRAIN,
Active, NUM_CTX = 4, POLL_TICKS = 250, CFG_TH = 0x4B, CFG_TL = 0x46. -/
def ready : State :=
  { State.reset with params := { numCtx := 4, pollTicks := 250, cfgTh := 0x4B, cfgTl := 0x46,
                                 tickPeriod := 1000000, jitter := 2500, blockBase := 0x40000000 }
                     pin := { mode := .openDrain, drive := true } }

/-- `ready` on a line that gives these samples and, in every wait, a rise. -/
def onLine (samples : List Bool) : State :=
  { ready with env := { ready.env with samples := samples, rises := List.replicate 200 .rose } }

/-- The levels of bytes on the line, bit 0 first. -/
def levels (l : List Byte) : List Bool := l.flatMap byteBits

/-- `s` with an address in context 0. -/
def withAddr (s : State) (a : Vector Byte 8) : State := s.setAddr 0 a

/-- `s` with context 0 converting since tick `t0`, and `n` ticks to pass before the next `Tick()`. -/
def converting (s : State) (t0 : Word) (n : Nat) : State :=
  (s.onCtx 0 fun x => { x with phase := .conversionStarted, t0 := t0 }).onEnv
    fun e => { e with tickIn := t0, elapses := [n] }

/-- The next state, or the reset state where there is none. -/
def after (o : Host.Outcome State Fault Refusal) : State :=
  match o with
  | .next t => t
  | .fault _ => State.reset
  | .refused _ => State.reset

/-- What the next step leaves when the host writes `w` to CMD. -/
def cmd (w : Word) (s : State) : State := after (step (s.withFetchWord 32 w.toNat))

/-- The events of `t`, oldest first. -/
def events (t : State) : List LineEvent := t.trace.reverse

/-- `s` with these host acts to land while a command runs. -/
def during (s : State) (l : List BusyInput) : State := s.setDuring l

/-- `s` with SEQ at the start of the command `w`. -/
def busy (s : State) (w : Word) : State := s.accept w

/-- `s` with one host input to come. -/
def asked (s : State) (i : Input) : State := s.onHost fun h => { h with queue := [i] }

/-- The ROM of vector SR1. -/
def romA : Vector Byte 8 := #v[0x28, 0xA1, 0xB2, 0xC3, 0x04, 0x00, 0x00, 0x96]

/-- The ROMs of vector SR3. -/
def rom0 : Vector Byte 8 := #v[0x28, 0x00, 0x00, 0x00, 0x00, 0x00, 0x00, 0x1E]
def rom1 : Vector Byte 8 := #v[0x28, 0x01, 0x00, 0x00, 0x00, 0x00, 0x00, 0x29]
def rom2 : Vector Byte 8 := #v[0x28, 0x02, 0x00, 0x00, 0x00, 0x00, 0x00, 0x70]

/-! ## WellFormed refuses what R86 forbids -/

theorem test_wf_writeBytes_17 : (Instr.owWriteBytes 17).wellFormed 4 = false := by decide
theorem test_wf_readBytes_17 : (Instr.owReadBytes 17).wellFormed 4 = false := by decide
theorem test_wf_crcCheck_31 : (Instr.crcCheck 31).wellFormed 4 = false := by decide
theorem test_wf_readAddress_4 : (Instr.readAddress 4).wellFormed 4 = false := by decide
theorem test_wf_select_4 : (Instr.select 4).wellFormed 4 = false := by decide
theorem test_wf_tempUpdate_15 : (Instr.tempUpdate 15).wellFormed 15 = false := by decide
theorem test_wf_configResolution_1 : (Instr.configResolution 1).wellFormed 1 = false := by decide
theorem test_wf_limits : (Instr.owWriteBytes 16).wellFormed 1 = true ∧
    (Instr.tempUpdate 15).wellFormed 16 = true := by decide

/-! ## Decoding: words written out bit by bit, OPC last (R80, R87, 95_test_vectors.md 2.1) -/

theorem test_decode_owReset :
    decodeCmd 4 0b00000000_00000000_00000000_00000001 = .ok .owReset := rfl
theorem test_decode_owWriteBit :
    decodeCmd 4 0b00000000_00000000_00000001_00000010 = .ok (.owWriteBit true) ∧
    decodeCmd 4 0b00000000_00000000_00000000_00000010 = .ok (.owWriteBit false) := by and_intros <;> rfl
theorem test_decode_owReadBit :
    decodeCmd 4 0b00000000_00000000_00000000_00000011 = .ok .owReadBit := rfl
theorem test_decode_owWriteByte :
    decodeCmd 4 0b00000000_00000000_00110011_00000100 = .ok (.owWriteByte 0x33) := rfl
theorem test_decode_owReadByte :
    decodeCmd 4 0b00000000_00000000_00000000_00000101 = .ok .owReadByte := rfl
theorem test_decode_owWriteBytes :
    decodeCmd 4 0b00000000_00010000_00000000_00000110 = .ok (.owWriteBytes 16) := rfl
theorem test_decode_owReadBytes :
    decodeCmd 4 0b00000000_00001000_00000000_00000111 = .ok (.owReadBytes 8) := rfl
theorem test_decode_crcUpdate :
    decodeCmd 4 0b00000000_00000000_00101000_00010000 = .ok (.crcUpdate 0x28) := rfl
theorem test_decode_crcCheck :
    decodeCmd 4 0b00000000_00000000_00000000_00010001 = .ok (.crcCheck 0) := rfl
theorem test_decode_searchInit :
    decodeCmd 4 0b00000000_00000000_00000000_00100000 = .ok .searchInit := rfl
theorem test_decode_searchNext :
    decodeCmd 4 0b00000000_00000000_00000000_00100001 = .ok .searchNext := rfl
theorem test_decode_readAddress :
    decodeCmd 4 0b00000010_00000000_00000000_00110000 = .ok (.readAddress 2) := rfl
theorem test_decode_select :
    decodeCmd 4 0b00000001_00000000_00000000_00110001 = .ok (.select 1) := rfl
theorem test_decode_tempUpdate :
    decodeCmd 4 0b00000011_00000000_00000000_00110010 = .ok (.tempUpdate 3) := rfl
theorem test_decode_configResolution :
    decodeCmd 16 0b00001111_00000000_00000000_00110011 = .ok (.configResolution 15) := rfl

/-- The seven wire bytes, written out bit by bit from R90's slot orders, last slot first. -/
theorem test_decode_wire :
    decodeWire 0b11110000 = .ok .searchRom ∧ decodeWire 0b00110011 = .ok .readRom ∧
    decodeWire 0b01010101 = .ok .matchRom ∧ decodeWire 0b01000100 = .ok .convertT ∧
    decodeWire 0b10111110 = .ok .readScratchpad ∧ decodeWire 0b01001110 = .ok .writeScratchpad ∧
    decodeWire 0b01001000 = .ok .copyScratchpad ∧ decodeWire 0xCC = .error .wireByte := by and_intros <;> rfl

/-- The illegal words of 95_test_vectors.md 2.1, each rejected for its reason. -/
theorem test_decode_illegal :
    decodeCmd 4 0x00000302 = .error .fields ∧ decodeCmd 4 0x00FF0004 = .error .fields ∧
    decodeCmd 4 0x00110007 = .error .length ∧ decodeCmd 4 0x00200007 = .error .fields ∧
    decodeCmd 4 0x01000021 = .error .fields ∧ decodeCmd 4 0x04000032 = .error .context ∧
    decodeCmd 4 0x10000030 = .error .fields ∧ decodeCmd 4 0x00000000 = .error .opcode ∧
    decodeCmd 4 0x00000008 = .error .opcode ∧ decodeCmd 4 0x000000FF = .error .opcode := by and_intros <;> rfl

theorem test_decodeTableWord : decodeTableWord 32 0x01000032 = some (.tempUpdate 1) ∧
    decodeTableWord 8 0x48 = some .copyScratchpad ∧ decodeTableWord 32 8 = none := by decide

/-! ## The transport (95_test_vectors.md T1 to T12) -/

theorem test_T1_writeBit1 : events (cmd 0x102 ready) =
    [.driveLow, .delay .tW1L, .release, .delay .tW1H] := by decide +kernel
theorem test_T3_writeBit0_timeout :
    let t := cmd 0x002 { ready with env := { ready.env with rises := [.timeout] } }
    events t = [.driveLow, .delay .tW0L, .release, .awaitHigh 100 .timeout] ∧
      t.readReg .status = 0 := by decide +kernel
theorem test_T4_readBit : let t := cmd 0x003 (onLine [false])
    events t = [.driveLow, .delay .tRL, .release, .delay .tRS, .sample false, .delay .tRH] ∧
      t.readReg .rdata = 0 := by decide +kernel
theorem test_T5_readBit : (cmd 0x003 (onLine [true])).readReg .rdata = 1 := by decide +kernel
theorem test_T6_writeByte : slotsOf (events (cmd 0x3304 (onLine []))) =
    [true, true, false, false, true, true, false, false].map .write := by decide +kernel
theorem test_T8_readByte :
    (cmd 0x005 (onLine [false, false, false, true, false, true, false, false])).readReg .rdata = 0x28 := by
  decide +kernel
theorem test_T9_none : events (cmd 0x006 ready) = [] ∧ events (cmd 0x007 ready) = [] := by decide +kernel
theorem test_T10_writeBytes : slotsOf (events (cmd 0x20006 ((onLine []).writeReg 0x2855 (.iobuf 0)))) =
    ([true, false, true, false, true, false, true, false] ++
      [false, false, false, true, false, true, false, false]).map .write := by decide +kernel
theorem test_P4_readBytes : let t := cmd 0x80007 (onLine (levels romA.toList))
    t.readReg (.iobuf 0) = 0xC3B2A128 ∧ t.readReg (.iobuf 1) = 0x96000004 := by decide +kernel
theorem test_T12_readBytes_rest :
    (cmd 0x90007 ((onLine (List.replicate 72 true)).writeReg 0xAABBCCDD (.iobuf 2))).readReg (.iobuf 2) =
      0xAABBCCFF := by decide +kernel

/-- R90: 0xBE is 0,1,1,1,1,1,0,1 in slot order; the byte engine was handed it. -/
theorem test_wire_readScratchpad : slotsOf (events (after (step ((onLine []).withFetchWord 8 0xBE)))) =
    [false, true, true, true, true, true, false, true].map .write := by decide +kernel

/-! ## The CRC (95_test_vectors.md E1, E2, CR1 to CR9) -/

theorem test_CR1 : crcUpdate 0 0x01 = 0x5E ∧ crcUpdate 0 0x80 = 0x8C ∧ crcUpdate 0 0xFF = 0x35 := by decide +kernel
theorem test_CR3 : (cmd 0x2810 ready).readReg .crcAcc = 0xE1 := by decide +kernel
theorem test_CR4 : crcOf (List.replicate 8 0xFF) = 0xC9 ∧ crcOf (List.replicate 9 0xFF) = 0x63 := by decide +kernel
theorem test_CR5 : crcOf [0x5E, 0xFF, 0x4B, 0x46, 0x3F, 0xFF, 0x02, 0x10] = 0x56 := by decide +kernel
theorem test_E1 : crcCheck romA.toList = (true, 0) ∧ crcOf (rom0.toList.take 7) = 0x1E := by decide +kernel
theorem test_P3_check7 : let t := cmd 0x70011 (ready.writeReg 0x28 (.iobuf 0))
    t.readReg .crcAcc = 0x1E ∧ t.readReg .status = 0 := by decide +kernel
theorem test_P3_check8 :
    let t := cmd 0x80011 ((ready.writeReg 0x28 (.iobuf 0)).writeReg 0x1E000000 (.iobuf 1))
    t.readReg .crcAcc = 0 ∧ t.readReg .status = 0x200 := by decide +kernel

/-! ## Reset and presence (95_test_vectors.md RP1 to RP3) -/

theorem test_RP1 : let t := cmd 1 (onLine [false])
    t.readReg .status = 0x100 ∧ events t = [.driveLow, .delay .tRSTL, .release, .awaitHigh 100 .rose,
      .delay .tPDW, .sample false, .delay .tRSTT] := by decide +kernel
theorem test_RP2 : (cmd 1 (onLine [true])).readReg .status = 0x010 := by decide +kernel
theorem test_RP3 : (cmd 1 { ready with env := { ready.env with rises := [.timeout] } }).readReg .status =
    0x020 := by decide +kernel

/-! ## The search (95_test_vectors.md SR1, SR3) -/

theorem test_searchInit : let t := cmd 0x20 { ready with regs := { ready.regs with fork := 9, curAddr := romA } }
    t.readReg .fork = 65 ∧ t.readReg .curAddrLo = 0 := by decide +kernel
theorem test_SR1_found :
    let t := cmd 0x21 (onLine (false :: refLevels [romA] 65 zeroAddr 64))
    t.readReg .status = 0x700 ∧ t.regs.srchResult = romA ∧ t.readReg .fork = 0 := by decide +kernel
theorem test_SR1_exhausted :
    let t := cmd 0x21 { ready with regs := { ready.regs with fork := 0, srchResult := romA }
                                   status := { ready.status with presence := true, crcOk := true } }
    t.readReg .status = 0x350 ∧ t.regs.srchResult = romA := by decide +kernel
theorem test_SR3_order : (refSearch [rom0, rom1, rom2] 3 zeroAddr 65).1 = [rom0, rom2, rom1] := by
  decide +kernel

/-! ## The session commands (95_test_vectors.md Q1 to Q13, P2, P6, P7) -/

theorem test_Q1_decode : decodeTemp 0x50 0x05 0x28 = (0x0550, 0x42AA0000) ∧
    decodeTemp 0xAA 0x00 0x10 = (0x00AA, 0x42AA0000) ∧ decodeTemp 0x5E 0xFF 0x28 = (0xFF5E, 0xC1220000) ∧
    decodeTemp 0x91 0x01 0x28 = (0x0191, 0x41C88000) ∧ decodeTemp 0x90 0xFC 0x28 = (0xFC90, 0xC25C0000) ∧
    decodeTemp 0xD0 0x07 0x22 = (0x07D0, 0x42FA0000) ∧ decodeTemp 0x00 0x00 0x28 = (0, 0) ∧
    decodeTemp 0xFF 0xFF 0x10 = (0xFFFF, 0xBF000000) := by decide +kernel
theorem test_Q1_decode_more : decodeTemp 0xFF 0xFF 0x28 = (0xFFFF, 0xBD800000) ∧
    decodeTemp 0x01 0x00 0x28 = (0x0001, 0x3D800000) ∧ decodeTemp 0x00 0x80 0x28 = (0x8000, 0xC5000000) ∧
    decodeTemp 0xFF 0x7F 0x28 = (0x7FFF, 0x44FFFE00) ∧ decodeTemp 0x92 0xFF 0x10 = (0xFF92, 0xC25C0000) ∧
    decodeTemp 0x32 0x00 0x10 = (0x0032, 0x41C80000) ∧ decodeTemp 0xFF 0x7F 0x10 = (0x7FFF, 0x467FFE00) ∧
    decodeTemp 0x00 0x80 0x10 = (0x8000, 0xC6800000) := by decide +kernel
theorem test_Q2_readAddress : let t := cmd 0x30 (onLine (false :: levels romA.toList))
    t.readReg (.ctxAddrLo 0) = 0xC3B2A128 ∧ t.readReg (.ctxCtl 0) = 0x28 ∧ t.readReg .status = 0x300 := by
  decide +kernel
theorem test_Q4_readAddress_crc :
    let t := cmd 0x30 (withAddr (onLine (false :: levels [0x28, 0, 0, 0, 0, 0, 0, 0x08])) romA)
    t.readReg .status = 0x2130 ∧ (t.regs.context 0).addr = zeroAddr := by decide +kernel
theorem test_Q6_select : slotsOf (events (cmd 0x31 (withAddr (onLine []) rom0))) =
    bytesSlots [0x55, 0x28, 0, 0, 0, 0, 0, 0, 0x1E] := by decide +kernel
theorem test_P6_start :
    let t := cmd 0x32 { (onLine [false]).writeReg 1 .config with
      env := { (onLine [false]).env with elapses := [5000] } }
    t.readReg .status = 0x1100 ∧ t.readReg .config = 3 ∧ t.readReg (.ctxT0 0) = 5000 ∧
      t.readReg (.ctxCtl 0) = 0x300 := by decide +kernel
theorem test_P2_read : let t := cmd 0x32 (converting (withAddr (onLine (false ::
      levels [0x50, 0x05, 0x4B, 0x46, 0x7F, 0xFF, 0x0C, 0x10, 0x1C])) romA) 1000 250)
    t.readReg .status = 0x300 ∧ t.readReg (.ctxTempRaw 0) = 0x550 ∧
      t.readReg (.ctxTempF32 0) = 0x42AA0000 ∧ t.readReg (.ctxCtl 0) = 0x28 := by decide +kernel
theorem test_P7_configure : let t := cmd 0x33 (withAddr (onLine [false, false]) romA)
    slotsOf (events t) = .reset :: bytesSlots ([0x55] ++ romA.toList ++ [0x4E, 0x4B, 0x46, 0x3F]) ++
      .reset :: bytesSlots ([0x55] ++ romA.toList ++ [0x48]) ∧ t.readReg .status = 0x100 := by decide +kernel
theorem test_Q13_skipped : events (cmd 0x33 ready) = [] := by decide +kernel

/-- Q11: the gate is open after 505 ticks across the wrap and closed after 249. -/
theorem test_Q11_gate : gateOpen 0x000000F9 0xFFFFFF00 250 = true ∧
    gateOpen 0xFFFFFFF9 0xFFFFFF00 250 = false := by decide

/-! ## Faults and the host interface (95_test_vectors.md X1 to X8) -/

theorem test_X1_illegal : let t := cmd 0x08 { ready with status := { ready.status with presence := true } }
    t.readReg .status = 0x160 ∧ events t = [] := by decide +kernel
theorem test_X2_ovr :
    let t := cmd 0x2810 (during ready [⟨0, .write 2 1⟩])
    t.readReg .status = 0x800 ∧ t.readReg .config = 0 ∧ t.readReg .crcAcc = 0xE1 := by decide +kernel
theorem test_X4_byteAccess :
    step (asked ready (.write ⟨0, 8⟩ 1)) = .refused .unsupportedAccess := rfl
theorem test_X6_rst : let t := cmd 0x21 (during (onLine []) [⟨9, .rst⟩])
    t.readReg .fork = 65 ∧ t.readReg .config = 4 ∧ t.seq = .idle := by decide +kernel
theorem test_X8_config : let t := ready.writeReg 6 .config
    t.pin.mode = .openDrain ∧ t.regs.powerMode = .active := by decide +kernel

/-- R27, R104: every write of LINE_MODE is a `set_mode` event, and the value 3 is none. -/
theorem test_config_events : events (ready.writeReg 2 .config) = [.setMode .strongPullup] ∧
    events (ready.writeReg 1 .config) = [.setMode .openDrain] ∧
    events (ready.writeReg 7 .config) = [] := by decide

/-- R4: a tick of 1 ms gives 250 ticks, one of 1/32768 s gives 8192, and one of 300 ms gives 1. -/
theorem test_pollTicks : ready.params.wf ∧ Timing.pollTicks (1000000000 / 32768) = 8192 ∧
    Timing.pollTicks 300000000 = 1 := by decide +kernel

/-- R92 in reset (R230, log 15): CRC_SEED writes nothing and a word sent to CMD runs no command. -/
theorem test_pseudo_in_reset : let s := ready.setRst true
    after (runInputs (crcSeedInputs 0xA5 ++ issueInputs 0x1) s) = s := by decide +kernel

/-- R60: the block's 1 KiB stands at BLOCK_BASE. -/
theorem test_accessAt : accessAt ready.params 0x40000008 32 = some ⟨8, 32⟩ ∧
    accessAt ready.params 0x40000400 32 = none ∧ accessAt ready.params 0x3FFFFFFC 32 = none := by decide

/-- R255: a reset lasts 1000 microseconds and a read slot 90. -/
theorem test_nominal : nominalLength (resetEvents (some false)) = 1000000 ∧
    nominalLength (readEvents true) = 90000 ∧ nominalLength (writeEvents false .rose) = 91000 := by decide

/-- R110: the nominal read slot allows an overrun of 2.5 microseconds and no more. -/
theorem test_jitter : Timing.nominal.readSlotOk 2500 ∧ ¬ Timing.nominal.readSlotOk 2501 := by decide

/-! ## Witnesses: for every statement with hypotheses, a state and operands that meet them together, at the
boundary values of its clauses -/

/-- A state during whose next command the host reads CUR_ADDR_LO and writes CONFIG. -/
def pestered : State := during (onLine [false, true]) [⟨0, .read 6⟩, ⟨3, .write 2 1⟩]

/-- A state whose context 3 holds `romA`, of family 0x28, and whose context 1 has an address of family
0x22. -/
def addressed : State := (pestered.setAddr 3 romA).setAddr 1 (setByte zeroAddr 0 0x22)

theorem witness_DecodeOfEncodeIsTheInstruction : (Instr.owReadBytes 16).wellFormed 1 = true ∧
    (Instr.owReadBytes 0).wellFormed 1 = true ∧ (Instr.select 15).wellFormed 16 = true ∧
    Instr.copyScratchpad.wellFormed 1 = true := by decide
theorem witness_EncodeOfDecodeIsTheWord : decodeCmd 4 0x03000032 = .ok (.tempUpdate 3) ∧
    decodeCmd 1 0x0000FF04 = .ok (.owWriteByte 0xFF) := by and_intros <;> rfl
theorem witness_LegalWordsAreTheMatchedRows :
    (0x00200007 : Word).extractLsb' 21 3 ≠ 0 ∧ (0x80000030 : Word).extractLsb' 28 4 ≠ 0 ∧
    (∀ r ∈ rows, opcOf r.pattern ≠ opcOf 0x34) ∧ (∀ r ∈ rows, opcOf r.pattern ≠ opcOf 0) := by decide
theorem witness_StepRunsTheDecodedInstruction :
    let s := asked pestered (.write ⟨0, 32⟩ 0x03000032)
    s.rstIn = false ∧ s.engine.tx = none ∧ s.seq = .idle ∧
      s.host.queue = .write ⟨0, 32⟩ 0x03000032 :: [] ∧
      decodeCmd s.params.numCtx 0x03000032 = .ok (.tempUpdate 3) := by and_intros <;> rfl
theorem witness_StepRunsTheDecodedInstruction_wire :
    let s := pestered.withPendingByte 0x48
    s.rstIn = false ∧ s.engine.tx = some 0x48 ∧ decodeWire 0x48 = .ok .copyScratchpad := by
  and_intros <;> rfl
theorem witness_IllegalWordRecordsIllegalAndNothingElse :
    pestered.NoReset ∧ decodeCmd pestered.params.numCtx 0x04000032 = .error .context :=
  ⟨by decide, rfl⟩
theorem witness_EveryCommandFinishes : Instr.owReset.isCommand = true ∧
    (Instr.configResolution 15).isCommand = true := by decide
theorem witness_BusyWritesAreDroppedAndSetOvr : (busy ready 0x21).seq ≠ .idle ∧ regAt 4 0 ≠ .status ∧ regAt 4 255 ≠ .status ∧
    regAt 4 1 = .status := by decide
theorem witness_HostWritesDoNotDisturbACommand :
    ∀ b ∈ (during ready [⟨0, .write 0 1⟩, ⟨3, .write 1 0x800⟩]).host.during,
      ∃ r v, b.act = .write r v := by
  intro b hb
  simp only [during, State.setDuring, State.onHost, List.mem_cons, List.not_mem_nil, or_false] at hb
  rcases hb with rfl | rfl <;> exact ⟨_, _, rfl⟩
theorem witness_HostReadsReturnTheRegister : (asked pestered (rd 255)).Asks (rd 255) ∧ ready.seq = .idle ∧
    regAt (busy ready 0x21).params.numCtx 1 = .status ∧ (busy ready 0x21).seq ≠ .idle ∧
    regAt (busy ready 0x21).params.numCtx 0 ≠ .status := by decide
theorem witness_AccessesOfAnotherShapeAreRefused :
    ready.engine.tx = none ∧ (asked ready (.read ⟨0x3FC, 32⟩)).host.queue = [.read ⟨0x3FC, 32⟩] ∧
    (asked ready (.write ⟨3, 32⟩ 0)).host.queue = [.write ⟨3, 32⟩ 0] ∧
    (asked ready (.rst true)).host.queue = [.rst true] := by decide
theorem witness_ReservedAndReadOnlyRegisters :
    (asked pestered (wr 4 0xA5)).Asks (wr 4 0xA5) ∧ (0x264, .ctxAddrHi 15) ∈ registerMap 16 ∧
    4 * (0x99 : BitVec 8).toNat = 0x264 ∧ 4 * (0xFF : BitVec 8).toNat ∉ (registerMap 16).map (·.1) ∧
    regAt 4 10 = .reserved ∧ regAt 4 15 = .reserved ∧ regAt 4 20 = .reserved ∧ regAt 4 31 = .reserved ∧
    regAt 4 38 = .reserved ∧ regAt 4 64 = .reserved ∧ regAt 16 255 = .reserved ∧ regAt 4 0 ≠ .status ∧
    regAt 4 2 ≠ .status := by decide
theorem witness_WritableRegistersReadBack :
    (∀ r ∈ [(16 : BitVec 8), 19, 32, 57, 4],
      (asked pestered (wr r 0x11223344)).Asks (wr r 0x11223344)) ∧ pestered.seq = .idle ∧
    regAt 4 16 = .iobuf 0 ∧ regAt 4 19 = .iobuf 3 ∧ regAt 4 32 = .ctxAddrLo 0 ∧
    regAt 4 57 = .ctxAddrHi 3 ∧ regAt 4 4 = .crcAcc ∧ Reg.status ≠ .crcAcc := by decide
theorem witness_ConfigWriteSetsBothModes :
    ∀ v ∈ [(0 : Word), 1, 4, 6, 7], (asked pestered (wr 2 v)).Asks (wr 2 v) ∧
      (asked pestered (wr 2 v)).seq = .idle ∧ (asked pestered (wr 2 v)).Closed ∧
      (after (step (asked pestered (wr 2 0)))).pin.mode = (asked pestered (wr 2 0)).pin.mode :=
  fun _ _ => ⟨⟨rfl, rfl, rfl⟩, rfl, ⟨rfl, fun _ => rfl⟩, rfl⟩
theorem witness_ResetInputLoadsTheResetValues : let s := asked pestered (.rst true)
    s.rstIn = false ∧ s.engine.tx = none ∧ s.host.queue = .rst true :: [] := by decide
theorem witness_ResetInputAbandonsACommand :
    let s := during (busy ready 0x21) [⟨0, .rst⟩, ⟨0, .rst⟩]
    s.seq = .busy 0x21 0 ∧ s.host.during = ⟨0, .rst⟩ :: [⟨0, .rst⟩] ∧ s.rstIn = false := by decide
/-- The second clause: an `rst` in the middle of a byte. -/
theorem witness_ResetInputAbandonsACommand_later :
    let s := during (busy (onLine []) 0x3304) [⟨9, .rst⟩]
    s.rstIn = false ∧ (after (exec (.owWriteByte 0x33) s)).rstIn = true := by decide +kernel
/-- The third clause: an `rst` due after the command's last statement, and one before it. -/
theorem witness_ResetInputAbandonsACommand_due :
    let s := during (busy (onLine []) 0x102) [⟨5, .rst⟩]
    let s' := during (busy (onLine []) 0x102) [⟨3, .rst⟩]
    s.rstIn = false ∧ s.seq = .busy 0x102 0 ∧ s.host.during = [⟨5, .rst⟩] ∧
      (after (exec (.owWriteBit true) s)).rstIn = false ∧
      (after (exec (.owWriteBit true) s')).trace =
        [.setMode .analog, .release, .delay .tW1L, .driveLow] := by decide +kernel
theorem witness_NothingRunsWhileResetIsAsserted :
    let s := (asked ready (.write ⟨0, 32⟩ 0x21)).setRst true
    s.rstIn = true ∧ (after (step s)).host.queue = [] ∧ .rst false ∉ copyFoundInputs 3 s ∧
      (after (runInputs (copyFoundInputs 3 s) s)).host.reads.length = 2 := by decide +kernel
theorem witness_CopyFoundStoresTheSearchResult :
    pestered.rstIn = false ∧ pestered.seq = .idle ∧ (3 : BitVec 4).toNat < pestered.params.numCtx ∧ pestered.params.numCtx ≤ 16 := by
  decide
theorem witness_SetBitWritesOnePosition : (1 : Nat) ≤ 1 ∧ (64 : Nat) ≤ 64 ∧ (1 : Nat) ≤ 64 := by decide

/-- The hypothesis of every statement about a command that needs nothing but that no `rst` lands: OW_WRITE_BIT,
OW_READ_BIT, OW_WRITE_BYTE, OW_READ_BYTE, the wire bytes, TransfersLeaveEveryOtherRegister, CRC_UPDATE,
OW_RESET and SEARCH_INIT. -/
theorem witness_NoReset : pestered.NoReset ∧ pestered.host.during ≠ [] ∧ ready.NoReset ∧ ready.Quiet := by
  decide
theorem witness_OwWriteBitSendsOneSlot : pestered.NoReset ∧ pestered.env.rises = .rose :: List.replicate 199 .rose := by
  decide +kernel
theorem witness_OwReadBitReadsOneSlot : pestered.NoReset ∧ pestered.env.samples = false :: [true] := by decide
theorem witness_OwWriteByteSendsLsbFirst : pestered.NoReset := by decide
theorem witness_OwReadByteAssemblesLsbFirst :
    (onLine (byteBits 0x28)).NoReset ∧ (onLine (byteBits 0x28)).env.samples = byteBits 0x28 ++ [] := by decide
theorem witness_OwWriteBytesSendsTheBuffer :
    (16 : BitVec 5).toNat ≤ 16 ∧ (0 : BitVec 5).toNat ≤ 16 ∧ pestered.NoReset := by decide
theorem witness_OwReadBytesFillsTheBuffer :
    (16 : BitVec 5).toNat ≤ 16 ∧ (0 : BitVec 5).toNat ≤ 16 ∧ pestered.NoReset := by decide
theorem witness_WireBytesAreSentLsbFirst : pestered.NoReset ∧
    (Instr.readScratchpad, (0xBE : Byte)) ∈ [(Instr.readScratchpad, (0xBE : Byte))] := by decide
theorem witness_TransfersLeaveEveryOtherRegister : pestered.NoReset := by decide
theorem witness_CrcUpdateFoldsOneByte : pestered.NoReset := by decide
theorem witness_CrcCheckChecksTheBuffer :
    (16 : BitVec 5).toNat ≤ 16 ∧ (0 : BitVec 5).toNat ≤ 16 ∧ pestered.NoReset := by decide
theorem witness_CrcUpdateIsLinear : crcUpdate 0 0x28 = crcUpdate 0 0x28 := rfl
theorem witness_CrcDetectsEveryByteChange : (0x1E : Byte) ≠ 0x1F ∧
    (crcCheck (rom0.toList.take 7 ++ 0x1E :: [])).1 = true ∧ (crcCheck [0]).1 = true := by decide +kernel
theorem witness_OwResetReportsPresence : pestered.NoReset ∧
    pestered.env.rises = .rose :: List.replicate 199 .rose ∧ pestered.env.samples = false :: [true] := by
  decide +kernel
theorem witness_SearchInitStartsFresh : pestered.NoReset := by decide
theorem witness_SearchNextExhausted :
    let s := pestered.setFork 0
    s.NoReset ∧ s.regs.fork = 0 := by decide
theorem witness_BranchFollowsTheTable : (1 : Nat) ≤ 1 ∧ (64 : Nat) ≤ 64 ∧ (1 : Nat) < 65 ∧ (9 : Nat) = 9 ∧
    (63 : Nat) < 64 := by decide
theorem witness_SearchNextRunsOnePass : pestered.NoReset ∧ pestered.regs.fork ≠ 0 ∧
    (pestered.setFork 1).regs.fork ≠ 0 := by decide
theorem witness_SearchNextFollowsTheReferenceBus :
    let s := onLine (false :: refLevels [rom0, rom1] 65 zeroAddr 64)
    s.NoReset ∧ s.regs.fork ≠ 0 ∧ s.env.rises = .rose :: List.replicate 199 .rose ∧
      (refPass [rom0, rom1] s.regs.fork.toNat s.regs.curAddr 64).isSome = true ∧
      s.env.samples = false :: refLevels [rom0, rom1] s.regs.fork.toNat s.regs.curAddr 64 ++ [] := by
  decide +kernel
theorem witness_SearchEnumeratesEveryDevice : [rom0, rom1, rom2] ≠ [] ∧ [rom0, rom1, rom2].Nodup := by decide
theorem witness_SearchFindsAddressesInOrder : [romA] ≠ [] ∧ [romA].Nodup := by decide
/-- Vector SR6: the second pass over two devices was cut at position 10. -/
theorem witness_RetryFindsTheSameAddress :
    (9 : Nat) ≤ 64 ∧ (refPass [rom0, rom1] 9 rom0 64).map (·.cur) = some rom1 ∧
    (∀ q ∈ List.range' 1 9, posBit (setPosBit rom0 9 true) q = posBit rom1 q) ∧
    ∀ q ∈ List.range' 10 55, posBit (setPosBit rom0 9 true) q = posBit rom0 q := by decide +kernel
theorem witness_OnlyTheSearchWritesTheCursor : ready.NoReset ∧
    (after (exec .searchInit ready)).regs.fork = 65 ∧
    (exec .searchInit ready = .next (after (exec .searchInit ready))) ∧ Instr.owReset ≠ .searchInit :=
  ⟨by decide, by decide +kernel, rfl, by decide⟩
theorem witness_SelectSendsTheAddress :
    (3 : BitVec 4).toNat < addressed.params.numCtx ∧ (0 : BitVec 4).toNat < addressed.params.numCtx ∧
      addressed.NoReset := by decide
theorem witness_ReadAddressKeepsOnlyAValidAddress :
    (3 : BitVec 4).toNat < addressed.params.numCtx ∧ addressed.NoReset := by decide
theorem witness_TempUpdateStartsAConversion :
    (3 : BitVec 4).toNat < addressed.params.numCtx ∧ addressed.NoReset ∧
      (addressed.regs.context 3).phase = .idle := by decide
theorem witness_TempUpdateBeforeTheInterval : let s := converting pestered 0xFFFFFFFF 249
    (0 : BitVec 4).toNat < s.params.numCtx ∧ s.NoReset ∧ (s.regs.context 0).phase = .conversionStarted ∧
      s.env.elapses = 249 :: [] ∧
      (s.env.tickIn + BitVec.ofNat 32 249 - (s.regs.context 0).t0).toNat < s.params.pollTicks := by decide
theorem witness_TempUpdateReadsTheScratchpad : let s := converting pestered 0xFFFFFFFF 250
    (0 : BitVec 4).toNat < s.params.numCtx ∧ s.NoReset ∧ (s.regs.context 0).phase = .conversionStarted ∧
      s.env.elapses = 250 :: [] ∧
      s.params.pollTicks ≤ (s.env.tickIn + BitVec.ofNat 32 250 - (s.regs.context 0).t0).toNat := by decide
theorem witness_ConfigResolutionRunsTwoTransactions :
    (3 : BitVec 4).toNat < addressed.params.numCtx ∧ addressed.NoReset ∧
      (addressed.regs.context 3).family = 0x28 ∧ (addressed.regs.context 1).family = 0x22 ∧
      (1 : BitVec 4).toNat < addressed.params.numCtx ∧ (addressed.regs.context 0).family ≠ 0x28 ∧
      (addressed.regs.context 0).family ≠ 0x22 := by decide
theorem witness_TemperatureIsExact : (decodeTemp 1 0 0x28).2 ≠ 0 ∧ (decodeTemp 0 0x80 0x10).2 ≠ 0 := by
  decide
theorem witness_OnlyTempUpdateMovesTheSensorState : ready.NoReset ∧
    exec .owReset pestered = .next (after (exec .owReset pestered)) ∧ Instr.owReset ≠ .tempUpdate 3 :=
  ⟨by decide, rfl, by decide⟩
theorem witness_StepsKeepParametersAndHistory :
    step (asked pestered (.rst true)) = .next (after (step (asked pestered (.rst true)))) := rfl
theorem witness_FaultCodesBelongToTheirCommands : pestered.NoReset ∧
    (Instr.crcCheck 16).wellFormed pestered.params.numCtx = true ∧
    exec (.crcCheck 16) pestered = .next (after (exec (.crcCheck 16) pestered)) :=
  ⟨by decide, by decide, rfl⟩
/-- FlagsBelongToTheirCommands, DataRegistersBelongToTheirCommands and OnlyTempUpdateChangesTheLineMode:
commands that write PRESENCE, CRC_OK, RDATA and the mode. -/
theorem witness_FlagsBelongToTheirCommands : pestered.NoReset ∧
    (after (exec .owReset (onLine [false]))).status.presence ≠ ready.status.presence ∧
    (after (exec (.crcCheck 0) ready)).status.crcOk ≠ ready.status.crcOk := by decide +kernel
theorem witness_DataRegistersBelongToTheirCommands : (onLine [true]).NoReset ∧
    (after (exec .owReadBit (onLine [true]))).regs.rdata ≠ (onLine [true]).regs.rdata := by decide +kernel
theorem witness_OnlyTempUpdateChangesTheLineMode :
    let s := (onLine [false]).writeReg 1 .config
    s.NoReset ∧ (after (exec (.tempUpdate 0) s)).pin.mode ≠ s.pin.mode := by decide +kernel
theorem witness_AnIdleBlockDoesNothing :
    ready.seq = .idle ∧ ready.engine.tx = none ∧ ready.host.queue = [] := by decide

/-- EveryStepKeepsTheBlockWellFormed: a state other than reset that is well-formed and takes a step. -/
theorem witness_EveryStepKeepsTheBlockWellFormed :
    let s := asked (State.reset.writeReg 0 .config) (.write ⟨0, 32⟩ 0x21)
    s.Wf ∧ step s = .next (after (step s)) :=
  ⟨⟨State.reset_params_wf, by decide +kernel, by decide +kernel, ⟨rfl, fun _ => rfl⟩, by decide +kernel, by decide +kernel,
    fun c => ⟨0, by revert c; decide +kernel⟩⟩, rfl⟩

end Sys2Proof.Tests
end

/-! PROOFS of the family Scope (00_scope.md R4, R8). `Evolves` is the one relation between a state of the block
and a later one: the parameters stay, the trace only grows, and a well-formed state stays well-formed. `Keeps`
says it of a piece of pseudocode, however that ends. Every command is built of pieces that keep it, so every
step does. -/

namespace Sys2Proof.Machine

/-! ## The registers' part of the invariant -/

/-- TEMP_F32 belongs to TEMP_RAW (R33, R178): the clause `State.Wf.tempOk` of one context. -/
def Context.TempOk (x : Context) : Prop := ∃ fam, x.tempF32 = tempOf x.tempRaw fam

/-- What `State.Wf` asks of the registers of a block with `n` contexts. -/
structure Regs.Wf (n : Nat) (r : Regs) : Prop where
  forkLe : r.fork.toNat ≤ 65
  noContext : ∀ c : BitVec 4, n ≤ c.toNat → r.context c = Context.reset
  tempOk : ∀ c : BitVec 4, (r.context c).TempOk

theorem State.Wf.regsWf {s : State} (h : s.Wf) : s.regs.Wf s.params.numCtx :=
  ⟨h.forkLe, h.noContext, h.tempOk⟩

theorem Context.tempOk_reset : Context.reset.TempOk := ⟨0, by decide⟩

theorem Regs.context_reset (c : BitVec 4) (sp : Vector Byte 9) :
    ({ Regs.reset with sp := sp } : Regs).context c = Context.reset := by
  simp [Regs.context, Regs.reset, Vector.get]

theorem Regs.wf_reset (n : Nat) (sp : Vector Byte 9) : ({ Regs.reset with sp := sp } : Regs).Wf n where
  forkLe := show Config.forkFresh.toNat ≤ 65 by decide
  noContext c _ := Regs.context_reset c sp
  tempOk c := by
    rw [Regs.context_reset]
    exact Context.tempOk_reset

section
variable {n : Nat} {r r' : Regs}

/-- Of the registers only FORK and the contexts are constrained. -/
theorem Regs.Wf.of_same (h : r.Wf n) (hf : r'.fork = r.fork) (hc : r'.ctx = r.ctx) : r'.Wf n := by
  have hx (c : BitVec 4) : r'.context c = r.context c := by rw [Regs.context, Regs.context, hc]
  exact ⟨hf ▸ h.forkLe, fun c hn => (hx c).trans (h.noContext c hn), fun c => hx c ▸ h.tempOk c⟩

/-- A context that exists may change as long as its TEMP_F32 belongs to its TEMP_RAW. -/
theorem Regs.Wf.onContext {c : BitVec 4} {f : Context → Context} (h : r.Wf n) (hc : c.toNat < n)
    (hf : (f (r.context c)).TempOk) : (r.onContext c f).Wf n where
  forkLe := h.forkLe
  noContext d hd := by
    have hdc : d ≠ c := fun e => by subst e; omega
    rw [Regs.onContext, context_setContext, if_neg hdc, h.noContext d hd]
  tempOk d := by
    rw [Regs.onContext, context_setContext]
    split
    · exact hf
    · exact h.tempOk d

end

/-! ## What any time of the block does -/

/-- What holds between a state and every later one: no parameter changes (R4), no line event is taken back
(R8), and the invariant is kept. -/
structure Evolves (s t : State) : Prop where
  params : t.params = s.params
  grows : ∃ ev, s.Emitted t ev
  wf : s.Wf → t.Wf

theorem Evolves.refl (s : State) : Evolves s s := ⟨rfl, ⟨[], rfl⟩, id⟩

theorem Evolves.trans {s t u : State} (h : Evolves s t) (k : Evolves t u) : Evolves s u where
  params := k.params.trans h.params
  grows := by
    obtain ⟨a, ha⟩ := h.grows
    obtain ⟨b, hb⟩ := k.grows
    exact ⟨a ++ b, ha.trans hb⟩
  wf := k.wf ∘ h.wf

section
variable {s t u : State}

/-- An update that shows nothing on the line and leaves the pin and the micro-state as they are. -/
theorem Evolves.of_same (hp : t.params = s.params) (hm : t.engine.micro = s.engine.micro)
    (hpin : t.pin = s.pin) (ht : t.trace = s.trace) (hb : s.Wf → (t.status.busy = true ↔ t.seq ≠ .idle))
    (hr : s.Wf → t.regs.Wf s.params.numCtx) : Evolves s t where
  params := hp
  grows := ⟨[], by simp [State.Emitted, ht]⟩
  wf h := by
    obtain ⟨hfork, hctx, htemp⟩ := hr h
    exact ⟨hp ▸ h.paramsOk, hb h, hfork, ⟨hm.trans h.closed.microIdle, hpin ▸ h.closed.released⟩,
      hp ▸ hctx, by rw [hpin, ht, h.modeIsLast], htemp⟩

/-- An update of the registers. -/
theorem Evolves.onRegs {f : Regs → Regs} (hf : s.regs.Wf s.params.numCtx → (f s.regs).Wf s.params.numCtx) :
    Evolves s (s.onRegs f) :=
  .of_same rfl rfl rfl rfl (·.busyIffSeq) (hf ·.regsWf)

/-- An update of the flags other than BUSY. -/
theorem Evolves.onStatus {f : Status → Status} (hf : (f s.status).busy = s.status.busy) :
    Evolves s (s.onStatus f) :=
  .of_same rfl rfl rfl rfl (fun h => by rw [State.onStatus_status, hf]; exact h.busyIffSeq) (·.regsWf)

/-- What the host acts of R38 and R39 leave, when SEQ does not pass between IDLE and BUSY. -/
theorem Pass.evolves (h : Pass s t) (hq : t.seq = .idle ↔ s.seq = .idle) : Evolves s t :=
  .of_same h.params (by rw [h.engine]) h.pin h.trace
    (fun w => by
      have hb : t.status.busy = s.status.busy := by rw [h.status]
      rw [hb]
      exact w.busyIffSeq.trans (not_congr hq.symm))
    fun w => by rw [h.regs]; exact w.regsWf

theorem Later.evolves (h : Later s t) : Evolves s t := h.toPass.evolves h.idle

/-- What a piece of a command has done, with BUSY as it was and registers that are as the invariant asks. -/
theorem Did.evolves {st : Status} {r : Regs} {m : LineMode} {ev : List LineEvent} {k : Word × List Nat}
    (h : Did s t st r m ev k) (hb : st.busy = s.status.busy)
    (hr : s.regs.Wf s.params.numCtx → r.Wf s.params.numCtx) : Evolves s t where
  params := h.params
  grows := h.grows
  wf w := by
    obtain ⟨hfork, hctx, htemp⟩ := hr w.regsWf
    have hbusy : t.status.busy = s.status.busy := by rw [h.status, ← hb]
    have hseq : t.status.busy = true ↔ t.seq ≠ .idle := by
      rw [hbusy]
      exact w.busyIffSeq.trans (not_congr h.idle.symm)
    exact ⟨h.params ▸ w.paramsOk, hseq, h.regs ▸ hfork, h.closed w.closed,
      by rw [h.params, h.regs]; exact hctx, h.toBase.modeIsLast w.modeIsLast, h.regs ▸ htemp⟩

/-- `finish` (R36): SEQ and BUSY change together. -/
theorem Evolves.endCommand (s : State) : Evolves s s.endCommand :=
  .of_same rfl rfl rfl rfl (fun _ => by simp) (·.regsWf)

/-- The acceptance of a word (R37): SEQ and BUSY change together. -/
theorem Evolves.accept (w : Word) (s : State) : Evolves s (s.accept w) :=
  .of_same rfl rfl rfl rfl (fun _ => by simp) (·.regsWf)

theorem emitted_applyReset (s : State) : ∃ ev, s.Emitted s.applyReset ev := by
  by_cases hm : s.pin.mode = .analog
  · exact ⟨[], by simp [State.Emitted, State.applyReset, hm]⟩
  · exact ⟨[.setMode .analog], by simp [State.Emitted, State.applyReset, hm]⟩

/-- The reset values (R41, R230) meet the invariant; the parameters and the trace are not reset. -/
theorem wf_applyReset (hp : s.params.wf) (hm : s.pin.mode = lastMode s.trace) : s.applyReset.Wf := by
  have hr := Regs.wf_reset s.params.numCtx (Config.freeScratchpad s.env.draws)
  refine ⟨hp, ?_, hr.forkLe, ⟨rfl, fun _ => rfl⟩, hr.noContext, ?_, hr.tempOk⟩
  · simp [State.applyReset, State.reset, Status.reset]
  · change LineMode.analog = lastMode (if s.pin.mode = .analog then s.trace else .setMode .analog :: s.trace)
    split
    · rw [← hm, ‹s.pin.mode = .analog›]
    · rfl

/-- An assertion of `rst` (R230) in the middle of a command, where the rest of the invariant need not hold. -/
theorem Base.evolves_applyReset (h : Base s t) : Evolves s t.applyReset where
  params := h.params
  grows := by
    obtain ⟨a, ha⟩ := h.grows
    obtain ⟨b, hb⟩ := emitted_applyReset t
    exact ⟨a ++ b, ha.trans hb⟩
  wf w := wf_applyReset (h.params ▸ w.paramsOk) (h.modeIsLast w.modeIsLast)

theorem Evolves.applyReset (s : State) : Evolves s s.applyReset := (Base.refl s).evolves_applyReset

end

/-! ## Pseudocode that keeps the invariant -/

/-- On a block with `n` contexts the pseudocode `c` answers only values with `P`, and however it ends, the
state it leaves is one the block may come to. -/
def Keeps {α : Type} (n : Nat) (c : Cmd α) (P : α → Prop := fun _ => True) : Prop :=
  ∀ s : State, s.params.numCtx = n → Spec c s (fun a t => P a ∧ Evolves s t) (Evolves s)

section
variable {α β : Type} {n : Nat} {P : α → Prop} {P' : β → Prop}

theorem Keeps.bind {c : Cmd α} {f : α → Cmd β} (hc : Keeps n c P) (hf : ∀ a, P a → Keeps n (f a) P') :
    Keeps n (c >>= f) P' := fun s hn =>
  (hc s hn).bind (fun _ _ h => h) fun a t _ ⟨ha, ht⟩ =>
    (hf a ha t (ht.params ▸ hn)).mono (fun _ _ _ ⟨hb, hu⟩ => ⟨hb, ht.trans hu⟩) fun _ _ hu => ht.trans hu

/-- The sequence rule where what follows needs nothing of the answer. -/
theorem Keeps.andThen {c : Cmd α} {f : α → Cmd β} (hc : Keeps n c P) (hf : ∀ a, Keeps n (f a) P') :
    Keeps n (c >>= f) P' := hc.bind fun a _ => hf a

theorem Keeps.pure {a : α} (h : P a) : Keeps n (pure a : Cmd α) P := fun s _ => .pure ⟨h, .refl s⟩

theorem Keeps.ask {g : State → α} : Keeps n (ask g) := fun s _ => .ask ⟨trivial, .refl s⟩

theorem Keeps.write {f : State → State} (hb : ∀ t, Base t (f t))
    (hf : ∀ t, t.params.numCtx = n → Evolves t (f t)) : Keeps n (write f) := fun _ hn =>
  write_spec (fun t _ => hb t) fun t ht => ⟨trivial, ht.evolves.trans (hf t (ht.params ▸ hn))⟩

/-- A statement that writes flags other than BUSY. -/
theorem Keeps.writeStatus {f : State → Status → Status} (hf : ∀ t a, (f t a).busy = a.busy) :
    Keeps n (Machine.write fun t => t.onStatus (f t)) :=
  .write (fun _ => base_of_parts rfl rfl rfl rfl rfl) fun t _ => .onStatus (hf t t.status)

/-- A statement that writes registers. -/
theorem Keeps.writeRegs {f : State → Regs → Regs} (hf : ∀ t r, r.Wf n → (f t r).Wf n) :
    Keeps n (Machine.write fun t => t.onRegs (f t)) :=
  .write (fun _ => base_of_parts rfl rfl rfl rfl rfl) fun t hn => .onRegs fun h => hn ▸ hf t t.regs (hn ▸ h)

/-- A statement that writes registers other than FORK and the contexts. -/
theorem Keeps.writeData {f : State → Regs → Regs}
    (hf : ∀ t r, (f t r).fork = r.fork ∧ (f t r).ctx = r.ctx) :
    Keeps n (Machine.write fun t => t.onRegs (f t)) :=
  .writeRegs fun t r h => h.of_same (hf t r).1 (hf t r).2

/-- A statement that writes a context that exists. -/
theorem Keeps.writeCtx {c : BitVec 4} {f : Context → Context} (hc : c.toNat < n)
    (hf : ∀ x, x.TempOk → (f x).TempOk) : Keeps n (Machine.write (·.onCtx c f)) :=
  .writeRegs (f := fun _ r => r.onContext c f) fun _ _ h => h.onContext hc (hf _ (h.tempOk c))

theorem Keeps.finish : Keeps n (finish : Cmd α) P := fun _ _ =>
  finish_spec fun t ht => ht.evolves.trans (.endCommand t)

theorem Keeps.fail {code : FaultCode} : Keeps n (fail code : Cmd α) P :=
  .andThen (.writeStatus fun _ _ => rfl) fun _ => .finish

theorem Keeps.upTo {g : Nat → Cmd Unit} (k : Nat) (h : ∀ j, Keeps n (g j)) : Keeps n (upTo k g) := by
  induction k with
  | zero => exact .pure trivial
  | succ k ih => exact .andThen ih fun _ => h k

theorem Keeps.withLen {len : BitVec 5} {c : Cmd Unit} (h : Keeps n c) : Keeps n (withLen len c) :=
  fun s hn => withLen_spec (fun _ => h s hn) fun _ => Keeps.fail s hn

/-- Behind the range condition of R86 the context exists. -/
theorem Keeps.withCtx {k : BitVec 4} {c : Cmd Unit} (h : k.toNat < n → Keeps n c) : Keeps n (withCtx k c) :=
  fun s hn => withCtx_spec (fun hk => h (hn ▸ hk) s hn) fun _ => Keeps.fail s hn

end

/-! ## The pieces of the commands -/

section
variable {n : Nat}

theorem Keeps.writeBit (v : Bool) : Keeps n (writeBit v) := fun s _ =>
  ((Did.start s).writeBit v).mono (fun _ _ _ ⟨_, h⟩ => ⟨trivial, h.evolves rfl id⟩) fun _ _ h => h

theorem Keeps.readBit : Keeps n readBit := fun s _ =>
  (Did.start s).readBit.mono (fun _ _ _ h => ⟨trivial, h.evolves rfl id⟩) fun _ _ h => h

theorem Keeps.writeByte (b : Byte) : Keeps n (writeByte b) := fun s _ =>
  ((Did.start s).writeByte b).mono (fun _ _ _ ⟨_, _, _, h⟩ => ⟨trivial, h.evolves rfl id⟩) fun _ _ h => h

theorem Keeps.readByte : Keeps n readByte := fun s _ =>
  (Did.start s).readByte.mono (fun _ _ _ ⟨_, _, _, h⟩ => ⟨trivial, h.evolves rfl id⟩) fun _ _ h => h

theorem Keeps.tick : Keeps n tick := fun s _ =>
  (Did.start s).tick.mono (fun _ _ _ ⟨_, _, _, h⟩ => ⟨trivial, h.evolves rfl id⟩) fun _ _ h => h

theorem Keeps.setMode (m : LineMode) : Keeps n (setMode m) := fun s _ =>
  ((Did.start s).setMode m).mono (fun _ _ _ h => ⟨trivial, h.evolves rfl id⟩) fun _ _ h => h

theorem Keeps.resetPresence : Keeps n resetPresence := fun s _ =>
  (Did.start s).resetPresence.mono (fun _ _ _ ⟨_, _, h⟩ => ⟨trivial, h.evolves rfl id⟩) fun _ _ h => h

theorem Keeps.orFail {onFail : Cmd Unit} (h : Keeps n onFail) (code : FaultCode) :
    Keeps n (orFail onFail code) := by
  cases code
  case none => exact .pure trivial
  all_goals exact .andThen h fun _ => .fail

theorem Keeps.beginTransaction {onFail : Cmd Unit} (h : Keeps n onFail) :
    Keeps n (beginTransaction onFail) := .andThen .resetPresence h.orFail

theorem Keeps.writeBufferByte (j : Nat) : Keeps n (writeBufferByte j) :=
  .andThen .ask .writeByte

theorem Keeps.readBufferByte (j : Nat) : Keeps n (readBufferByte j) :=
  .andThen .readByte fun _ => .writeData fun _ _ => ⟨rfl, rfl⟩

end

/-! ## The search (44_rom_search.md) -/

/-- The new fork position is the old one or the position `p` itself (R152, R153). -/
theorem branch_le {p F : Nat} {nf nf' : BitVec 7} {b cb prev v : Bool} (hp : p ≤ 64) (hnf : nf.toNat ≤ 64)
    (h : branch p F nf b cb prev = some (v, nf')) : nf'.toNat ≤ 64 := by
  have hp' : (BitVec.ofNat 7 p).toNat ≤ 64 := by
    rw [BitVec.toNat_ofNat]
    omega
  unfold branch at h
  split at h
  · split at h
    · simp only [Option.some.injEq, Prod.mk.injEq] at h
      obtain ⟨-, rfl⟩ := h
      split
      · exact hnf
      · exact hp'
    · split at h <;> cases h
      · exact hnf
      · exact hp'
  · cases h
    exact hnf
  · cases h
    exact hnf
  · cases h

section
variable {n : Nat}

theorem Keeps.takeBranch (p : Nat) (o : Option (Bool × BitVec 7))
    (ho : ∀ v nf, o = some (v, nf) → nf.toNat ≤ 64) :
    Keeps n (takeBranch p o) (·.toNat ≤ 64) := by
  cases o with
  | none => exact .fail
  | some c =>
    exact .andThen (.writeBit _) fun _ => .andThen (.writeData fun _ _ => ⟨rfl, rfl⟩) fun _ =>
      .pure (ho c.1 c.2 rfl)

theorem Keeps.searchPosition {p F : Nat} {nf : BitVec 7} (hp : p ≤ 64) (hnf : nf.toNat ≤ 64) :
    Keeps n (searchPosition p F nf) (·.toNat ≤ 64) :=
  .andThen .readBit fun _ => .andThen .readBit fun _ => .andThen .ask fun _ =>
    .takeBranch p _ fun _ _ => branch_le hp hnf

/-- What a pass leaves for FORK is a position (R30). -/
theorem Keeps.searchPositions (F : Nat) {k : Nat} (hk : k ≤ 64) :
    Keeps n (searchPositions F k) (·.toNat ≤ 64) := by
  induction k with
  | zero => exact .pure (by decide)
  | succ k ih => exact .bind (ih (by omega)) fun _ => .searchPosition hk

theorem Keeps.setFork {p : BitVec 7} (hp : p.toNat ≤ 65) : Keeps n (Machine.write (·.setFork p)) :=
  .writeRegs fun _ _ h => ⟨hp, h.noContext, h.tempOk⟩

theorem Keeps.unlessExhausted (fork : BitVec 7) : Keeps n (unlessExhausted fork) := by
  unfold Machine.unlessExhausted
  split
  · exact .fail
  · exact .pure trivial

theorem Keeps.completePass {nf : BitVec 7} (h : nf.toNat ≤ 64) : Keeps n (completePass nf) :=
  .andThen (.setFork (by omega)) fun _ => .andThen (.writeData fun _ _ => ⟨rfl, rfl⟩) fun _ =>
  .andThen (.writeStatus fun _ _ => rfl) fun _ => .andThen (.writeStatus fun _ _ => rfl) fun _ => .finish

/-- The settle delay (R154) begins and ends between two slots. -/
theorem Keeps.settleThen {c : Cmd Unit} (h : Keeps n c) :
    Keeps n (do enter .settle; delay .tSETTLE; enter .idle; c) := fun s hn => by
  refine (enter_spec .settle).andThen fun _ t1 _ h1 => (delay_spec .tSETTLE).andThen fun _ t2 _ h2 => ?_
  refine (enter_spec .idle).andThen fun _ t3 _ h3 => ?_
  have hpin : t3.pin = s.pin := by rw [h3.2.1, h2.2.1, h1.2.1]
  have hd := (Did.start s).work ((h1.1.trans h2.1).trans h3.1) fun hc => ⟨h3.2.2.1, hpin ▸ hc.released⟩
  have he : Evolves s t3 := hd.evolves rfl id
  exact (h t3 (he.params ▸ hn)).mono (fun _ _ _ ⟨_, hu⟩ => ⟨trivial, he.trans hu⟩) fun _ _ hu => he.trans hu

end

/-! ## The sessions (45_session.md) -/

section
variable {n : Nat} {c : BitVec 4}

theorem Keeps.selectSeq : Keeps n (selectSeq c) :=
  .andThen (.writeByte _) fun _ => .upTo 8 fun _ => .andThen .ask .writeByte

theorem Keeps.setOutcome (hc : c.toNat < n) (o : SensorOutcome) : Keeps n (setOutcome c o) :=
  .andThen (.writeStatus fun _ _ => rfl) fun _ => .writeCtx hc fun _ h => h

theorem Keeps.clearAddress (hc : c.toNat < n) : Keeps n (clearAddress c) :=
  .andThen (.writeCtx hc fun _ h => h) fun _ => .setOutcome hc _

theorem Keeps.readAddressByte (hc : c.toNat < n) (j : Nat) : Keeps n (readAddressByte c j) :=
  .andThen .readByte fun _ => .writeCtx hc fun _ h => h

theorem Keeps.crcGate {onFail : Cmd Unit} (ok : Bool) (h : Keeps n onFail) : Keeps n (crcGate ok onFail) := by
  refine .andThen (.writeStatus fun _ _ => rfl) fun _ => ?_
  cases ok
  · exact .andThen h fun _ => .fail
  · exact .pure trivial

theorem Keeps.ifPassive (m : LineMode) (p : PowerMode) : Keeps n (ifPassive m p) := by
  cases p with
  | active => exact .pure trivial
  | passive => exact .setMode m

theorem Keeps.readScratchpadByte (j : Nat) : Keeps n (readScratchpadByte j) :=
  .andThen .readByte fun _ => .writeData fun _ _ => ⟨rfl, rfl⟩

theorem Keeps.releaseScratchpad : Keeps n (act State.releaseScratchpad) := fun _ _ =>
  .act (base_of_parts rfl rfl rfl rfl rfl)
    ⟨trivial, .of_same rfl rfl rfl rfl (·.busyIffSeq) fun h => h.regsWf.of_same rfl rfl⟩

theorem Keeps.dropReading (hc : c.toNat < n) : Keeps n (dropReading c) :=
  .andThen .releaseScratchpad fun _ => .setOutcome hc _

/-- The two writes of a reading (R174): between them TEMP_F32 does not belong to TEMP_RAW, after them it is
the binary32 of the same reading. -/
theorem Keeps.storeReading (hc : c.toNat < n) : Keeps n (storeReading c) := by
  rintro s rfl
  refine (Spec.ask (Q := fun reading t => t = s ∧ ∃ fam, reading.2 = tempOf reading.1 fam)
    (F := fun _ => False) ⟨rfl, _, rfl⟩).andThen ?_
  rintro reading t - ⟨rfl, hfam⟩
  refine ((Did.start t).writeCtx c _).andThen fun _ t1 _ h1 => ?_
  refine (h1.writeCtx c _).mono (fun _ t2 _ h2 => ⟨trivial, h2.evolves rfl fun hr => ?_⟩) fun _ _ h => h
  rw [onContext_onContext]
  exact hr.onContext hc hfam

theorem Keeps.readPhase (hc : c.toNat < n) : Keeps n (readPhase c) :=
  .andThen .ask fun _ => .andThen (.ifPassive _ _) fun _ => .andThen (.writeCtx hc fun _ h => h) fun _ =>
  .andThen (.beginTransaction (.setOutcome hc _)) fun _ => .andThen .selectSeq fun _ =>
  .andThen (.writeByte _) fun _ => .andThen (.upTo 9 .readScratchpadByte) fun _ => .andThen .ask fun _ =>
  .andThen (.crcGate _ (.dropReading hc)) fun _ => .andThen (.storeReading hc) fun _ =>
  .andThen .releaseScratchpad fun _ => .andThen (.setOutcome hc _) fun _ => .finish

theorem Keeps.startPhase (hc : c.toNat < n) : Keeps n (startPhase c) :=
  .andThen (.beginTransaction (.setOutcome hc _)) fun _ => .andThen .selectSeq fun _ =>
  .andThen (.writeByte _) fun _ => .andThen .ask fun _ => .andThen (.ifPassive _ _) fun _ =>
  .andThen .tick fun _ => .andThen (.writeCtx hc fun _ h => h) fun _ =>
  .andThen (.writeCtx hc fun _ h => h) fun _ => .andThen (.setOutcome hc _) fun _ => .finish

theorem Keeps.pollPhase (hc : c.toNat < n) : Keeps n (pollPhase c) := by
  refine .andThen .tick fun _ => .andThen .ask fun gate => ?_
  cases gate
  · exact .andThen (.setOutcome hc _) fun _ => .finish
  · exact .readPhase hc

theorem Keeps.tempPhase (hc : c.toNat < n) (p : Phase) : Keeps n (tempPhase c p) := by
  cases p with
  | idle => exact .startPhase hc
  | conversionStarted => exact .pollPhase hc

theorem Keeps.writeConfiguration (hc : c.toNat < n) : Keeps n (writeConfiguration c) :=
  .andThen (.beginTransaction (.setOutcome hc _)) fun _ => .andThen .selectSeq fun _ =>
  .andThen (.writeByte _) fun _ => .andThen .ask fun _ => .andThen (.writeByte _) fun _ =>
  .andThen (.writeByte _) fun _ => .writeByte _

theorem Keeps.copyConfiguration (hc : c.toNat < n) : Keeps n (copyConfiguration c) :=
  .andThen (.beginTransaction (.setOutcome hc _)) fun _ => .andThen .selectSeq fun _ => .writeByte _

theorem Keeps.configureFamily (hc : c.toNat < n) (fam : Byte) : Keeps n (configureFamily c fam) := by
  unfold Machine.configureFamily
  split
  · exact .andThen (.writeConfiguration hc) fun _ => .copyConfiguration hc
  · exact .pure trivial

end

/-! ## Every instruction and every host act -/

section
variable {s t : State}

/-- Pseudocode that is run whole, also when an `rst` cuts it (R230). -/
theorem Keeps.evolves {c : Cmd Unit} (h : Keeps s.params.numCtx c) (hr : runs c s = .next t) :
    Evolves s t := by
  obtain ⟨u, hu, ⟨-, v, hv, rfl⟩ | ⟨-, ⟨-, he⟩ | he⟩⟩ := (h s rfl).runs <;> rw [hu] at hr <;> cases hr
  · exact hv.evolves_applyReset
  · exact he
  · exact he

/-- Every instruction (R87, R90) is pseudocode of these pieces. -/
theorem evolves_of_exec (i : Instr) (h : exec i s = .next t) : Evolves s t := by
  cases i <;> refine Keeps.evolves ?_ h
  case owReset => exact .andThen (.beginTransaction (.pure trivial)) fun _ => .finish
  case owWriteBit => exact .andThen (.writeBit _) fun _ => .finish
  case owReadBit =>
    exact .andThen .readBit fun _ => .andThen (.writeData fun _ _ => ⟨rfl, rfl⟩) fun _ => .finish
  case owWriteByte => exact .andThen (.writeByte _) fun _ => .finish
  case owReadByte =>
    exact .andThen .readByte fun _ => .andThen (.writeData fun _ _ => ⟨rfl, rfl⟩) fun _ => .finish
  case owWriteBytes => exact .withLen (.andThen (.upTo _ .writeBufferByte) fun _ => .finish)
  case owReadBytes => exact .withLen (.andThen (.upTo _ .readBufferByte) fun _ => .finish)
  case crcUpdate => exact .andThen (.writeData fun _ _ => ⟨rfl, rfl⟩) fun _ => .finish
  case crcCheck =>
    exact .withLen (.andThen .ask fun _ => .andThen (.writeData fun _ _ => ⟨rfl, rfl⟩) fun _ =>
      .andThen (.writeStatus fun _ _ => rfl) fun _ => .finish)
  case searchInit =>
    exact .andThen (.writeData fun _ _ => ⟨rfl, rfl⟩) fun _ => .andThen (.setFork (by decide)) fun _ =>
      .andThen (.writeStatus fun _ _ => rfl) fun _ => .finish
  case searchNext =>
    exact .settleThen (.andThen (.writeStatus fun _ _ => rfl) fun _ => .andThen .ask fun _ =>
      .andThen (.unlessExhausted _) fun _ => .andThen (.beginTransaction (.pure trivial)) fun _ =>
      .andThen (.writeByte _) fun _ => .andThen .ask fun _ =>
      .bind (.searchPositions _ (Nat.le_refl 64)) fun _ => .completePass)
  case readAddress =>
    exact .withCtx fun hc => .andThen (.beginTransaction (.clearAddress hc)) fun _ =>
      .andThen (.writeByte _) fun _ => .andThen (.upTo 8 (.readAddressByte hc)) fun _ => .andThen .ask fun _ =>
      .andThen (.crcGate _ (.clearAddress hc)) fun _ => .andThen (.setOutcome hc _) fun _ => .finish
  case select => exact .withCtx fun _ => .andThen .selectSeq fun _ => .finish
  case tempUpdate => exact .withCtx fun hc => .andThen .ask (.tempPhase hc)
  case configResolution =>
    exact .withCtx fun hc => .andThen .ask fun _ => .andThen (.configureFamily hc _) fun _ =>
      .andThen (.setOutcome hc _) fun _ => .finish
  case searchRom | readRom | matchRom | convertT | readScratchpad | writeScratchpad | copyScratchpad =>
    exact .writeByte _

/-- A word written to CMD (R37), legal or not (R203). -/
theorem evolves_of_issue {w : Word} (h : issue w s = .next t) : Evolves s t := by
  unfold issue at h
  split at h
  · exact (Evolves.accept w s).trans (evolves_of_exec _ h)
  · exact (Evolves.accept w s).trans (Keeps.fail.evolves h)

/-- A context's address register on the map is of that context (R25). -/
theorem eq_of_ctxRegAt_eq_ctxAddr {c d : BitVec 4} {f : Nat}
    (h : ctxRegAt d f = .ctxAddrLo c ∨ ctxRegAt d f = .ctxAddrHi c) : d = c := by
  unfold ctxRegAt at h
  split at h
  case h_1 | h_2 => simpa using h
  all_goals simp at h

/-- The context registers of the map are those of contexts that exist (R25). -/
theorem lt_of_regAt_eq_ctxAddr {n : Nat} {r : BitVec 8} {c : BitVec 4}
    (h : regAt n r = .ctxAddrLo c ∨ regAt n r = .ctxAddrHi c) : c.toNat < n := by
  unfold regAt at h
  split at h
  -- the arm of the offsets from 0x080 on
  case h_15 =>
    split at h
    case isTrue hk =>
      obtain ⟨-, hn, h16⟩ := hk
      rw [← eq_of_ctxRegAt_eq_ctxAddr h, BitVec.toNat_ofNat]
      omega
    case isFalse => simp at h
  all_goals simp at h

theorem evolves_onCtx {c : BitVec 4} {f : Context → Context} (hc : c.toNat < s.params.numCtx)
    (hf : ∀ x, x.TempOk → (f x).TempOk) : Evolves s (s.onCtx c f) :=
  .onRegs (f := (·.onContext c f)) fun h => h.onContext hc (hf _ (h.tempOk c))

/-- A write to CONFIG (R27, R28): LINE_MODE changes with its event. -/
theorem evolves_writeConfig (s : State) (v : Word) : Evolves s (s.writeConfig v) := by
  have hd := (Did.start s).onRegs fun r => { r with powerMode := PowerMode.ofBit (v.getLsbD 0) }
  have hr (h : s.regs.Wf s.params.numCtx) := h.of_same (r' :=
    { s.regs with powerMode := PowerMode.ofBit (v.getLsbD 0) }) rfl rfl
  unfold State.writeConfig
  simp only
  split
  · exact hd.evolves rfl hr
  · exact (hd.changeMode _).evolves rfl hr

theorem evolves_writeStatus (s : State) (v : Word) : Evolves s (s.writeStatus v) :=
  (writeStatus_pass s v).evolves (by unfold State.writeStatus; split <;> rfl)

/-- A write to a register of the map while the block is idle (R25, R64). -/
theorem evolves_writeReg (s : State) (v : Word) (r : BitVec 8) :
    Evolves s (s.writeReg v (regAt s.params.numCtx r)) := by
  cases hreg : regAt s.params.numCtx r
  case status => exact evolves_writeStatus s v
  case config => exact evolves_writeConfig s v
  case crcAcc => exact .onRegs (f := fun r => { r with crcAcc := v.setWidth 8 }) fun h => h.of_same rfl rfl
  case iobuf k =>
    exact .onRegs (f := fun r => { r with iobuf := setWordAt r.iobuf (4 * k) v }) fun h => h.of_same rfl rfl
  case ctxAddrLo =>
    exact evolves_onCtx (f := fun x => { x with addr := setWordAt x.addr 0 v })
      (lt_of_regAt_eq_ctxAddr (.inl hreg)) fun _ h => h
  case ctxAddrHi =>
    exact evolves_onCtx (f := fun x => { x with addr := setWordAt x.addr 4 v })
      (lt_of_regAt_eq_ctxAddr (.inr hreg)) fun _ h => h
  all_goals exact .refl s

theorem evolves_busyRead (s : State) (r : BitVec 8) : Evolves s (s.busyRead r) :=
  (busyRead_pass s r).evolves (by rw [busyRead_seq])

theorem evolves_busyWrite (s : State) (r : BitVec 8) (v : Word) : Evolves s (s.busyWrite r v) :=
  (busyWrite_pass s r v).evolves (by rw [busyWrite_seq])

theorem evolves_idleRead (s : State) (r : BitVec 8) : Evolves s (s.idleRead r) :=
  (answer_pass s r _).evolves Iff.rfl

theorem evolves_hostRead (s : State) (r : BitVec 8) : Evolves s (hostRead r s) := by
  unfold hostRead
  split
  · exact evolves_idleRead s r
  · exact evolves_busyRead s r

theorem evolves_of_hostWrite {r : BitVec 8} {v : Word} (h : hostWrite r v s = .next t) : Evolves s t := by
  unfold hostWrite at h
  split at h
  · cases h
    exact evolves_busyWrite s r v
  · split at h
    · exact evolves_of_issue h
    · cases h
      exact evolves_writeReg s v r

theorem evolves_of_input {i : Input} (h : input s i = .next t) : Evolves s t := by
  unfold input at h
  split at h
  · cases h
    exact .applyReset s
  · cases h
    exact .refl s
  · split at h <;> cases h
    exact evolves_hostRead s _
  · split at h
    · cases h
    · exact evolves_of_hostWrite h

theorem evolves_of_inputInReset {i : Input} (h : inputInReset s i = .next t) : Evolves s t := by
  unfold inputInReset at h
  split at h
  · cases h
    exact .of_same rfl rfl rfl rfl (·.busyIffSeq) (·.regsWf)
  · split at h <;> cases h
    exact evolves_idleRead s _
  · split at h <;> cases h
    exact .refl s

theorem evolves_of_sendPending {b : Byte} (h : sendPending b s = .next t) : Evolves s t := by
  unfold sendPending at h
  split at h
  · exact evolves_of_exec _ h
  · exact (Keeps.writeByte b).evolves h

theorem evolves_of_idleStep (h : idleStep s = .next t) : Evolves s t := by
  unfold idleStep at h
  split at h <;> cases h
  exact .refl s

theorem evolves_takeInput (s : State) : Evolves s s.takeInput :=
  .of_same rfl rfl rfl rfl (·.busyIffSeq) (·.regsWf)

theorem evolves_takeTx (s : State) : Evolves s s.takeTx :=
  .of_same rfl rfl rfl rfl (·.busyIffSeq) (·.regsWf)

/-- Every step is one the block may take: by what the step takes next (R20, R35). -/
theorem evolves_of_step (h : step s = .next t) : Evolves s t := by
  unfold step fetchAndRun at h
  split at h
  · cases h
    exact .refl s
  · exact (evolves_takeInput s).trans (evolves_of_inputInReset h)
  · exact (evolves_takeTx s).trans (evolves_of_sendPending h)
  · exact evolves_of_idleStep h
  · exact (evolves_takeInput s).trans (evolves_of_input h)

end

/-- Settles O53: every step keeps `State.Wf`. -/
theorem everyStepKeepsTheBlockWellFormed : Obligations.EveryStepKeepsTheBlockWellFormed :=
  fun _ _ hs h => (evolves_of_step h).wf hs

/-- Settles O55: every step keeps the parameters and extends the trace. -/
theorem stepsKeepParametersAndHistory : Obligations.StepsKeepParametersAndHistory :=
  fun _ _ h => ⟨(evolves_of_step h).params, (evolves_of_step h).grows⟩

end Sys2Proof.Machine

/-! PROOFS of the family State (10_state.md), first part: what a command may write and how it ends. `Built`
says of a piece of pseudocode that it is made of effects that write only named parts of the state and look at
nothing a host write changes. Every instruction is built so (`exec_built`); its frame, its ending and its
independence of host writes follow by one induction each. -/

namespace Sys2Proof.Machine

/-! ## What a command may write -/

/-- The parts of the state of which R27 to R34 and R43 say which commands write them. -/
inductive Part where
  | presence | crcOk | found | outcome
  | rdata | crcAcc | iobuf | sp | curAddr | fork | srchResult
  | lineMode

/-- The part holds in `t` what it held in `s`. -/
def Part.Same (s t : State) : Part → Prop
  | .presence => t.status.presence = s.status.presence
  | .crcOk => t.status.crcOk = s.status.crcOk
  | .found => t.status.found = s.status.found
  | .outcome => t.status.outcome = s.status.outcome
  | .rdata => t.regs.rdata = s.regs.rdata
  | .crcAcc => t.regs.crcAcc = s.regs.crcAcc
  | .iobuf => t.regs.iobuf = s.regs.iobuf
  | .sp => t.regs.sp = s.regs.sp
  | .curAddr => t.regs.curAddr = s.regs.curAddr
  | .fork => t.regs.fork = s.regs.fork
  | .srchResult => t.regs.srchResult = s.regs.srchResult
  | .lineMode => t.pin.mode = s.pin.mode

/-- The instruction `i` may write the part on a block in power mode `p`: it is one of those whose rule names
the part (R27 to R34, R43). -/
def Part.Writer (p : PowerMode) (i : Instr) : Part → Prop
  | .presence => i = .owReset ∨ i = .searchNext ∨
      ∃ c, i = .readAddress c ∨ i = .tempUpdate c ∨ i = .configResolution c
  | .crcOk => i = .searchNext ∨ (∃ len, i = .crcCheck len) ∨ ∃ c, i = .readAddress c ∨ i = .tempUpdate c
  | .found => i = .searchInit ∨ i = .searchNext
  | .outcome => ∃ c, i = .readAddress c ∨ i = .tempUpdate c ∨ i = .configResolution c
  | .rdata => i = .owReadBit ∨ i = .owReadByte
  | .crcAcc => (∃ b, i = .crcUpdate b) ∨ ∃ len, i = .crcCheck len
  | .iobuf => ∃ len, i = .owReadBytes len
  | .sp => ∃ c, i = .tempUpdate c
  | .curAddr | .fork => i = .searchInit ∨ i = .searchNext
  | .srchResult => i = .searchNext
  | .lineMode => p = .passive ∧ ∃ c, i = .tempUpdate c

/-- From `s` to `t` the power mode stays, and of the parts only those with `W` may change. -/
structure Frame (W : Part → Prop) (s t : State) : Prop where
  powerMode : t.regs.powerMode = s.regs.powerMode
  same : ∀ x, ¬ W x → x.Same s t

section
variable {W : Part → Prop} {s t u : State}

theorem Part.Same.trans {x : Part} (h : x.Same s t) (k : x.Same t u) : x.Same s u := by
  cases x <;> exact Eq.trans k h

theorem Frame.trans (h : Frame W s t) (k : Frame W t u) : Frame W s u :=
  ⟨k.powerMode.trans h.powerMode, fun x hx => (h.same x hx).trans (k.same x hx)⟩

/-- The parts are in the flags other than BUSY, FAULT and OVR, the registers and the pin mode. -/
theorem Frame.of_same (hs : t.status = { s.status with busy := t.status.busy, fault := t.status.fault,
                                                       ovr := t.status.ovr })
    (hr : t.regs = s.regs) (hm : t.pin.mode = s.pin.mode) : Frame W s t where
  powerMode := by rw [hr]
  same x _ := by
    cases x
    case presence | crcOk | found | outcome => simp only [Part.Same]; rw [hs]
    case lineMode => exact hm
    all_goals simp only [Part.Same, hr]

theorem Frame.refl (s : State) : Frame W s s := .of_same rfl rfl rfl

/-- A change of one part that may change. -/
theorem Frame.of_others {y : Part} (hy : W y) (hp : t.regs.powerMode = s.regs.powerMode)
    (h : ∀ x, x ≠ y → x.Same s t) : Frame W s t :=
  ⟨hp, fun x hx => h x fun e => hx (e ▸ hy)⟩

theorem Pass.frame (h : Pass s t) : Frame W s t :=
  .of_same (by rw [h.status]) h.regs (by rw [h.pin])

end

/-! ## Host writes that land in a command -/

/-- The state `s` when host writes have landed and others are still to come (R38): OVR is `o`, and `l` is
what is to land. -/
def State.disturbed (s : State) (o : Bool) (l : List BusyInput) : State :=
  (s.onStatus fun st => { st with ovr := o }).setDuring l

/-- The host act is a write. -/
def BusyInput.IsWrite (b : BusyInput) : Prop := ∃ r v, b.act = .write r v

/-- From `s` the pseudocode `c` is not disturbed by host writes: it ends as without them, but for OVR and
what is still to land. -/
def Oblivious {α : Type} (s : State) (c : Cmd α) : Prop :=
  ∀ (o : Bool) (l : List BusyInput), s.Quiet → (∀ b ∈ l, b.IsWrite) →
    (stOf (c s)).Quiet ∧ ∃ o' l', (∀ b ∈ l', b.IsWrite) ∧
      c (s.disturbed o l) = onRes (·.disturbed o' l') (c s)

theorem busyWrite_disturbed (s : State) (o : Bool) (l : List BusyInput) (r : BitVec 8) (v : Word) :
    ∃ o', (s.disturbed o l).busyWrite r v = s.disturbed o' l := by
  unfold State.busyWrite State.writeStatus
  split
  · split
    · exact ⟨false, rfl⟩
    · exact ⟨o, rfl⟩
  · exact ⟨true, rfl⟩

/-- Host writes that land leave all as it was but OVR and what is still to land. -/
theorem land_writes (s : State) (o : Bool) (k l : List BusyInput) (hl : ∀ b ∈ l, b.IsWrite) :
    ∃ o' l', (∀ b ∈ l', b.IsWrite) ∧ land l (s.disturbed o k) = .ok () (s.disturbed o' l') := by
  induction l generalizing o with
  | nil => exact ⟨o, [], by simp, rfl⟩
  | cons b rest ih =>
    obtain ⟨gap, a⟩ := b
    obtain ⟨⟨r, v, ha⟩, hrest⟩ := List.forall_mem_cons.1 hl
    cases ha
    cases gap with
    | succ n => exact ⟨o, ⟨n, .write r v⟩ :: rest, List.forall_mem_cons.2 ⟨⟨r, v, rfl⟩, hrest⟩, rfl⟩
    | zero =>
      obtain ⟨o', ho⟩ := busyWrite_disturbed s o k r v
      obtain ⟨o'', l', hl', h⟩ := ih o' hrest
      exact ⟨o'', l', hl', by rw [land, ho, h]⟩

section
variable {α β : Type} {s : State}

theorem Oblivious.bind {c : Cmd α} {f : α → Cmd β} (hc : Oblivious s c)
    (hf : ∀ a t, c s = .ok a t → Oblivious t (f a)) : Oblivious s (c >>= f) := by
  intro o l hs hl
  have hb (s : State) : (c >>= f) s = match c s with
      | .ok a t => f a t
      | .error e t => .error e t := by
    change EStateM.bind c f s = _
    unfold EStateM.bind
    cases c s <;> rfl
  obtain ⟨hq, o', l', hl', h⟩ := hc o l hs hl
  rw [hb, hb, h]
  cases hcs : c s with
  | ok a t =>
    rw [hcs] at hq
    exact hf a t hcs o' l' hq hl'
  | error e t =>
    rw [hcs] at hq
    exact ⟨hq, o', l', hl', rfl⟩

theorem Oblivious.advance : Oblivious s advance := by
  intro o l hs hl
  cases hq : s.seq with
  | idle =>
    have ha (t : State) (ht : t.seq = .idle) : Machine.advance t = .ok () t := by rw [Machine.advance, ht]
    rw [ha s hq, ha (s.disturbed o l) hq]
    exact ⟨hs, o, l, hl, rfl⟩
  | busy w k =>
    obtain ⟨o', l', hl', h⟩ := land_writes s o l l hl
    have hd : Machine.advance (s.disturbed o l) = .ok () ((s.disturbed o' l').setSeq s.seq.next) := by
      rw [Machine.advance, show (s.disturbed o l).seq = .busy w k from hq]
      simp only [show (s.disturbed o l).host.during = l from rfl, h]
      rfl
    rw [advance_quiet (by simp [hq]) hs, hd]
    exact ⟨hs, o', l', hl', rfl⟩

theorem Oblivious.act {f : State → State} (hq : s.Quiet → (f s).Quiet)
    (hf : ∀ o l, f (s.disturbed o l) = (f s).disturbed o l) : Oblivious s (act f) := fun o l hs hl =>
  ⟨hq hs, o, l, hl, congrArg _ (hf o l)⟩

theorem Oblivious.finish : Oblivious s (finish : Cmd α) :=
  .bind (.bind .advance fun _ _ _ => .act id fun _ _ => rfl) fun _ _ _ o l hs hl => ⟨hs, o, l, hl, rfl⟩

end

/-! ## The statements that commands are built of -/

/-- An effect on the state that writes no part but those with `W` and neither looks at OVR and the host acts
to come nor changes them. -/
structure Effect (W : Part → Prop) (f : State → State) : Prop where
  base : ∀ s, Base s (f s)
  frame : ∀ s, Frame W s (f s)
  disturbed : ∀ s o l, f (s.disturbed o l) = (f s).disturbed o l

/-- In power mode `p` the pseudocode `c` is built of effects that write no part but those with `W`, and where
it goes on, it answers only values with `P`. -/
inductive Built (p : PowerMode) (W : Part → Prop) : {α : Type} → Cmd α → (α → Prop) → Prop
  | pure {α : Type} {a : α} {P : α → Prop} (h : P a) : Built p W (pure a) P
  | ask {α : Type} {g : State → α} {P : α → Prop} (hg : ∀ s o l, g (s.disturbed o l) = g s)
      (h : ∀ s, s.regs.powerMode = p → P (g s)) : Built p W (ask g) P
  | act {f : State → State} (h : Effect W f) : Built p W (act f) fun _ => True
  | advance : Built p W advance fun _ => True
  | finish {α : Type} {P : α → Prop} : Built p W (finish : Cmd α) P
  | bind {α β : Type} {c : Cmd α} {f : α → Cmd β} {P : α → Prop} {Q : β → Prop} (hc : Built p W c P)
      (hf : ∀ a, P a → Built p W (f a) Q) : Built p W (c >>= f) Q
  | mono {α : Type} {c : Cmd α} {P Q : α → Prop} (hc : Built p W c P) (h : ∀ a, P a → Q a) : Built p W c Q

section
variable {α β : Type} {p : PowerMode} {W : Part → Prop} {P : α → Prop}

/-- What such pseudocode can do: it keeps the parts without `W`, and where it finishes the command, SEQ is
IDLE and BUSY is 0 (R36). -/
theorem Built.spec {c : Cmd α} (h : Built p W c P) : ∀ s : State, s.regs.powerMode = p →
    Spec c s (fun a t => P a ∧ Frame W s t)
      fun t => Frame W s t ∧ t.seq = .idle ∧ t.status.busy = false := by
  induction h with
  | pure h => exact fun s _ => .pure ⟨h, .refl s⟩
  | ask _ h => exact fun s hs => .ask ⟨h s hs, .refl s⟩
  | act h => exact fun s _ => .act (h.base s) ⟨trivial, h.frame s⟩
  | advance =>
    exact fun s _ => (advance_spec s).mono (fun _ _ _ h => ⟨trivial, h.toPass.frame⟩) fun _ _ h => h
  | finish =>
    exact fun s _ => finish_spec fun t ht => ⟨ht.toPass.frame.trans (.of_same rfl rfl rfl), rfl, rfl⟩
  | bind _ _ ihc ihf =>
    intro s hs
    refine (ihc s hs).bind (fun _ _ h => h) fun a t _ ⟨ha, ht⟩ => ?_
    exact (ihf a ha t (ht.powerMode.trans hs)).mono (fun _ _ _ ⟨hb, hu⟩ => ⟨hb, ht.trans hu⟩)
      fun _ _ ⟨hu, hend⟩ => ⟨ht.trans hu, hend⟩
  | mono _ h ih => exact fun s hs => (ih s hs).mono (fun _ _ _ ⟨ha, ht⟩ => ⟨h _ ha, ht⟩) fun _ _ h => h

/-- Where such pseudocode goes on, it does so in the same power mode. -/
theorem Built.of_ok {c : Cmd α} (h : Built p W c P) {s t : State} {a : α} (hs : s.regs.powerMode = p)
    (hc : c s = .ok a t) : P a ∧ t.regs.powerMode = p := by
  have hspec := h.spec s hs
  rw [Spec, hc] at hspec
  obtain ⟨-, ha, ht⟩ := hspec
  exact ⟨ha, ht.powerMode.trans hs⟩

/-- Such pseudocode does not look at what host writes change (R38). -/
theorem Built.oblivious {c : Cmd α} (h : Built p W c P) : ∀ s : State, s.regs.powerMode = p →
    Oblivious s c := by
  induction h with
  | pure => exact fun _ _ o l hs hl => ⟨hs, o, l, hl, rfl⟩
  | ask hg => exact fun s _ o l hs hl => ⟨hs, o, l, hl, congrArg (EStateM.Result.ok · _) (hg s o l)⟩
  | act h => exact fun s _ => .act (h.base s).quiet (h.disturbed s)
  | advance => exact fun _ _ => .advance
  | finish => exact fun _ _ => .finish
  | bind hc _ ihc ihf =>
    exact fun s hs => .bind (ihc s hs) fun a t hok =>
      have ⟨ha, ht⟩ := hc.of_ok hs hok
      ihf a ha t ht
  | mono _ _ ih => exact ih

end

/-! ## The effects -/

section
variable {W : Part → Prop}

/-- An effect on the flags. The values written may depend on the registers. -/
theorem Effect.onStatus {f : Regs → Status → Status}
    (ho : ∀ r a o, f r { a with ovr := o } = { f r a with ovr := o })
    (hf : ∀ s : State, Frame W s (s.onStatus (f s.regs))) : Effect W fun s => s.onStatus (f s.regs) where
  base _ := base_of_parts rfl rfl rfl rfl rfl
  frame := hf
  disturbed s o l := congrArg (fun a => ({ s with status := a } : State).setDuring l) (ho s.regs s.status o)

theorem Effect.onRegs {f : Regs → Regs} (hf : ∀ s : State, Frame W s (s.onRegs f)) :
    Effect W fun s => s.onRegs f :=
  ⟨fun _ => base_of_parts rfl rfl rfl rfl rfl, hf, fun _ _ _ => rfl⟩

theorem Effect.onEngine (f : Engine → Engine) : Effect W fun s => s.onEngine f :=
  ⟨fun _ => base_of_parts rfl rfl rfl rfl rfl, fun _ => .of_same rfl rfl rfl, fun _ _ _ => rfl⟩

/-- An effect on the environment alone. -/
theorem Effect.onlyEnv {f : State → State} (hf : ∀ s, ∃ e, f s = { s with env := e })
    (hd : ∀ s o l, f (s.disturbed o l) = (f s).disturbed o l) : Effect W f where
  base s := by
    obtain ⟨e, h⟩ := hf s
    rw [h]
    exact base_of_parts rfl rfl rfl rfl rfl
  frame s := by
    obtain ⟨e, h⟩ := hf s
    rw [h]
    exact .of_same rfl rfl rfl
  disturbed := hd

/-- The same effect with a line event other than `set_mode`. -/
theorem Effect.emit {f : State → State} {e : LineEvent} (h : Effect W f) (he : ∀ m, e ≠ .setMode m) :
    Effect W fun s => (f s).emit e where
  base s := (h.base s).trans (base_of_emit rfl he rfl rfl rfl rfl)
  frame s := (h.frame s).trans (.of_same rfl rfl rfl)
  disturbed s o l := congrArg (·.emit e) (h.disturbed s o l)

theorem Effect.delay (d : Delay) : Effect W fun s => s.emit (.delay d) :=
  .emit (f := id) (.onlyEnv (fun s => ⟨s.env, rfl⟩) fun _ _ _ => rfl) (by simp)

theorem Effect.setDrive (l : Bool) : Effect W (·.setDrive l) where
  base s := by
    obtain ⟨q, d, hm, -, h⟩ := setDrive_eq s l
    rw [h]
    exact base_of_parts rfl rfl rfl hm rfl
  frame s := by
    obtain ⟨q, d, hm, -, h⟩ := setDrive_eq s l
    rw [h]
    exact .of_same rfl rfl hm
  disturbed s o k := by
    unfold State.setDrive
    change (if s.pin.mode = .openDrain then _ else _ : State) = _
    split <;> rfl

theorem Effect.sample (v : Bool) : Effect W fun s => s.dropSample.emit (.sample v) := by
  refine .emit (.onlyEnv (fun s => ?_) fun s o l => ?_) (by simp)
  · unfold State.dropSample
    split <;> exact ⟨_, rfl⟩
  · obtain ⟨_, _, _, _, _, _, _, ⟨_, samples, _, _, _⟩, _, _⟩ := s
    cases samples <;> rfl

theorem Effect.awaitHigh (r : Rise) :
    Effect W fun s => s.dropRise.emit (.awaitHigh Config.timeoutTicks r) := by
  refine .emit (.onlyEnv (fun s => ?_) fun s o l => ?_) (by simp)
  · unfold State.dropRise
    split <;> exact ⟨_, rfl⟩
  · obtain ⟨_, _, _, _, _, _, _, ⟨_, _, rises, _, _⟩, _, _⟩ := s
    cases rises <;> rfl

theorem Effect.advanceTick : Effect W State.advanceTick := by
  refine .onlyEnv (fun s => ?_) fun s o l => ?_
  · unfold State.advanceTick
    simp only
    split <;> exact ⟨_, rfl⟩
  · obtain ⟨_, _, _, _, _, _, _, ⟨_, _, _, elapses, _⟩, _, _⟩ := s
    cases elapses <;> rfl

theorem Effect.changeMode (m : LineMode) (h : W .lineMode) : Effect W (·.changeMode m) where
  base _ := ⟨rfl, rfl, rfl, id, id, ⟨[.setMode m], rfl⟩, fun _ => rfl⟩
  frame s := .of_others h rfl fun x hx => by cases x <;> trivial
  disturbed _ _ _ := rfl

theorem Effect.releaseScratchpad (h : W .sp) : Effect W State.releaseScratchpad where
  base _ := base_of_parts rfl rfl rfl rfl rfl
  frame s := .of_others h rfl fun x hx => by cases x <;> trivial
  disturbed _ _ _ := rfl

end

/-! ## The pieces of the commands -/

section
variable {α β : Type} {p : PowerMode} {W : Part → Prop} {P : α → Prop} {Q : β → Prop}

/-- The sequence rule where what follows needs nothing of the answer. -/
theorem Built.andThen {c : Cmd α} {f : α → Cmd β} (hc : Built p W c P) (hf : ∀ a, Built p W (f a) Q) :
    Built p W (c >>= f) Q := .bind hc fun a _ => hf a

theorem Built.asks {g : State → α} (hg : ∀ s o l, g (s.disturbed o l) = g s) :
    Built p W (Machine.ask g) fun _ => True := .ask hg fun _ _ => trivial

theorem Built.write {f : State → State} (h : Effect W f) : Built p W (write f) fun _ => True :=
  .andThen .advance fun _ => .act h

/-- A statement that writes the flag `y`. -/
theorem Built.writeFlag {y : Part} {f : Regs → Status → Status} (hy : W y)
    (ho : ∀ r a o, f r { a with ovr := o } = { f r a with ovr := o } := by intros; rfl)
    (hf : ∀ (s : State) (x : Part), x ≠ y → x.Same s (s.onStatus (f s.regs)) := by
      intro s x hx; cases x <;> trivial) :
    Built p W (Machine.write fun s => s.onStatus (f s.regs)) fun _ => True :=
  .write (.onStatus ho fun s => .of_others hy rfl (hf s))

/-- A statement that writes the register `y`. -/
theorem Built.writeReg {y : Part} {f : Regs → Regs} (hy : W y)
    (hp : ∀ r, (f r).powerMode = r.powerMode := by intros; rfl)
    (hf : ∀ (s : State) (x : Part), x ≠ y → x.Same s (s.onRegs f) := by
      intro s x hx; cases x <;> trivial) :
    Built p W (Machine.write fun s => s.onRegs f) fun _ => True :=
  .write (.onRegs fun s => .of_others hy (hp s.regs) (hf s))

/-- A statement that writes a context. -/
theorem Built.writeCtx (c : BitVec 4) (f : Context → Context) :
    Built p W (Machine.write (·.onCtx c f)) fun _ => True :=
  .write (.onRegs (f := (·.onContext c f)) fun _ => ⟨rfl, fun x _ => by cases x <;> rfl⟩)

theorem Built.enter (m : MicroState) : Built p W (enter m) fun _ => True := .act (.onEngine _)

theorem Built.delay (d : Delay) : Built p W (delay d) fun _ => True := .write (.delay d)

theorem Built.driveLow : Built p W driveLow fun _ => True := .write (.emit (.setDrive false) (by simp))

theorem Built.release : Built p W release fun _ => True := .write (.emit (.setDrive true) (by simp))

theorem Built.sample : Built p W sample fun _ => True :=
  .andThen .advance fun _ => .andThen (.asks fun _ _ _ => rfl) fun v => .andThen (.act (.sample v)) fun _ =>
    .pure trivial

theorem Built.awaitHigh : Built p W awaitHigh fun _ => True :=
  .andThen .advance fun _ => .andThen (.asks fun _ _ _ => rfl) fun r =>
    .andThen (.act (.awaitHigh r)) fun _ => .pure trivial

theorem Built.tick : Built p W tick fun _ => True :=
  .andThen .advance fun _ => .andThen (.act .advanceTick) fun _ => .asks fun _ _ _ => rfl

theorem Built.fail {code : FaultCode} : Built p W (fail code : Cmd α) P :=
  .andThen (.write (.onStatus (f := fun _ a => { a with fault := code }) (fun _ _ _ => rfl) fun _ =>
    .of_same rfl rfl rfl)) fun _ => .finish

theorem Built.upTo (k : Nat) {g : Nat → Cmd Unit} (h : ∀ j, Built p W (g j) fun _ => True) :
    Built p W (upTo k g) fun _ => True := by
  induction k with
  | zero => exact .pure trivial
  | succ k ih => exact .andThen ih fun _ => h k

theorem Built.withLen {len : BitVec 5} {c : Cmd Unit} {P : Unit → Prop} (h : Built p W c P) :
    Built p W (withLen len c) P := by
  unfold Machine.withLen
  split
  · exact h
  · exact .fail

/-- The range condition of R86 is a choice by what is read of the parameters. -/
theorem withCtx_eq (k : BitVec 4) (c : Cmd Unit) :
    withCtx k c = ask (fun s => decide (k.toNat < s.params.numCtx)) >>= fun b =>
      if b then c else fail .illegal := by
  funext s
  change _ = (if decide (k.toNat < s.params.numCtx) = true then c else fail .illegal) s
  by_cases h : k.toNat < s.params.numCtx <;> simp [withCtx, h]

theorem Built.withCtx {k : BitVec 4} {c : Cmd Unit} {P : Unit → Prop} (h : Built p W c P) :
    Built p W (withCtx k c) P := by
  rw [withCtx_eq]
  refine .andThen (.asks fun _ _ _ => rfl) fun b => ?_
  split
  · exact h
  · exact .fail

theorem Built.writeOne : Built p W writeOne fun _ => True :=
  .andThen (.enter _) fun _ => .andThen .driveLow fun _ => .andThen (.delay _) fun _ =>
  .andThen (.enter _) fun _ => .andThen .release fun _ => .andThen (.delay _) fun _ => .enter _

theorem Built.endWrite0 (r : Rise) : Built p W (endWrite0 r) fun _ => True := by
  cases r with
  | rose => exact .andThen (.enter _) fun _ => .andThen (.delay _) fun _ => .enter _
  | timeout => exact .enter _

theorem Built.writeZero : Built p W writeZero fun _ => True :=
  .andThen (.enter _) fun _ => .andThen .driveLow fun _ => .andThen (.delay _) fun _ =>
  .andThen (.enter _) fun _ => .andThen .release fun _ => .andThen .awaitHigh .endWrite0

theorem Built.writeBit (v : Bool) : Built p W (writeBit v) fun _ => True := by
  cases v with
  | false => exact .writeZero
  | true => exact .writeOne

theorem Built.readBit : Built p W readBit fun _ => True :=
  .andThen (.enter _) fun _ => .andThen .driveLow fun _ => .andThen (.delay _) fun _ =>
  .andThen (.enter _) fun _ => .andThen .release fun _ => .andThen (.delay _) fun _ =>
  .andThen .sample fun _ => .andThen (.enter _) fun _ => .andThen (.delay _) fun _ =>
  .andThen (.enter _) fun _ => .pure trivial

theorem Built.writeByte (b : Byte) : Built p W (writeByte b) fun _ => True :=
  .andThen (.act (.onEngine _)) fun _ => .upTo 8 fun _ => .andThen (.act (.onEngine _)) fun _ => .writeBit _

theorem Built.readByte : Built p W readByte fun _ => True :=
  .andThen (.act (.onEngine _)) fun _ => .andThen (.upTo 8 fun _ => .andThen (.act (.onEngine _)) fun _ =>
    .andThen .readBit fun _ => .act (.onEngine _)) fun _ => .asks fun _ _ _ => rfl

theorem Built.writeBufferByte (j : Nat) : Built p W (writeBufferByte j) fun _ => True :=
  .andThen (.asks fun _ _ _ => rfl) .writeByte

theorem Built.readBufferByte (h : W .iobuf) (j : Nat) : Built p W (readBufferByte j) fun _ => True :=
  .andThen .readByte fun _ => .writeReg h

theorem Built.setPresence (h : W .presence) (v : Bool) :
    Built p W (Machine.write (·.setPresence v)) fun _ => True :=
  .writeFlag (f := fun _ a => { a with presence := v }) h

theorem Built.presenceWindow (h : W .presence) : Built p W presenceWindow fun _ => True :=
  .andThen (.enter _) fun _ => .andThen (.delay _) fun _ => .andThen .sample fun _ =>
  .andThen (.enter _) fun _ => .andThen (.delay _) fun _ => .andThen (.enter _) fun _ =>
  .andThen (.setPresence h _) fun _ => .pure trivial

theorem Built.afterResetRise (h : W .presence) (r : Rise) : Built p W (afterResetRise r) fun _ => True := by
  cases r with
  | rose => exact .presenceWindow h
  | timeout => exact .andThen (.enter _) fun _ => .andThen (.setPresence h _) fun _ => .pure trivial

theorem Built.resetPresence (h : W .presence) : Built p W resetPresence fun _ => True :=
  .andThen (.enter _) fun _ => .andThen .driveLow fun _ => .andThen (.delay _) fun _ =>
  .andThen (.enter _) fun _ => .andThen .release fun _ => .andThen .awaitHigh (.afterResetRise h)

theorem Built.orFail {onFail : Cmd Unit} (h : Built p W onFail fun _ => True) (code : FaultCode) :
    Built p W (orFail onFail code) fun _ => True := by
  cases code
  case none => exact .pure trivial
  all_goals exact .andThen h fun _ => .fail

/-- The start of a transaction (R142). -/
theorem Built.beginTransaction {onFail : Cmd Unit} (hp : W .presence)
    (h : Built p W onFail fun _ => True) : Built p W (beginTransaction onFail) fun _ => True :=
  .andThen (.resetPresence hp) h.orFail

/-! ### The search (44_rom_search.md) -/

theorem Built.setCrcOk (h : W .crcOk) (f : Regs → Bool) :
    Built p W (Machine.write fun s => s.setCrcOk (f s.regs)) fun _ => True :=
  .writeFlag (f := fun r a => { a with crcOk := f r }) h

theorem Built.setFound (h : W .found) (v : Bool) : Built p W (Machine.write (·.setFound v)) fun _ => True :=
  .writeFlag (f := fun _ a => { a with found := v }) h

theorem Built.setFork (h : W .fork) (v : BitVec 7) : Built p W (Machine.write (·.setFork v)) fun _ => True :=
  .writeReg (f := fun r => { r with fork := v }) h

theorem Built.setCurAddr (h : W .curAddr) (f : Regs → Vector Byte 8) :
    Built p W (Machine.write fun s => s.setCurAddr (f s.regs)) fun _ => True :=
  .writeReg (f := fun r => { r with curAddr := f r }) h

theorem Built.setCrcAcc (h : W .crcAcc) (f : Regs → Byte) :
    Built p W (Machine.write fun s => s.setCrcAcc (f s.regs)) fun _ => True :=
  .writeReg (f := fun r => { r with crcAcc := f r }) h

theorem Built.takeBranch (h : W .curAddr) (k : Nat) (o : Option (Bool × BitVec 7)) :
    Built p W (takeBranch k o) fun _ => True := by
  cases o with
  | none => exact .fail
  | some c =>
    exact .andThen (.writeBit _) fun _ =>
      .andThen (.setCurAddr h fun r => setPosBit r.curAddr k c.1) fun _ => .pure trivial

theorem Built.searchPositions (h : W .curAddr) (F k : Nat) :
    Built p W (searchPositions F k) fun _ => True := by
  induction k with
  | zero => exact .pure trivial
  | succ k ih =>
    exact .andThen ih fun _ => .andThen .readBit fun _ => .andThen .readBit fun _ =>
      .andThen (.asks fun _ _ _ => rfl) fun _ => .takeBranch h _ _

theorem Built.unlessExhausted (fork : BitVec 7) : Built p W (unlessExhausted fork) fun _ => True := by
  unfold Machine.unlessExhausted
  split
  · exact .fail
  · exact .pure trivial

theorem Built.completePass (hfork : W .fork) (hres : W .srchResult) (hfound : W .found)
    (hcrc : W .crcOk) (nf : BitVec 7) {P : Unit → Prop} : Built p W (completePass nf) P :=
  .andThen (.setFork hfork _) fun _ =>
  .andThen (.writeReg (f := fun r => { r with srchResult := r.curAddr }) hres) fun _ =>
  .andThen (.setFound hfound _) fun _ =>
  .andThen (.setCrcOk hcrc fun r => (crcCheck (firstBytes r.srchResult 8)).1) fun _ => .finish

/-! ### The sessions (45_session.md) -/

theorem Built.selectSeq (c : BitVec 4) : Built p W (selectSeq c) fun _ => True :=
  .andThen (.writeByte _) fun _ => .upTo 8 fun _ => .andThen (.asks fun _ _ _ => rfl) .writeByte

theorem Built.setOutcome (h : W .outcome) (c : BitVec 4) (o : SensorOutcome) :
    Built p W (setOutcome c o) fun _ => True :=
  .andThen (.writeFlag (f := fun _ a => { a with outcome := o }) h) fun _ => .writeCtx c _

theorem Built.clearAddress (h : W .outcome) (c : BitVec 4) : Built p W (clearAddress c) fun _ => True :=
  .andThen (.writeCtx c _) fun _ => .setOutcome h c _

theorem Built.crcGate {onFail : Cmd Unit} (hc : W .crcOk) (h : Built p W onFail fun _ => True) (ok : Bool) :
    Built p W (crcGate ok onFail) fun _ => True := by
  refine .andThen (.setCrcOk hc fun _ => ok) fun _ => ?_
  cases ok
  · exact .andThen h fun _ => .fail
  · exact .pure trivial

/-- Only in Passive power mode is the mode of the line changed (R173, R174). -/
theorem Built.ifPassive (h : p = .passive → W .lineMode) (m : LineMode) {q : PowerMode} (hq : q = p) :
    Built p W (ifPassive m q) fun _ => True := by
  subst hq
  cases q with
  | active => exact .pure trivial
  | passive => exact .write (.changeMode m (h rfl))

theorem Built.powerMode : Built p W (Machine.ask (·.regs.powerMode)) (· = p) :=
  .ask (fun _ _ _ => rfl) fun _ h => h

theorem Built.dropReading (hsp : W .sp) (ho : W .outcome) (c : BitVec 4) :
    Built p W (dropReading c) fun _ => True :=
  .andThen (.act (.releaseScratchpad hsp)) fun _ => .setOutcome ho c _

theorem Built.storeReading (c : BitVec 4) : Built p W (storeReading c) fun _ => True :=
  .andThen (.asks fun _ _ _ => rfl) fun _ => .andThen (.writeCtx c _) fun _ => .writeCtx c _

section
variable {P : Unit → Prop} (hp : W .presence) (ho : W .outcome) (hm : p = .passive → W .lineMode)
include hp ho

/-- The start of a session's transaction: the outcome of a failure is Timeout (R173 to R175). -/
theorem Built.startTransaction (c : BitVec 4) :
    Built p W (Machine.beginTransaction (Machine.setOutcome c .timeout)) fun _ => True :=
  .beginTransaction hp (.setOutcome ho c _)

include hm

theorem Built.readPhase (hc : W .crcOk) (hsp : W .sp) (c : BitVec 4) : Built p W (readPhase c) P :=
  .bind .powerMode fun _ hq => .andThen (.ifPassive hm _ hq) fun _ => .andThen (.writeCtx c _) fun _ =>
  .andThen (.startTransaction hp ho c) fun _ => .andThen (.selectSeq c) fun _ =>
  .andThen (.writeByte _) fun _ =>
  .andThen (.upTo 9 fun _ => .andThen .readByte fun _ => .writeReg hsp) fun _ =>
  .andThen (.asks fun _ _ _ => rfl) fun _ => .andThen (.crcGate hc (.dropReading hsp ho c) _) fun _ =>
  .andThen (.storeReading c) fun _ => .andThen (.act (.releaseScratchpad hsp)) fun _ =>
  .andThen (.setOutcome ho c _) fun _ => .finish

theorem Built.startPhase (c : BitVec 4) : Built p W (startPhase c) P :=
  .andThen (.startTransaction hp ho c) fun _ => .andThen (.selectSeq c) fun _ =>
  .andThen (.writeByte _) fun _ => .bind .powerMode fun _ hq => .andThen (.ifPassive hm _ hq) fun _ =>
  .andThen .tick fun _ => .andThen (.writeCtx c _) fun _ => .andThen (.writeCtx c _) fun _ =>
  .andThen (.setOutcome ho c _) fun _ => .finish

theorem Built.tempPhase (hc : W .crcOk) (hsp : W .sp) (c : BitVec 4) (ph : Phase) :
    Built p W (tempPhase c ph) P := by
  cases ph with
  | idle => exact .startPhase hp ho hm c
  | conversionStarted =>
    refine .andThen .tick fun _ => .andThen (.asks fun _ _ _ => rfl) fun gate => ?_
    cases gate
    · exact .andThen (.setOutcome ho c _) fun _ => .finish
    · exact .readPhase hp ho hm hc hsp c

end

theorem Built.configureFamily (hp : W .presence) (ho : W .outcome) (c : BitVec 4) (fam : Byte) :
    Built p W (configureFamily c fam) fun _ => True := by
  unfold Machine.configureFamily
  split
  · exact .andThen (.andThen (.startTransaction hp ho c) fun _ => .andThen (.selectSeq c) fun _ =>
      .andThen (.writeByte _) fun _ => .andThen (.asks fun _ _ _ => rfl) fun _ =>
      .andThen (.writeByte _) fun _ => .andThen (.writeByte _) fun _ => .writeByte _) fun _ =>
      .andThen (.startTransaction hp ho c) fun _ => .andThen (.selectSeq c) fun _ => .writeByte _
  · exact .pure trivial

end

/-! ## Every instruction -/

/-- Every instruction is pseudocode that writes only its own parts, and a command never runs past its last
statement: it ends in `finish` (R36, R201). -/
theorem exec_built (p : PowerMode) (i : Instr) : ∃ c : Cmd Unit, (∀ s, exec i s = runs c s) ∧
    Built p (Part.Writer p i) c fun _ => i.isCommand = false := by
  cases i <;> refine ⟨_, fun _ => rfl, ?_⟩
  case owReset => exact .andThen (.beginTransaction (.inl rfl) (.pure trivial)) fun _ => .finish
  case owWriteBit => exact .andThen (.writeBit _) fun _ => .finish
  case owReadBit =>
    exact .andThen .readBit fun _ => .andThen (.writeReg (y := .rdata) (.inl rfl)) fun _ => .finish
  case owWriteByte => exact .andThen (.writeByte _) fun _ => .finish
  case owReadByte =>
    exact .andThen .readByte fun _ => .andThen (.writeReg (y := .rdata) (.inr rfl)) fun _ => .finish
  case owWriteBytes => exact .withLen (.andThen (.upTo _ .writeBufferByte) fun _ => .finish)
  case owReadBytes => exact .withLen (.andThen (.upTo _ (.readBufferByte ⟨_, rfl⟩)) fun _ => .finish)
  case crcUpdate b =>
    exact .andThen (.setCrcAcc (.inl ⟨b, rfl⟩) fun r => crcUpdate r.crcAcc b) fun _ => .finish
  case crcCheck =>
    exact .withLen (.andThen (.asks fun _ _ _ => rfl) fun r =>
      .andThen (.setCrcAcc (.inr ⟨_, rfl⟩) fun _ => r.2) fun _ =>
      .andThen (.setCrcOk (.inr (.inl ⟨_, rfl⟩)) fun _ => r.1) fun _ => .finish)
  case searchInit =>
    exact .andThen (.setCurAddr (.inl rfl) fun _ => zeroAddr) fun _ =>
      .andThen (.setFork (.inl rfl) _) fun _ => .andThen (.setFound (.inl rfl) _) fun _ => .finish
  case searchNext =>
    exact .andThen (.enter _) fun _ => .andThen (.delay _) fun _ => .andThen (.enter _) fun _ =>
      .andThen (.setFound (.inr rfl) _) fun _ => .andThen (.asks fun _ _ _ => rfl) fun _ =>
      .andThen (.unlessExhausted _) fun _ =>
      .andThen (.beginTransaction (.inr (.inl rfl)) (.pure trivial)) fun _ =>
      .andThen (.writeByte _) fun _ => .andThen (.asks fun _ _ _ => rfl) fun _ =>
      .andThen (.searchPositions (.inr rfl) _ 64) fun _ =>
      .completePass (W := Part.Writer p .searchNext) (.inr rfl) rfl (.inr rfl) (.inl rfl) _
  case readAddress c =>
    have ho : Part.Writer p (.readAddress c) .outcome := ⟨c, .inl rfl⟩
    exact .withCtx (.andThen (.beginTransaction (.inr (.inr ho)) (.clearAddress ho c)) fun _ =>
      .andThen (.writeByte _) fun _ => .andThen (.upTo 8 fun _ => .andThen .readByte fun _ => .writeCtx c _)
        fun _ => .andThen (.asks fun _ _ _ => rfl) fun _ =>
      .andThen (.crcGate (.inr (.inr ⟨c, .inl rfl⟩)) (.clearAddress ho c) _) fun _ =>
      .andThen (.setOutcome ho c _) fun _ => .finish)
  case select c => exact .withCtx (.andThen (.selectSeq c) fun _ => .finish)
  case tempUpdate c =>
    have ho : Part.Writer p (.tempUpdate c) .outcome := ⟨c, .inr (.inl rfl)⟩
    exact .withCtx (.andThen (.asks fun _ _ _ => rfl)
      (.tempPhase (.inr (.inr ho)) ho (⟨·, c, rfl⟩) (.inr (.inr ⟨c, .inr rfl⟩)) ⟨c, rfl⟩ c))
  case configResolution c =>
    have ho : Part.Writer p (.configResolution c) .outcome := ⟨c, .inr (.inr rfl)⟩
    exact .withCtx (.andThen (.asks fun _ _ _ => rfl) fun _ =>
      .andThen (.configureFamily (.inr (.inr ho)) ho c _) fun _ =>
      .andThen (.setOutcome ho c _) fun _ => .finish)
  case searchRom | readRom | matchRom | convertT | readScratchpad | writeScratchpad | copyScratchpad =>
    exact .mono (.writeByte _) fun _ _ => rfl

/-- Settles O8: a command has no way on past its last statement, so it finishes or `rst` abandons it. -/
theorem everyCommandFinishes : Obligations.EveryCommandFinishes := by
  intro i s hi
  obtain ⟨c, hc, hb⟩ := exec_built s.regs.powerMode i
  obtain ⟨t, ht, ⟨-, u, -, rfl⟩ | ⟨-, ⟨hw, -⟩ | ⟨-, hend⟩⟩⟩ := (hb.spec s rfl).runs
  · exact ⟨_, (hc s).trans ht, rfl, rfl⟩
  · exact absurd hi (by simp [hw])
  · exact ⟨t, (hc s).trans ht, hend⟩

/-- An instruction into which no `rst` lands changes only the parts it may write. -/
theorem frame_of_exec {i : Instr} {s t : State} (hn : s.NoReset) (h : exec i s = .next t) :
    Frame (Part.Writer s.regs.powerMode i) s t := by
  obtain ⟨c, hc, hb⟩ := exec_built s.regs.powerMode i
  obtain ⟨u, hu, -, ⟨-, hf⟩ | ⟨hf, -⟩⟩ := (hb.spec s rfl).runs_of_noReset hn <;>
    rw [hc, hu] at h <;> cases h <;> exact hf

/-- Settles O10: from the state without the host acts, the same pseudocode runs undisturbed. -/
theorem hostWritesDoNotDisturbACommand : Obligations.HostWritesDoNotDisturbACommand := by
  intro i s hs
  obtain ⟨c, hc, hb⟩ := exec_built s.regs.powerMode i
  obtain ⟨-, o, l, -, h⟩ := hb.oblivious (s.setDuring []) rfl s.status.ovr s.host.during rfl hs
  have hself : (s.setDuring []).disturbed s.status.ovr s.host.during = s := rfl
  rw [hself] at h
  refine ⟨_, runCmd c (s.setDuring []), o, l, hc s, hc _, ?_⟩
  rw [runCmd, h, runCmd]
  cases c (s.setDuring []) <;> rfl

/-- The same, read the other way: a part that has changed is one of those. -/
theorem writer_of_changed {i : Instr} {s t : State} (hn : s.NoReset) (h : exec i s = .next t) (x : Part)
    (hx : ¬ x.Same s t) : x.Writer s.regs.powerMode i :=
  by_contra fun hw => hx ((frame_of_exec hn h).same x hw)

/-- Settles O57, by the writers of the four flags. -/
theorem flagsBelongToTheirCommands : Obligations.FlagsBelongToTheirCommands := fun _ _ _ hn h =>
  have hw := writer_of_changed hn h
  ⟨hw .presence, hw .crcOk, hw .found, hw .outcome⟩

/-- Settles O58, by the writers of the four data registers. -/
theorem dataRegistersBelongToTheirCommands : Obligations.DataRegistersBelongToTheirCommands :=
  fun _ _ _ hn h =>
    have hw := writer_of_changed hn h
    ⟨hw .rdata, hw .crcAcc, hw .iobuf, hw .sp⟩

/-- Settles O59: LINE_MODE has a writer only in Passive power mode. -/
theorem onlyTempUpdateChangesTheLineMode : Obligations.OnlyTempUpdateChangesTheLineMode :=
  fun _ _ _ hn h => ⟨(frame_of_exec hn h).powerMode, writer_of_changed hn h .lineMode⟩

/-- Settles O44, by the frame of an instruction that is no writer of the cursor or of SRCH_RESULT. -/
theorem onlyTheSearchWritesTheCursor : Obligations.OnlyTheSearchWritesTheCursor := by
  intro i s t hn h
  have hf := frame_of_exec hn h
  exact ⟨fun hinit hnext => ⟨hf.same .curAddr fun hw => hw.elim hinit hnext,
    hf.same .fork fun hw => hw.elim hinit hnext⟩, fun hnext => hf.same .srchResult hnext⟩

end Sys2Proof.Machine

/-! PROOFS of the family State (10_state.md), second part: the host interface (R25 to R40) and the reset state
(R41). One layer says how an access is taken and what a written register then reads, one where the fields of a
word stand, and one which register is at an offset; the statements are put together from them. -/

namespace Sys2Proof.Machine

/-! ## How a host access is taken -/

section
variable {s : State} {r : BitVec 8} {v w : Word}

theorem regAt_zero (n : Nat) : regAt n 0 = .cmd := rfl
theorem regAt_two (n : Nat) : regAt n 2 = .config := rfl

theorem hostWrite_of_busy (h : s.seq ≠ .idle) : hostWrite r v s = .next (s.busyWrite r v) := by
  unfold hostWrite
  cases hq : s.seq with
  | idle => exact absurd hq h
  | busy w k => rfl

theorem hostWrite_of_idle (h : s.seq = .idle) (hr : regAt s.params.numCtx r ≠ .cmd) :
    hostWrite r v s = .next (s.writeReg v (regAt s.params.numCtx r)) := by
  unfold hostWrite
  rw [h]
  simp only

theorem hostWrite_cmd (h : s.seq = .idle) (hr : regAt s.params.numCtx r = .cmd) :
    hostWrite r v s = issue v s := by
  unfold hostWrite
  rw [h]
  simp only [hr]

theorem issue_of_ok {i : Instr} (h : decodeCmd s.params.numCtx w = .ok i) :
    issue w s = exec i (s.accept w) := by
  unfold issue
  rw [h]

theorem issue_of_error {e : Illegal} (h : decodeCmd s.params.numCtx w = .error e) :
    issue w s = runs (fail .illegal) (s.accept w) := by
  unfold issue
  rw [h]

theorem hostRead_of_idle (h : s.seq = .idle) : hostRead r s = s.idleRead r := by
  unfold hostRead
  rw [h]

theorem hostRead_of_busy (h : s.seq ≠ .idle) : hostRead r s = s.busyRead r := by
  unfold hostRead
  cases hq : s.seq with
  | idle => exact absurd hq h
  | busy w k => rfl

/-- A write of STATUS clears OVR where its bit 11 is 1 (R38). -/
theorem writeStatus_eq (s : State) (v : Word) :
    s.writeStatus v = { s with status := { s.status with ovr := s.status.ovr && !v.getLsbD 11 } } := by
  unfold State.writeStatus
  cases v.getLsbD 11 <;> simp [State.onStatus]

theorem busyWrite_status (h : regAt s.params.numCtx r = .status) : s.busyWrite r v = s.writeStatus v := by
  unfold State.busyWrite
  rw [h]

theorem busyWrite_other (h : regAt s.params.numCtx r ≠ .status) :
    s.busyWrite r v = { s with status := { s.status with ovr := true } } := by
  unfold State.busyWrite
  split
  · exact absurd ‹_› h
  · rfl

theorem busyRead_status (h : regAt s.params.numCtx r = .status) :
    s.busyRead r = s.answer r s.status.word := by
  unfold State.busyRead
  rw [h]

/-- A read of another register answers some value and may use up a free one (R39). -/
theorem busyRead_other (h : regAt s.params.numCtx r ≠ .status) : ∃ v d, s.busyRead r =
    { s with host := { s.host with reads := (r, v) :: s.host.reads }, env := { s.env with draws := d } } := by
  unfold State.busyRead
  split
  · exact absurd ‹_› h
  · exact ⟨0, s.env.draws, rfl⟩
  · exact ⟨Config.freeRead s.env.draws, s.env.draws + 1, rfl⟩

/-- An idle block takes a write of a register but CMD as the register does (R64). -/
theorem State.Asks.step_writeReg (h : s.Asks (wr r v)) (hq : s.seq = .idle) {reg : Reg}
    (hr : regAt s.params.numCtx r = reg) (hc : reg ≠ .cmd) :
    Machine.step s = .next (s.takeInput.writeReg v reg) := by
  subst hr
  rw [h.step, input_wr]
  exact hostWrite_of_idle hq hc

end

/-! ## Words and their fields (R26 to R33, R70) -/

section
variable {n : Nat} {a b : Vector Byte n} {base base' : Nat} {v w : Word}

theorem extractLsb'_wordAt (a : Vector Byte n) (base i k : Nat) : (wordAt a base).extractLsb' i k =
    (byteAt a (base + 3) ++ byteAt a (base + 2) ++ byteAt a (base + 1) ++ byteAt a base).extractLsb' i k :=
  rfl

theorem holdsBytes_wordAt (a : Vector Byte n) (base : Nat) : HoldsBytes (wordAt a base) a base := by
  intro j hj
  rw [extractLsb'_wordAt]
  match j, hj with
  | 0, _ | 1, _ | 2, _ | 3, _ =>
    simp (disch := omega) only [BitVec.extractLsb'_append_eq_of_le, BitVec.extractLsb'_append_eq_of_add_le]
    exact BitVec.extractLsb'_eq_self

/-- The four bytes that a word holds determine it. -/
theorem HoldsBytes.unique (hv : HoldsBytes v a base) (hw : HoldsBytes w a base) : v = w := by
  apply BitVec.eq_of_getLsbD_eq
  intro i hi
  have hbyte := (hv (i / 8) (by omega)).trans (hw (i / 8) (by omega)).symm
  have hbit := congrArg (·.getLsbD (i % 8)) hbyte
  simpa [BitVec.getLsbD_extractLsb', Nat.mod_lt, Nat.div_add_mod] using hbit

theorem BytesWritten.wordAt_same (h : BytesWritten a b base v) : wordAt b base = v :=
  (holdsBytes_wordAt b base).unique h.1

/-- A word that shares no byte with the one written reads as before. -/
theorem BytesWritten.wordAt_other (h : BytesWritten a b base v)
    (hb : base' + 4 ≤ base ∨ base + 4 ≤ base') : wordAt b base' = wordAt a base' := by
  refine (holdsBytes_wordAt b base').unique fun j hj => ?_
  rw [holdsBytes_wordAt a base' j hj, h.2 _ (by omega)]

end

/-- STATUS's fields (R26) stand in its low 14 bits. -/
theorem Status.word_eq (t : Status) : t.word = (t.outcome.bits ++ BitVec.ofBool t.ovr ++ BitVec.ofBool t.found
    ++ BitVec.ofBool t.crcOk ++ BitVec.ofBool t.presence ++ t.fault.bits ++ 0#3
    ++ BitVec.ofBool t.busy).setWidth 32 := by
  apply BitVec.eq_of_toNat_eq
  simp only [Status.word, BitVec.toNat_append, BitVec.toNat_setWidth_of_le (show 14 ≤ 32 by omega)]
  simp

/-- CONFIG's fields (R27, R28) stand in its low three bits. -/
theorem configWord_eq (p : PowerMode) (m : LineMode) : configWord p m = (m.bits ++ p.bits).setWidth 32 := by
  apply BitVec.eq_of_toNat_eq
  simp only [configWord, BitVec.toNat_append, BitVec.toNat_setWidth_of_le (show 3 ≤ 32 by omega)]
  simp

/-- CTXc_CTL's fields (R33) stand in its low 11 bits. -/
theorem Context.ctlWord_eq (x : Context) :
    x.ctlWord = (x.outcome.bits ++ x.phase.bits ++ x.family).setWidth 32 := by
  apply BitVec.eq_of_toNat_eq
  simp only [Context.ctlWord, BitVec.toNat_append, BitVec.toNat_setWidth_of_le (show 11 ≤ 32 by omega)]
  simp

section
variable (t : Status)

/-- The flags of one bit (R26). -/
theorem Status.word_flags : t.word.getLsbD 0 = t.busy ∧ t.word.getLsbD 8 = t.presence ∧
    t.word.getLsbD 9 = t.crcOk ∧ t.word.getLsbD 10 = t.found ∧ t.word.getLsbD 11 = t.ovr := by
  simp only [Status.word_eq, BitVec.getLsbD_setWidth, BitVec.getLsbD_append]
  simp

theorem Status.word_fault : t.word.extractLsb' 4 4 = t.fault.bits := by
  rw [Status.word_eq, BitVec.extractLsb'_setWidth_of_le (by omega)]
  simp (disch := omega) only [BitVec.extractLsb'_append_eq_of_le, BitVec.extractLsb'_append_eq_of_add_le]
  exact BitVec.extractLsb'_eq_self

theorem Status.word_outcome : t.word.extractLsb' 12 2 = t.outcome.bits := by
  rw [Status.word_eq, BitVec.extractLsb'_setWidth_of_le (by omega)]
  simp (disch := omega) only [BitVec.extractLsb'_append_eq_of_le]
  exact BitVec.extractLsb'_eq_self

theorem Status.word_reserved {i : Nat} (h : 1 ≤ i ∧ i < 4 ∨ 14 ≤ i) : t.word.getLsbD i = false := by
  rw [Status.word_eq, BitVec.getLsbD_setWidth]
  obtain ⟨h1, h4⟩ | h := h
  · rw [BitVec.getLsbD_append, if_neg (by omega), BitVec.getLsbD_append, if_pos (by omega)]
    simp
  · rw [BitVec.getLsbD_of_ge _ _ (by omega)]
    simp

end

theorem FaultCode.mem_faultNumber (c : FaultCode) : (c, c.bits) ∈ faultNumber := by cases c <;> decide

theorem SensorOutcome.mem_outcomeNumber (o : SensorOutcome) : (o, o.bits) ∈ outcomeNumber := by
  cases o <;> decide

theorem LineMode.mem_modeNumber (m : LineMode) : (m, m.bits) ∈ modeNumber := by cases m <;> decide

theorem configWord_powerMode (p : PowerMode) (m : LineMode) :
    (configWord p m).getLsbD 0 = decide (p = .passive) := by
  simp only [configWord_eq, BitVec.getLsbD_setWidth, BitVec.getLsbD_append]
  cases p <;> rfl

theorem configWord_lineMode (p : PowerMode) (m : LineMode) : (configWord p m).extractLsb' 1 2 = m.bits := by
  rw [configWord_eq, BitVec.extractLsb'_setWidth_of_le (by omega)]
  exact BitVec.extractLsb'_append_eq_left

section
variable (x : Context)

theorem Context.ctlWord_family : x.ctlWord.extractLsb' 0 8 = x.family := by
  rw [Context.ctlWord_eq, BitVec.extractLsb'_setWidth_of_le (by omega)]
  exact BitVec.extractLsb'_append_eq_right

theorem Context.ctlWord_phase : x.ctlWord.getLsbD 8 = decide (x.phase = .conversionStarted) := by
  simp only [Context.ctlWord_eq, BitVec.getLsbD_setWidth, BitVec.getLsbD_append]
  cases x.phase <;> rfl

theorem Context.ctlWord_outcome : x.ctlWord.extractLsb' 9 2 = x.outcome.bits := by
  rw [Context.ctlWord_eq, BitVec.extractLsb'_setWidth_of_le (by omega),
    BitVec.extractLsb'_append_eq_of_le (by omega)]
  exact BitVec.extractLsb'_append_eq_left

end

/-- A register of `k` bits reads as a word whose low bits it is. -/
theorem extractLsb'_setWidth {k : Nat} (x : BitVec k) (h : k ≤ 32) : (x.setWidth 32).extractLsb' 0 k = x := by
  rw [BitVec.extractLsb'_setWidth_of_le (by omega), BitVec.extractLsb'_eq_self]

/-- Masked to bits at which it has only zeros, a word is 0. -/
theorem and_eq_zero {w m : Word} (h : ∀ i < 32, m.getLsbD i = true → w.getLsbD i = false) :
    w &&& m = 0 := by
  apply BitVec.eq_of_getLsbD_eq
  intro i hi
  cases hm : m.getLsbD i
  · simp [hm]
  · simp [h i hi hm]

/-- The bits above a register of `k` bits read 0 (R40). -/
theorem setWidth_and_eq_zero {k : Nat} (x : BitVec k) {m : Word} (h : ∀ i < k, m.getLsbD i = false) :
    x.setWidth 32 &&& m = 0 := by
  refine and_eq_zero fun i hi hm => ?_
  have hk : k ≤ i := by
    by_contra hlt
    simp [h i (by omega)] at hm
  simp [BitVec.getLsbD_of_ge x i hk]

theorem Status.word_and_reserved (t : Status) : t.word &&& 0xFFFFC00E = 0 :=
  have hm : ∀ i < 32, (0xFFFFC00E : Word).getLsbD i = true → 1 ≤ i ∧ i < 4 ∨ 14 ≤ i := by decide
  and_eq_zero fun i hi hi' => t.word_reserved (hm i hi hi')

/-! ## The map (R25, R60) -/

theorem accessAt_address (p : Params) (a : Access) : accessAt p (a.address p) a.width = some a := by
  have h := a.offset.isLt
  rw [accessAt, Access.address, if_pos (by omega), Nat.add_sub_cancel_left, BitVec.ofNat_toNat]
  simp

theorem accessAt_eq_none_iff (p : Params) (addr width : Nat) :
    accessAt p addr width = none ↔ addr < p.blockBase ∨ p.blockBase + 1024 ≤ addr := by
  unfold accessAt
  split
  · simp; omega
  · simp; omega

/-- From offset 0x080 on the map is of the contexts. -/
theorem regAt_of_ge (n : Nat) {r : BitVec 8} (h : 32 ≤ r.toNat) : regAt n r =
    if (r.toNat - 32) / 8 < n ∧ (r.toNat - 32) / 8 < 16 then
      ctxRegAt (BitVec.ofNat 4 ((r.toNat - 32) / 8)) ((r.toNat - 32) % 8)
    else .reserved := by
  unfold regAt
  split
  case h_15 => simp [h]
  all_goals omega

theorem regAt_fixed (n : Nat) (r : BitVec 8) : ∀ x ∈ fixedMap, 4 * r.toNat = x.1 → regAt n r = x.2 := by
  intro x hx hr
  simp only [fixedMap, List.mem_cons, List.not_mem_nil, or_false] at hx
  have hr' : r = BitVec.ofNat 8 (x.1 / 4) := by
    apply BitVec.eq_of_toNat_eq
    rw [← hr]
    simp
  subst hr'
  rcases hx with rfl | rfl | rfl | rfl | rfl | rfl | rfl | rfl | rfl | rfl | rfl | rfl | rfl | rfl <;> rfl

/-- The registers of a context stand one after the other. -/
theorem ctxMap_eq (c : BitVec 4) : ctxMap c =
    (List.range 6).map fun f => (0x080 + 0x20 * c.toNat + 4 * f, ctxRegAt c f) := rfl

theorem ctxRegAt_of_ge (c : BitVec 4) {f : Nat} (h : 6 ≤ f) : ctxRegAt c f = .reserved := by
  unfold ctxRegAt
  split
  case h_7 => rfl
  all_goals omega

theorem regAt_ctx {n c : Nat} (hc : c < n) (hn : n ≤ 16) (r : BitVec 8) :
    ∀ x ∈ ctxMap (BitVec.ofNat 4 c), 4 * r.toNat = x.1 → regAt n r = x.2 := by
  intro x hx hr
  rw [ctxMap_eq, List.mem_map] at hx
  obtain ⟨f, hf, rfl⟩ := hx
  have hf6 := List.mem_range.1 hf
  have hpos : r.toNat = 32 + 8 * c + f := by
    simp only [BitVec.toNat_ofNat] at hr
    omega
  rw [regAt_of_ge n (by omega), if_pos (by omega), show (r.toNat - 32) / 8 = c by omega,
    show (r.toNat - 32) % 8 = f by omega]

theorem regAt_registerMap {n : Nat} (hn : n ≤ 16) (r : BitVec 8) :
    ∀ x ∈ registerMap n, 4 * r.toNat = x.1 → regAt n r = x.2 := by
  intro x hx
  rw [registerMap, List.mem_append, List.mem_flatMap] at hx
  obtain hx | ⟨c, hc, hx⟩ := hx
  · exact regAt_fixed n r x hx
  · exact regAt_ctx (List.mem_range.1 hc) hn r x hx

theorem regAt_reserved {n : Nat} {r : BitVec 8} (h : 4 * r.toNat ∉ (registerMap n).map (·.1)) :
    regAt n r = .reserved := by
  rw [registerMap, List.map_append, List.mem_append, not_or] at h
  obtain ⟨hfixed, hctx⟩ := h
  by_cases hlt : r.toNat < 32
  · unfold regAt
    split
    case h_15 => exact if_neg (by omega)
    all_goals exact absurd (by simp [fixedMap, ‹r.toNat = _›]) hfixed
  · rw [regAt_of_ge n (by omega)]
    split
    case isTrue hc =>
      obtain ⟨hn, h16⟩ := hc
      refine ctxRegAt_of_ge _ (Nat.le_of_not_lt fun hf => hctx ?_)
      rw [List.map_flatMap, List.mem_flatMap]
      refine ⟨(r.toNat - 32) / 8, List.mem_range.2 hn, ?_⟩
      rw [ctxMap_eq, List.map_map, List.mem_map]
      refine ⟨(r.toNat - 32) % 8, List.mem_range.2 hf, ?_⟩
      simp only [Function.comp, BitVec.toNat_ofNat]
      omega
    case isFalse => rfl

/-! ## Reserved bits of a written word (R40) -/

theorem writeConfig_and (s : State) (v : Word) : s.writeConfig v = s.writeConfig (v &&& 0x7) := by
  have hpower : (v &&& 0x7).getLsbD 0 = v.getLsbD 0 := by simp
  have hmode : (v &&& 0x7).extractLsb' 1 2 = v.extractLsb' 1 2 := by
    rw [BitVec.extractLsb'_and]
    exact BitVec.and_allOnes
  unfold State.writeConfig
  rw [hpower, hmode]

theorem writeStatus_and (s : State) (v : Word) : s.writeStatus v = s.writeStatus (v &&& 0x800) := by
  have hbit : (v &&& 0x800).getLsbD 11 = v.getLsbD 11 := by simp
  unfold State.writeStatus
  rw [hbit]

theorem writeCrcAcc_and (s : State) (v : Word) :
    s.writeReg v .crcAcc = s.writeReg (v &&& 0xFF) .crcAcc := by
  have hbyte : (v &&& 0xFF).setWidth 8 = v.setWidth 8 := by
    rw [BitVec.setWidth_and]
    exact BitVec.and_allOnes
  unfold State.writeReg
  simp only [hbyte]

theorem setWidth_setWidth_byte (v : Word) : (v.setWidth 8).setWidth 32 = v &&& 0xFF := by
  have hmask : ∀ i < 32, (0xFF : Word).getLsbD i = decide (i < 8) := by decide
  apply BitVec.eq_of_getLsbD_eq
  intro i hi
  rw [BitVec.getLsbD_and, hmask i hi, BitVec.getLsbD_setWidth, BitVec.getLsbD_setWidth]
  simp [hi, Bool.and_comm]

/-! ## Reading after a write -/

section
variable {s : State} {r : BitVec 8} {v : Word}

theorem ctxRegAt_ne_iobuf (c : BitVec 4) (f k : Nat) : ctxRegAt c f ≠ .iobuf k := by
  unfold ctxRegAt
  split <;> simp

/-- The map has four words of IOBUF (R25). -/
theorem lt_of_regAt_eq_iobuf {n k : Nat} {r : BitVec 8} (h : regAt n r = .iobuf k) : k < 4 := by
  unfold regAt at h
  split at h
  case h_15 =>
    split at h
    · exact absurd h (ctxRegAt_ne_iobuf _ _ _)
    · simp at h
  all_goals simp at h
  all_goals omega

theorem readReg_writeReg_iobuf {k : Nat} (hk : k < 4) {reg : Reg} (h : reg ≠ .iobuf k) :
    (s.writeReg v (.iobuf k)).readReg reg = s.readReg reg := by
  cases reg
  case iobuf j =>
    have hj : j ≠ k := fun e => h (e ▸ rfl)
    exact (bytesWritten_setWordAt s.regs.iobuf (4 * k) v (by omega)).wordAt_other (by omega)
  all_goals simp [State.readReg, State.writeReg, Regs.context]

theorem readReg_writeReg_crcAcc {reg : Reg} (h : reg ≠ .crcAcc) :
    (s.writeReg v .crcAcc).readReg reg = s.readReg reg := by
  cases reg
  case crcAcc => exact absurd rfl h
  all_goals rfl

theorem context_setAddr (s : State) (c d : BitVec 4) (a : Vector Byte 8) : (s.setAddr c a).regs.context d =
    if d = c then { s.regs.context d with addr := a } else s.regs.context d := by
  rw [State.setAddr, State.onCtx_regs, context_setContext]
  split
  · subst d
    rfl
  · rfl

/-- A changed address is seen in the context's two address registers and in FAMILY, and nowhere else. -/
theorem readReg_setAddr {c : BitVec 4} {a : Vector Byte 8} {reg : Reg}
    (hlo : reg = .ctxAddrLo c → wordAt a 0 = wordAt (s.regs.context c).addr 0)
    (hhi : reg = .ctxAddrHi c → wordAt a 4 = wordAt (s.regs.context c).addr 4)
    (hctl : reg = .ctxCtl c → byteAt a 0 = byteAt (s.regs.context c).addr 0) :
    (s.setAddr c a).readReg reg = s.readReg reg := by
  cases reg
  case ctxAddrLo d | ctxAddrHi d | ctxCtl d | ctxTempRaw d | ctxTempF32 d | ctxT0 d =>
    simp only [State.readReg, context_setAddr, Context.ctlWord, Context.family]
    split
    · subst d
      simp_all
    · rfl
  all_goals rfl

theorem onCtx_congr {c : BitVec 4} {f g : Context → Context}
    (h : f (s.regs.context c) = g (s.regs.context c)) : s.onCtx c f = s.onCtx c g := by
  simp only [State.onCtx, State.onRegs, h]

theorem writeReg_ctxAddrLo (s : State) (v : Word) (c : BitVec 4) :
    s.writeReg v (.ctxAddrLo c) = s.setAddr c (setWordAt (s.regs.context c).addr 0 v) := by
  rw [State.writeReg, State.setAddr]
  exact onCtx_congr rfl

theorem writeReg_ctxAddrHi (s : State) (v : Word) (c : BitVec 4) :
    s.writeReg v (.ctxAddrHi c) = s.setAddr c (setWordAt (s.regs.context c).addr 4 v) := by
  rw [State.writeReg, State.setAddr]
  exact onCtx_congr rfl

theorem readReg_setAddr_lo (c : BitVec 4) (a : Vector Byte 8) :
    (s.setAddr c a).readReg (.ctxAddrLo c) = wordAt a 0 := by
  rw [State.readReg, context_setAddr, if_pos rfl]

theorem readReg_setAddr_hi (c : BitVec 4) (a : Vector Byte 8) :
    (s.setAddr c a).readReg (.ctxAddrHi c) = wordAt a 4 := by
  rw [State.readReg, context_setAddr, if_pos rfl]

end

/-! ## The statements about host accesses and the reset state -/

/-- Settles O6: what the next step takes is what it runs. -/
theorem stepRunsTheDecodedInstruction : Obligations.StepRunsTheDecodedInstruction := by
  refine ⟨fun s w v rest i hr ht hs hq hw ho hd => ?_, fun s b i hr ht hd => ?_⟩
  · obtain ⟨offset, width⟩ := v
    obtain rfl : width = 32 := hw
    obtain rfl : offset = 0 := ho
    have hstep : step s = exec i (s.takeInput.accept w) :=
      calc step s = input s.takeInput (wr 0 w) := State.Asks.step ⟨hr, ht, by rw [hq]; rfl⟩
        _ = hostWrite 0 w s.takeInput := input_wr ..
        _ = issue w s.takeInput := hostWrite_cmd hs (regAt_zero _)
        _ = exec i (s.takeInput.accept w) := issue_of_ok hd
    exact ⟨hstep, by simp [State.takeInput, State.onHost, hq], rfl, rfl⟩
  · unfold step fetchAndRun sendPending
    rw [hr, ht]
    simp only [hd]

/-- Settles O7: only the two statements of `fail(ILLEGAL)` run from the accepted state. -/
theorem illegalWordRecordsIllegalAndNothingElse :
    Obligations.IllegalWordRecordsIllegalAndNothingElse := by
  intro s w e hn hd
  have hspec : Spec (fail .illegal : Cmd Unit) (s.accept w) (fun _ _ => False) fun t =>
      s.Done t { s.status with fault := .illegal } s.regs s.pin.mode ∧ t.trace = s.trace ∧
        t.pin = s.pin ∧ t.engine = s.engine := fail_spec fun t u ht hu => by
    have hdid := (((Did.start (s.accept w)).later ht).onStatus
      (f := fun a => { a with fault := .illegal }) fun _ _ => rfl)
    obtain ⟨hseq, hst, hovr, hregs, hmode, hparams, hrst, hqueue⟩ := (hdid.ends hu).done
    exact ⟨⟨hseq, hst, hovr, hregs, hmode, hparams, hrst, hqueue⟩, hu.trace.trans ht.trace,
      hu.pin.trans ht.pin, hu.engine.trans ht.engine⟩
  obtain ⟨t, ht, -, hf | hf⟩ := hspec.runs_of_noReset hn
  · exact hf.elim
  · exact ⟨t, (issue_of_error hd).trans ht, hf⟩

/-- Settles O9: the two cases of `busyWrite`, and `writeStatus` at any time. -/
theorem busyWritesAreDroppedAndSetOvr : Obligations.BusyWritesAreDroppedAndSetOvr := by
  refine ⟨fun s r v hq hr => ?_, fun s r v hr => ?_⟩
  · exact ⟨by rw [hostWrite_of_busy hq, busyWrite_other hr], busyWrite_other hr⟩
  · have hb : s.busyWrite r v = _ := (busyWrite_status hr).trans (writeStatus_eq s v)
    refine ⟨?_, hb⟩
    by_cases hq : s.seq = .idle
    · rw [hostWrite_of_idle hq (by simp [hr]), hr]
      exact congrArg _ (writeStatus_eq s v)
    · rw [hostWrite_of_busy hq, hb]

/-- Settles O11: what an idle block answers, and the two cases of `busyRead`. -/
theorem hostReadsReturnTheRegister : Obligations.HostReadsReturnTheRegister := by
  refine ⟨fun s r h => ⟨?_, rfl⟩, fun s r hq => hostRead_of_idle hq, fun s r hr => ?_,
    fun s r hq hr => ?_⟩
  · rw [h.step, input_rd]
  · by_cases hq : s.seq = .idle
    · rw [hostRead_of_idle hq, State.idleRead, State.readWord, hr]
      rfl
    · rw [hostRead_of_busy hq, busyRead_status hr]
      rfl
  · rw [hostRead_of_busy hq]
    exact busyRead_other hr

/-- The modes of LINE_MODE's numbers (R27). -/
theorem ofBits_eq (m : LineMode) (b : BitVec 2) : LineMode.ofBits m b = match b.toNat with
    | 0 => .openDrain
    | 1 => .strongPullup
    | 2 => .analog
    | _ => m := by
  revert b
  cases m <;> decide

/-- Settles O15, by whether LINE_MODE is written (R27). -/
theorem configWriteSetsBothModes : Obligations.ConfigWriteSetsBothModes := by
  intro s v h hq
  refine ⟨_, h.step_writeReg hq (regAt_two _) (by simp), ?_⟩
  have hmode := ofBits_eq s.pin.mode (v.extractLsb' 1 2)
  by_cases hb : v.extractLsb' 1 2 = 3
  · have ht : s.takeInput.writeReg v .config = s.takeInput.onRegs
        fun r => { r with powerMode := PowerMode.ofBit (v.getLsbD 0) } := if_pos hb
    rw [ht, if_pos hb]
    refine ⟨rfl, ?_, fun h0 => ?_, fun _ => rfl, fun _ _ => rfl⟩
    · rw [hb]; rfl
    · simp [h0] at hb
  · have ht : s.takeInput.writeReg v .config = (s.takeInput.onRegs
        fun r => { r with powerMode := PowerMode.ofBit (v.getLsbD 0) }).changeMode
          (LineMode.ofBits s.pin.mode (v.extractLsb' 1 2)) := if_neg hb
    rw [ht, if_neg hb]
    refine ⟨rfl, hmode, fun h0 => ?_, fun h3 => absurd h3 hb, fun hc hm => ?_⟩
    · rw [h0]; rfl
    · have hsame := congrArg State.pin (State.putMode_same s hc.released)
      rw [← hsame]
      exact congrArg (fun m => (s.putMode m).pin) hm
theorem byteAt_replicate_zero (n j : Nat) : byteAt (Vector.replicate n (0 : Byte)) j = 0 := by
  unfold byteAt
  by_cases h : j < n <;> simp [h]

/-- Settles O20: the values of the reset state, every context being the one after reset. -/
theorem resetStateHoldsTheTable : Obligations.ResetStateHoldsTheTable := by
  have hctx (c : BitVec 4) : State.reset.regs.context c = Context.reset :=
    Regs.context_reset c (Vector.replicate 9 0)
  refine ⟨rfl, rfl, rfl, rfl, rfl, rfl, rfl, byteAt_replicate_zero 8, rfl, byteAt_replicate_zero 8,
    byteAt_replicate_zero 16, fun c => ?_⟩
  rw [hctx]
  exact ⟨byteAt_replicate_zero 8, byteAt_replicate_zero 8 0, rfl, rfl, rfl, rfl, rfl⟩

/-- Settles O54, by `Regs.wf_reset` and what R4 asks of the parameters. -/
theorem resetStateIsWellFormed : Obligations.ResetStateIsWellFormed := by
  obtain ⟨hfork, hctx, htemp⟩ := Regs.wf_reset Config.refNumCtx (Vector.replicate 9 0)
  exact ⟨State.reset_params_wf, by decide, hfork, ⟨rfl, fun _ => rfl⟩, hctx, rfl, htemp⟩

/-- Settles O14: the register written, then what its change leaves of the others. -/
theorem writableRegistersReadBack : Obligations.WritableRegistersReadBack := by
  intro s r v h hq
  have hlo (c : BitVec 4) := bytesWritten_setWordAt (s.regs.context c).addr 0 v (by omega)
  have hhi (c : BitVec 4) := bytesWritten_setWordAt (s.regs.context c).addr 4 v (by omega)
  have hstep_lo {c : BitVec 4} (hc : regAt s.params.numCtx r = .ctxAddrLo c) : step s =
      .next (s.takeInput.setAddr c (setWordAt (s.regs.context c).addr 0 v)) := by
    rw [h.step_writeReg hq hc (by simp), writeReg_ctxAddrLo]
    rfl
  have hstep_hi {c : BitVec 4} (hc : regAt s.params.numCtx r = .ctxAddrHi c) : step s =
      .next (s.takeInput.setAddr c (setWordAt (s.regs.context c).addr 4 v)) := by
    rw [h.step_writeReg hq hc (by simp), writeReg_ctxAddrHi]
    rfl
  refine ⟨fun k hk => ?_, fun c hc => ?_, fun c hc => ?_, fun hr => ?_, fun reg hr hreg => ?_⟩
  · have hw := bytesWritten_setWordAt s.regs.iobuf (4 * k) v
      (by have := lt_of_regAt_eq_iobuf hk; omega)
    exact ⟨_, hw, h.step_writeReg hq hk (by simp), hw.wordAt_same⟩
  · exact ⟨_, hlo c, hstep_lo hc, (hlo c).wordAt_same, ((hlo c).1 0 (by omega)).symm⟩
  · exact ⟨_, hhi c, hstep_hi hc, (hhi c).wordAt_same⟩
  · rw [h.step_writeReg hq hr (by simp), ← BitVec.setWidth_eq_extractLsb' (by omega)]
    rfl
  · obtain ⟨k, rfl⟩ | ⟨c, rfl | rfl⟩ | rfl := hreg
    · have hk := lt_of_regAt_eq_iobuf hr
      have hw := bytesWritten_setWordAt s.regs.iobuf (4 * k) v (by omega)
      exact ⟨_, h.step_writeReg hq hr (by simp), hw.wordAt_same,
        fun reg' hne _ => readReg_writeReg_iobuf hk hne⟩
    · refine ⟨_, hstep_lo hr, (readReg_setAddr_lo c _).trans (hlo c).wordAt_same, fun reg' hne hctl => ?_⟩
      exact readReg_setAddr (s := s.takeInput) (absurd · hne) (fun _ => (hlo c).wordAt_other (by omega))
          (absurd · (hctl c rfl))
    · refine ⟨_, hstep_hi hr, (readReg_setAddr_hi c _).trans (hhi c).wordAt_same, fun reg' hne _ => ?_⟩
      exact readReg_setAddr (s := s.takeInput) (fun _ => (hhi c).wordAt_other (by omega)) (absurd · hne)
          fun _ => (hhi c).2 0 (by omega)
    · exact ⟨_, h.step_writeReg hq hr (by simp), setWidth_setWidth_byte v,
        fun reg' hne _ => readReg_writeReg_crcAcc hne⟩

/-- Settles O13, clause by clause: the map, the fields, the accesses, the reserved bits. -/
theorem reservedAndReadOnlyRegisters : Obligations.ReservedAndReadOnlyRegisters := by
  refine ⟨fun n r hn => ⟨regAt_registerMap hn r, regAt_reserved⟩,
    fun p a addr width => ⟨accessAt_address p a, accessAt_eq_none_iff p addr width⟩,
    fun s => ?status, fun s => ?config, fun s c => ?context, fun s => ?data,
    fun s r v h => ?step, fun s r v hq hr => hostWrite_of_idle hq hr, fun s r hr => ?readReserved,
    fun s r v hr => ?busy, fun s v c => ?readOnly, fun s v => ?writtenBits, fun s => ?readBits⟩
  case status =>
    obtain ⟨hbusy, hpresence, hcrcOk, hfound, hovr⟩ := s.status.word_flags
    exact ⟨hbusy, s.status.word_fault ▸ s.status.fault.mem_faultNumber, hpresence, hcrcOk, hfound, hovr,
      s.status.word_outcome ▸ s.status.outcome.mem_outcomeNumber⟩
  case config =>
    exact ⟨configWord_powerMode .., (configWord_lineMode ..) ▸ s.pin.mode.mem_modeNumber⟩
  case context =>
    exact ⟨Context.ctlWord_family _, Context.ctlWord_phase _,
      (Context.ctlWord_outcome _) ▸ SensorOutcome.mem_outcomeNumber _,
      holdsBytes_wordAt _ _, holdsBytes_wordAt _ _,
      extractLsb'_setWidth _ (by omega), rfl, rfl⟩
  case data =>
    exact ⟨extractLsb'_setWidth _ (by omega), extractLsb'_setWidth _ (by omega),
      extractLsb'_setWidth _ (by omega), holdsBytes_wordAt _ _, holdsBytes_wordAt _ _, holdsBytes_wordAt _ _,
      holdsBytes_wordAt _ _, fun k => holdsBytes_wordAt _ _⟩
  case step => rw [h.step, input_wr]
  case readReserved => rw [State.readWord, hr, State.readReg]
  case busy => rw [busyWrite_other hr]
  case readOnly =>
    simp only [List.forall_mem_cons, List.not_mem_nil, false_imp_iff, implies_true, and_true]
    and_intros <;> rfl
  case writtenBits =>
    exact ⟨writeStatus_and s v, writeConfig_and s v, writeCrcAcc_and s v⟩
  case readBits =>
    refine ⟨s.status.word_and_reserved, ?_, setWidth_and_eq_zero _ (by decide),
      setWidth_and_eq_zero _ (by decide), setWidth_and_eq_zero _ (by decide), rfl, fun c => ⟨?_, ?_⟩⟩
    · rw [State.readReg, configWord_eq]
      exact setWidth_and_eq_zero _ (by decide)
    · rw [State.readReg, Context.ctlWord_eq]
      exact setWidth_and_eq_zero _ (by decide)
    · exact setWidth_and_eq_zero _ (by decide)

end Sys2Proof.Machine

/-! PROOFS of the family Memory (20_memory.md): which accesses have a shape the block takes (R63), the bits of
an address in wire order (R66, R69), and the byte and buffer transfers (R66, R67). -/

namespace Sys2Proof.Machine

/-! ## Accesses of another shape (R63) -/

section
variable {s : State}

/-- An access names no word exactly when it has another shape. -/
theorem reg?_eq_none_iff (a : Access) : a.reg? = none ↔ a.width ≠ 32 ∨ a.offset.toNat % 4 ≠ 0 := by
  have hoff : a.offset.extractLsb' 0 2 = 0 ↔ a.offset.toNat % 4 = 0 := by
    simp [← BitVec.toNat_inj]
  unfold Access.reg?
  simp only [ite_eq_right_iff, reduceCtorEq, imp_false, hoff]
  exact not_and_or

/-- With no byte pending a step takes the host's next input, at either level of `rst`. -/
theorem step_eq_hostInput {i : Input} {rest : List Input} (ht : s.engine.tx = none)
    (hq : s.host.queue = i :: rest) : step s = hostInput s.takeInput i := by
  have hrst : s.takeInput.rstIn = s.rstIn := rfl
  unfold step fetchAndRun hostInput
  rw [ht, hq, hrst]
  cases s.rstIn <;> rfl

/-- An issued word runs to a next state, be it legal or not (R216). -/
theorem issue_next (w : Word) (s : State) : ∃ t, issue w s = .next t := by
  cases hd : decodeCmd s.params.numCtx w with
  | ok i =>
    obtain ⟨c, hc, -⟩ := exec_built s.regs.powerMode i
    exact ⟨_, (issue_of_ok hd).trans (hc _)⟩
  | error e => exact ⟨_, issue_of_error hd⟩

/-- A write of a word index has a next state. -/
theorem hostWrite_next (r : BitVec 8) (v : Word) (s : State) : ∃ t, hostWrite r v s = .next t := by
  by_cases hq : s.seq = .idle
  · by_cases hr : regAt s.params.numCtx r = .cmd
    · rw [hostWrite_cmd hq hr]
      exact issue_next v s
    · exact ⟨_, hostWrite_of_idle hq hr⟩
  · exact ⟨_, hostWrite_of_busy hq⟩

/-- A read is refused exactly when it names no word. -/
theorem hostInput_read_refused_iff (a : Access) :
    hostInput s (.read a) = .refused .unsupportedAccess ↔ a.reg? = none := by
  cases hr : s.rstIn <;> cases ha : a.reg? <;> simp [hr, ha, input, inputInReset]

/-- A write is refused exactly when it names no word. -/
theorem hostInput_write_refused_iff (a : Access) (v : Word) :
    hostInput s (.write a v) = .refused .unsupportedAccess ↔ a.reg? = none := by
  cases ha : a.reg? with
  | none => cases hr : s.rstIn <;> simp [hr, ha, input, inputInReset]
  | some r =>
    obtain ⟨t, ht⟩ := hostWrite_next r v s
    cases hr : s.rstIn <;> simp [hr, ha, ht, input, inputInReset]

/-- A level on `rst` is never refused (R230). -/
theorem hostInput_rst_ne_refused (level : Bool) (x : Refusal) : hostInput s (.rst level) ≠ .refused x := by
  cases hr : s.rstIn <;> cases level <;> simp [hr, input, inputInReset]

end

/-- Settles O12, by the form of the input. -/
theorem accessesOfAnotherShapeAreRefused : Obligations.AccessesOfAnotherShapeAreRefused := by
  intro s i rest ht hq
  rw [step_eq_hostInput ht hq]
  cases i with
  | read a => exact (hostInput_read_refused_iff a).trans (reg?_eq_none_iff a)
  | write a v => exact (hostInput_write_refused_iff a v).trans (reg?_eq_none_iff a)
  | rst level => exact iff_false_intro (hostInput_rst_ne_refused level _)

/-! ## The bits of bytes and addresses (R66, R69, R150) -/

/-- The bits in wire order determine the byte (R66). -/
theorem byteBits_injective : Function.Injective byteBits := fun _ _ h =>
  BitVec.eq_of_getLsbD_eq fun i hi => List.map_inj_left.1 h i (List.mem_range.2 hi)

section
variable {n : Nat}

/-- Positions count from 1: position `8 j + i + 1` is bit `i` of byte `j` (R69). -/
theorem posBit_mul_add (a : Vector Byte n) (j : Nat) {i : Nat} (hi : i < 8) :
    posBit a (8 * j + i + 1) = (byteAt a j).getLsbD i := by
  unfold posBit
  rw [show (8 * j + i + 1 - 1) / 8 = j by omega, show (8 * j + i + 1 - 1) % 8 = i by omega]

/-- The positions of the first `k` bytes are the bits of those bytes, each in wire order (R66, R69). -/
theorem map_posBit_range (a : Vector Byte n) (k : Nat) :
    (List.range (8 * k)).map (fun p => posBit a (p + 1)) =
      ((List.range k).map (byteAt a)).flatMap byteBits := by
  induction k with
  | zero => rfl
  | succ k ih =>
    have hbyte : (List.range 8).map (fun i => posBit a (8 * k + i + 1)) = byteBits (byteAt a k) :=
      List.map_congr_left fun i hi => posBit_mul_add a k (List.mem_range.1 hi)
    rw [Nat.mul_succ, List.range_add, List.map_append, ih, List.map_map, List.range_succ (n := k),
      List.map_append, List.flatMap_append, List.map_singleton, List.flatMap_singleton, ← hbyte]
    rfl

/-- A position reads the bit written to it, and every other position reads as before (R150). -/
theorem posBit_setPosBit (a : Vector Byte n) {p q : Nat} (v : Bool) (hp : 1 ≤ p) (hpn : p ≤ 8 * n)
    (hq : 1 ≤ q) : posBit (setPosBit a p v) q = if q = p then v else posBit a q := by
  unfold posBit setPosBit
  rw [byteAt_setByte _ _ _ _ (by omega)]
  by_cases hbyte : (q - 1) / 8 = (p - 1) / 8
  · have hbit : (q - 1) % 8 = (p - 1) % 8 ↔ q = p := by omega
    rw [if_pos hbyte, getLsbD_setBit _ _ _ _ (by omega) (by omega), hbyte]
    simp only [hbit]
  · rw [if_neg hbyte, if_neg (by rintro rfl; exact hbyte rfl)]

end

/-- Settles O21: SetBit by the byte and the bit in it, the wire order byte by byte. -/
theorem setBitWritesOnePosition : Obligations.SetBitWritesOnePosition :=
  ⟨fun a _ _ v hp hp64 hq _ => ⟨posBit_setPosBit a v hp hp64 hq, rfl⟩, fun a => by
    rw [← firstBytes_eq_map a 8 (by omega)]
    exact map_posBit_range a 8⟩

/-! ## The byte and buffer transfers (R66, R67) -/

section
variable {s : State}

/-- What pseudocode that ends only by `finish` or `fail` answers when no `rst` lands. -/
theorem Spec.next_of_noReset {c : Cmd Unit} {F : State → Prop} (h : Spec c s (fun _ _ => False) F)
    (hn : s.NoReset) : ∃ t, Machine.runs c s = .next t ∧ F t := by
  obtain ⟨t, ht, -, hf | hf⟩ := h.runs_of_noReset hn
  · exact hf.elim
  · exact ⟨t, ht, hf⟩

/-- A byte read from scripted answers is the byte whose bits they are (R102, R109). -/
theorem Ends.byte_of_script {t : State} {st : Status} {r : Regs} {m : LineMode} {ev : List LineEvent}
    {k : Word × List Nat} {b b' : Byte} {rest : List Bool} (h : Ends s t st r m ev k)
    (hl : levelsOf ev = byteBits b) (hs : s.env.samples = byteBits b' ++ rest) : b = b' := by
  have hlen : (byteBits b').length = (levelsOf ev).length := by
    rw [hl]
    simp [byteBits]
  exact byteBits_injective (hl.symm.trans (h.script _ _ hs hlen).1)

/-- OW_WRITE_BYTE (R114): the slots of `WriteByte`, then `finish`. -/
theorem exec_owWriteByte (b : Byte) (hn : s.NoReset) :
    ∃ t, exec (.owWriteByte b) s = .next t ∧ ∃ ev, slotsOf ev = byteSlots b ∧ levelsOf ev = [] ∧
      Ends s t s.status s.regs s.pin.mode ev (s.env.tickIn, s.env.elapses) :=
  Spec.next_of_noReset (hn := hn) <|
    ((Did.start s).writeByte b).andThen fun _ _ _ ⟨ev, hslots, hlevels, hdid⟩ =>
      hdid.finish fun _ hends => ⟨ev, hslots, hlevels, hends⟩

/-- OW_READ_BYTE (R115): the slots of `ReadByte`, the write of RDATA, then `finish`. -/
theorem exec_owReadByte (hn : s.NoReset) :
    ∃ t, exec .owReadByte s = .next t ∧ ∃ b ev, slotsOf ev = List.replicate 8 .read ∧
      levelsOf ev = byteBits b ∧
      Ends s t s.status { s.regs with rdata := b } s.pin.mode ev (s.env.tickIn, s.env.elapses) :=
  Spec.next_of_noReset (hn := hn) <|
    (Did.start s).readByte.andThen fun b _ _ ⟨ev, hslots, hlevels, hdid⟩ =>
      (hdid.writeRegs fun r => { r with rdata := b }).andThen fun _ _ _ hdid =>
        hdid.finish fun _ hends => ⟨b, ev, hslots, hlevels, hends⟩

/-- OW_WRITE_BYTES with LEN in range (R116): the loop that sends the buffer, then `finish`. -/
theorem exec_owWriteBytes {len : BitVec 5} (hlen : len.toNat ≤ 16) (hn : s.NoReset) :
    ∃ t, exec (.owWriteBytes len) s = .next t ∧
      ∃ ev, slotsOf ev = bytesSlots (firstBytes s.regs.iobuf len.toNat) ∧ levelsOf ev = [] ∧
        (len = 0 → ev = []) ∧
        Ends s t s.status s.regs s.pin.mode ev (s.env.tickIn, s.env.elapses) := by
  rw [← firstBytes_eq_map _ _ hlen]
  refine Spec.next_of_noReset (withLen_spec (fun _ => ?_) fun h => absurd hlen (by omega)) hn
  exact ((Did.start s).sendBytes (f := fun r j => byteAt r.iobuf j) len.toNat fun _ => rfl).andThen
    fun _ _ _ ⟨ev, hslots, hlevels, hnone, hdid⟩ =>
      hdid.finish fun _ hends => ⟨ev, hslots, hlevels, fun h => hnone (h ▸ rfl), hends⟩

/-- OW_READ_BYTES with LEN in range (R117): the loop that fills the buffer, then `finish`. -/
theorem exec_owReadBytes {len : BitVec 5} (hlen : len.toNat ≤ 16) (hn : s.NoReset) :
    ∃ t, exec (.owReadBytes len) s = .next t ∧
      ∃ buf ev, slotsOf ev = List.replicate (8 * len.toNat) .read ∧
        levelsOf ev = (firstBytes buf len.toNat).flatMap byteBits ∧
        (∀ j, len.toNat ≤ j → byteAt buf j = byteAt s.regs.iobuf j) ∧
        Ends s t s.status { s.regs with iobuf := buf } s.pin.mode ev (s.env.tickIn, s.env.elapses) := by
  refine Spec.next_of_noReset (withLen_spec (fun _ => ?_) fun h => absurd hlen (by omega)) hn
  exact ((Did.start s).readBytes (get := Regs.iobuf) (put := fun r buf => { r with iobuf := buf })
      len.toNat hlen (fun _ _ => rfl) (fun _ _ _ => rfl) rfl fun _ => rfl).andThen
    fun _ _ _ ⟨buf, ev, hslots, hlevels, hrest, _, hdid⟩ =>
      hdid.finish fun _ hends => ⟨buf, ev, hslots, hlevels, hrest, hends⟩

end

/-- Settles O24, by what OW_WRITE_BYTE has done when it ends. -/
theorem owWriteByteSendsLsbFirst : Obligations.OwWriteByteSendsLsbFirst := by
  intro b s hn
  obtain ⟨t, ht, ev, hslots, hlevels, hends⟩ := exec_owWriteByte b hn
  exact ⟨t, ev, ht, hends.done, hends.emitted, hslots, hlevels⟩

/-- Settles O25, by what OW_READ_BYTE has done when it ends; scripted levels are those of the byte. -/
theorem owReadByteAssemblesLsbFirst : Obligations.OwReadByteAssemblesLsbFirst := by
  intro s hn
  obtain ⟨t, ht, b, ev, hslots, hlevels, hends⟩ := exec_owReadByte hn
  exact ⟨t, b, ev, ht, hends.done, hends.emitted, hslots, hlevels, fun _ _ => hends.byte_of_script hlevels⟩

/-- Settles O26, by what OW_WRITE_BYTES has done when it ends. -/
theorem owWriteBytesSendsTheBuffer : Obligations.OwWriteBytesSendsTheBuffer := by
  intro len s hlen hn
  obtain ⟨t, ht, ev, hslots, hlevels, hnone, hends⟩ := exec_owWriteBytes hlen hn
  exact ⟨t, ev, ht, hends.done, hends.emitted, hslots, hlevels, hnone⟩

/-- Settles O27, by what OW_READ_BYTES has done when it ends. -/
theorem owReadBytesFillsTheBuffer : Obligations.OwReadBytesFillsTheBuffer := by
  intro len s hlen hn
  obtain ⟨t, ht, buf, ev, hslots, hlevels, hrest, hends⟩ := exec_owReadBytes hlen hn
  exact ⟨t, buf, ev, ht, hends.done, hends.emitted, hslots, hlevels, hrest⟩

end Sys2Proof.Machine

/-! PROOFS of the family Encoding (30_encoding.md): the fields of a command word, the opcode map and the
encoder against each other, and the decoder by these (R80 to R90); the wire bytes as instructions (R90) and
COPY_FOUND (R92). The key fact is `encode_eq_cmd_iff`: a word is the encoding of an instruction exactly when a
row that the word names builds it. -/

namespace Sys2Proof

/-! ## The fields of a command word (R80) -/

section
variable (opc imm : BitVec 8) (len : BitVec 5) (ctx : BitVec 4)

@[simp] theorem opcOf_cmdWord : opcOf (cmdWord opc imm len ctx) = opc := by
  unfold opcOf cmdWord
  exact BitVec.extractLsb'_append_eq_right

@[simp] theorem immOf_cmdWord : immOf (cmdWord opc imm len ctx) = imm := by
  unfold immOf cmdWord
  rw [BitVec.extractLsb'_append_eq_of_le (by omega)]
  exact BitVec.extractLsb'_append_eq_right

@[simp] theorem lenOf_cmdWord : lenOf (cmdWord opc imm len ctx) = len := by
  unfold lenOf cmdWord
  rw [BitVec.extractLsb'_append_eq_of_le (by omega), BitVec.extractLsb'_append_eq_of_le (by omega)]
  exact BitVec.extractLsb'_append_eq_right

@[simp] theorem ctxOf_cmdWord : ctxOf (cmdWord opc imm len ctx) = ctx := by
  unfold ctxOf cmdWord
  simp (disch := omega) only [BitVec.extractLsb'_append_eq_of_le]
  exact BitVec.extractLsb'_append_eq_right

@[simp] theorem bitOf_cmdWord : bitOf (cmdWord opc imm len ctx) = imm.getLsbD 0 := by
  have h := congrArg (·.getLsbD 0) (immOf_cmdWord opc imm len ctx)
  simpa [immOf, bitOf] using h

end

section
variable (n : Nat)

@[simp] theorem opcOf_ofNat : opcOf (BitVec.ofNat 32 n) = BitVec.ofNat 8 (n % 2 ^ 32) := rfl
@[simp] theorem immOf_ofNat : immOf (BitVec.ofNat 32 n) = BitVec.ofNat 8 ((n % 2 ^ 32) >>> 8) := rfl
@[simp] theorem lenOf_ofNat : lenOf (BitVec.ofNat 32 n) = BitVec.ofNat 5 ((n % 2 ^ 32) >>> 16) := rfl
@[simp] theorem ctxOf_ofNat : ctxOf (BitVec.ofNat 32 n) = BitVec.ofNat 4 ((n % 2 ^ 32) >>> 24) := rfl

end

/-- The six fields determine a word (R80). -/
theorem eq_of_fields {v w : Word} (hopc : opcOf v = opcOf w) (himm : immOf v = immOf w)
    (hlen : lenOf v = lenOf w) (hrsv0 : v.extractLsb' 21 3 = w.extractLsb' 21 3)
    (hctx : ctxOf v = ctxOf w) (hrsv1 : v.extractLsb' 28 4 = w.extractLsb' 28 4) : v = w := by
  have bit {i k : Nat} (h : v.extractLsb' i k = w.extractLsb' i k) {j : Nat} (h1 : i ≤ j) (h2 : j < i + k) :
      v.getLsbD j = w.getLsbD j := by
    have hj := congrArg (·.getLsbD (j - i)) h
    simpa [BitVec.getLsbD_extractLsb', show j - i < k by omega, Nat.add_sub_cancel' h1] using hj
  apply BitVec.eq_of_getLsbD_eq
  intro j hj
  obtain h | h | h | h | h | h : j < 8 ∨ 8 ≤ j ∧ j < 16 ∨ 16 ≤ j ∧ j < 21 ∨ 21 ≤ j ∧ j < 24 ∨
    24 ≤ j ∧ j < 28 ∨ 28 ≤ j := by omega
  · exact bit hopc (Nat.zero_le j) (by omega)
  · exact bit himm h.1 h.2
  · exact bit hlen h.1 h.2
  · exact bit hrsv0 h.1 h.2
  · exact bit hctx h.1 h.2
  · exact bit hrsv1 h hj

/-- A word whose reserved fields are 0 is put together of the other four (R80). -/
theorem eq_cmdWord {w : Word} (hrsv0 : w.extractLsb' 21 3 = 0) (hrsv1 : w.extractLsb' 28 4 = 0) :
    w = cmdWord (opcOf w) (immOf w) (lenOf w) (ctxOf w) := by
  obtain ⟨h0, h1⟩ := Laws.Format.reserved_cmdWord (opcOf w) (immOf w) (lenOf w) (ctxOf w)
  exact eq_of_fields (opcOf_cmdWord ..).symm (immOf_cmdWord ..).symm (lenOf_cmdWord ..).symm
    (hrsv0.trans h0.symm) (ctxOf_cmdWord ..).symm (hrsv1.trans h1.symm)

/-! ## Words and rows (R87) -/

section
variable {r : Row} {w : Word} {i : Instr}

/-- A word names a row when each field does (R80, R87). -/
theorem names_iff_fields : r.names w = true ↔
    opcOf w &&& opcOf r.mask = opcOf r.pattern ∧ immOf w &&& immOf r.mask = immOf r.pattern ∧
    lenOf w &&& lenOf r.mask = lenOf r.pattern ∧
    w.extractLsb' 21 3 &&& r.mask.extractLsb' 21 3 = r.pattern.extractLsb' 21 3 ∧
    ctxOf w &&& ctxOf r.mask = ctxOf r.pattern ∧
    w.extractLsb' 28 4 &&& r.mask.extractLsb' 28 4 = r.pattern.extractLsb' 28 4 := by
  rw [Row.names, beq_iff_eq]
  simp only [opcOf, immOf, lenOf, ctxOf, ← BitVec.extractLsb'_and]
  constructor
  · intro h
    simp only [h, and_self]
  · rintro ⟨hopc, himm, hlen, hrsv0, hctx, hrsv1⟩
    exact eq_of_fields hopc himm hlen hrsv0 hctx hrsv1

/-- Every row fixes OPC and the reserved fields, these to 0 (R86). -/
theorem rows_fix_opc_and_reserved : ∀ r ∈ rows, opcOf r.mask = BitVec.allOnes 8 ∧
    r.mask.extractLsb' 21 3 = BitVec.allOnes 3 ∧ r.mask.extractLsb' 28 4 = BitVec.allOnes 4 ∧
    r.pattern.extractLsb' 21 3 = 0 ∧ r.pattern.extractLsb' 28 4 = 0 := by
  decide

/-- What a row wants of the fields of a word: its OPC, zeros in the reserved fields (R86), and the row's own
pattern under its mask in the other three. -/
def Row.Fits (r : Row) (w : Word) : Prop :=
  opcOf w = opcOf r.pattern ∧ w.extractLsb' 21 3 = 0 ∧ w.extractLsb' 28 4 = 0 ∧
    immOf w &&& immOf r.mask = immOf r.pattern ∧ lenOf w &&& lenOf r.mask = lenOf r.pattern ∧
    ctxOf w &&& ctxOf r.mask = ctxOf r.pattern

/-- A word names a row of the map when its fields are as the row wants them. -/
theorem names_iff_fits (hr : r ∈ rows) : r.names w = true ↔ r.Fits w := by
  obtain ⟨hopc, hrsv0, hrsv1, hpat0, hpat1⟩ := rows_fix_opc_and_reserved r hr
  rw [names_iff_fields, hopc, hrsv0, hrsv1, hpat0, hpat1, BitVec.and_allOnes, BitVec.and_allOnes,
    BitVec.and_allOnes, Row.Fits]
  tauto

/-- A byte with no bit but bit 0, as OW_WRITE_BIT wants IMM8 (R81), is made of that bit. -/
theorem ite_getElem_zero_eq : ∀ b : BitVec 8, b &&& 254#8 = 0#8 → (if b[0] then 1#8 else 0#8) = b := by
  decide

/-- An instruction that a word builds by the row it names is encoded as that word: every bit of the word is
fixed by the row or part of the operand (R80, R81, R87). -/
theorem encode_build (hr : r ∈ rows) (h : r.names w = true) : encode (r.build w) = .cmd w := by
  obtain ⟨hopc, h0, h1, himm, hlen, hctx⟩ := (names_iff_fits hr).1 h
  rw [eq_cmdWord h0 h1]
  clear h h0 h1
  generalize opcOf w = opc, immOf w = imm, lenOf w = len, ctxOf w = ctx at *
  have and8 (x : BitVec 8) : x &&& 255#8 = x := BitVec.and_allOnes
  have and5 (x : BitVec 5) : x &&& 31#5 = x := BitVec.and_allOnes
  have and4 (x : BitVec 4) : x &&& 15#4 = x := BitVec.and_allOnes
  simp only [rows, List.mem_cons, List.not_mem_nil, or_false] at hr
  obtain rfl | rfl | rfl | rfl | rfl | rfl | rfl | rfl | rfl | rfl | rfl | rfl | rfl | rfl | rfl := hr
  all_goals
    simp [and8, and5, and4] at hopc himm hlen hctx
    simp [encode, ite_getElem_zero_eq, *]

/-- An encoded word names the row of its instruction, which builds that instruction from it (R80, R81, R87). -/
theorem exists_row_of_encode (h : encode i = .cmd w) :
    ∃ r ∈ rows, r.names w = true ∧ r.build w = i := by
  suffices hfits : ∃ r ∈ rows, r.Fits w ∧ r.build w = i by
    obtain ⟨r, hr, hw, hbuild⟩ := hfits
    exact ⟨r, hr, (names_iff_fits hr).2 hw, hbuild⟩
  cases i
  case searchRom | readRom | matchRom | convertT | readScratchpad | writeScratchpad | copyScratchpad =>
    cases h
  case owWriteBit v =>
    obtain rfl := Code.cmd.inj h
    cases v <;> simp [rows, Row.Fits, Laws.Format.reserved_cmdWord]
  all_goals
    obtain rfl := Code.cmd.inj h
    simp [rows, Row.Fits, Laws.Format.reserved_cmdWord]

/-- The opcode map and the encoder say the same of a word and an instruction (R80, R81, R87). -/
theorem encode_eq_cmd_iff : encode i = .cmd w ↔ ∃ r ∈ rows, r.names w = true ∧ r.build w = i := by
  refine ⟨exists_row_of_encode, ?_⟩
  rintro ⟨r, hr, h, rfl⟩
  exact encode_build hr h

/-- An instruction with a command word is a command (R87). -/
theorem isCommand_of_encode (h : encode i = .cmd w) : i.isCommand = true := by
  obtain ⟨r, hr, -, rfl⟩ := exists_row_of_encode h
  revert r
  simp [rows, Instr.isCommand]

end

/-! ## The decoder (R86) -/

/-- The rows have different OPCs (R87). -/
theorem nodup_opc : (rows.map fun r => opcOf r.pattern).Nodup := by decide

section
variable {n : Nat} {w : Word} {i : Instr} {a b r : Row}

/-- Two rows that one word names have the same OPC, the word's. -/
theorem opc_eq_of_names (ha : a ∈ rows) (hb : b ∈ rows) (haw : a.names w = true) (hbw : b.names w = true) :
    opcOf a.pattern = opcOf b.pattern :=
  ((names_iff_fits ha).1 haw).1.symm.trans ((names_iff_fits hb).1 hbw).1

/-- A word that names a row is looked up as that row (R87). -/
theorem find?_of_names (hr : r ∈ rows) (h : r.names w = true) : rows.find? (·.names w) = some r := by
  cases hfind : rows.find? (·.names w) with
  | none => exact absurd h (List.find?_eq_none.1 hfind r hr)
  | some r' =>
    have hr' := List.mem_of_find?_eq_some hfind
    have hw' : r'.names w = true := List.find?_some (p := fun r : Row => r.names w) hfind
    have hopc := opc_eq_of_names hr' hr hw' h
    rw [List.inj_on_of_nodup_map nodup_opc hr' hr hopc]

/-- A word that names a row is decoded by that row, if the range conditions hold (R86). -/
theorem decodeCmd_of_names (hr : r ∈ rows) (h : r.names w = true) (i : Instr) :
    decodeCmd n w = .ok i ↔ r.build w = i ∧ (r.build w).wellFormed n = true := by
  unfold decodeCmd Instr.wellFormed
  rw [find?_of_names hr h]
  simp only
  split
  · split <;> simp [*]
  · simp [*]

/-- A word that names no row is rejected for its OPC or for its fields (R86). -/
theorem decodeCmd_of_no_row (h : ∀ r ∈ rows, ¬ r.names w = true) :
    decodeCmd n w = .error .fields ∨ decodeCmd n w = .error .opcode := by
  unfold decodeCmd
  rw [List.find?_eq_none.2 h]
  exact ite_eq_or_eq ..

/-- A word is decoded to what the row it names builds, if the range conditions hold (R86, R87). -/
theorem decodeCmd_eq_ok_iff : decodeCmd n w = .ok i ↔
    ∃ r ∈ rows, r.names w = true ∧ r.build w = i ∧ i.wellFormed n = true := by
  constructor
  · intro hd
    by_cases hrow : ∃ r ∈ rows, r.names w = true
    · obtain ⟨r, hr, hw⟩ := hrow
      obtain ⟨rfl, hwf⟩ := (decodeCmd_of_names hr hw i).1 hd
      exact ⟨r, hr, hw, rfl, hwf⟩
    · obtain he | he := decodeCmd_of_no_row (n := n) (w := w) fun r hr hw => hrow ⟨r, hr, hw⟩ <;>
        simp [he] at hd
  · rintro ⟨r, hr, hw, rfl, hwf⟩
    exact (decodeCmd_of_names hr hw _).2 ⟨rfl, hwf⟩

/-- A word is decoded to the well-formed instruction that it encodes, and to nothing else (R80, R86). -/
theorem decodeCmd_eq_ok_iff_encode :
    decodeCmd n w = .ok i ↔ encode i = .cmd w ∧ i.wellFormed n = true := by
  rw [decodeCmd_eq_ok_iff, encode_eq_cmd_iff]
  simp only [← and_assoc, exists_and_right]

/-- The seven wire bytes are decoded to their instructions (R90). -/
theorem decodeWire_of_encode {b : Byte} (h : encode i = .wire b) : decodeWire b = .ok i := by
  cases i
  case searchRom | readRom | matchRom | convertT | readScratchpad | writeScratchpad | copyScratchpad =>
    obtain rfl := Code.wire.inj h
    rfl
  all_goals cases h

end

/-- Settles O1, by the format of the instruction's code. -/
theorem decodeOfEncodeIsTheInstruction : Obligations.DecodeOfEncodeIsTheInstruction := by
  intro n i hwf
  cases he : encode i with
  | cmd w => exact decodeCmd_eq_ok_iff_encode.2 ⟨he, hwf⟩
  | wire b => exact decodeWire_of_encode he

/-- Settles O2, by what a decoded word is the encoding of. -/
theorem encodeOfDecodeIsTheWord : Obligations.EncodeOfDecodeIsTheWord := by
  intro n w i hd
  obtain ⟨he, hwf⟩ := decodeCmd_eq_ok_iff_encode.1 hd
  exact ⟨he, hwf, isCommand_of_encode he⟩

/-- Settles O3: the rows have different OPCs, and a word that names a row has the row's. -/
theorem noWordMatchesTwoRows : Obligations.NoWordMatchesTwoRows := by
  intro w
  refine (List.pairwise_map.1 nodup_opc).imp_of_mem fun ha hb hne ⟨haw, hbw⟩ => ?_
  exact hne (opc_eq_of_names ha hb haw hbw)

/-- Settles O4, by the rows of decoded words; a word that fails a field condition names no row. -/
theorem legalWordsAreTheMatchedRows : Obligations.LegalWordsAreTheMatchedRows := by
  refine ⟨fun n w => ⟨?_, ?_⟩, fun n w h => decodeCmd_of_no_row fun r hr hw => ?_⟩
  · rintro ⟨i, hd⟩
    obtain ⟨r, hr, hw, rfl, hwf⟩ := decodeCmd_eq_ok_iff.1 hd
    exact ⟨r, hr, hw, hwf⟩
  · rintro ⟨r, hr, hw, hwf⟩
    exact ⟨_, decodeCmd_eq_ok_iff.2 ⟨r, hr, hw, rfl, hwf⟩⟩
  · obtain ⟨hopc, hrsv0, hrsv1, -⟩ := (names_iff_fits hr).1 hw
    obtain h | h | h := h
    · exact h hrsv0
    · exact h hrsv1
    · exact h r hr hopc.symm

/-- Settles O5, word by word. -/
theorem specExampleWordsDecode : Obligations.SpecExampleWordsDecode := by
  unfold Obligations.SpecExampleWordsDecode
  and_intros <;> rfl

end Sys2Proof

namespace Sys2Proof.Machine

/-! ## The wire command bytes (R90) -/

section
variable {s : State}

/-- `WriteByte` on its own: what it leaves of the block when no `rst` lands (R108). -/
theorem runs_writeByte (b : Byte) (hn : s.NoReset) : ∃ t ev, runs (writeByte b) s = .next t ∧ s.Sent t ∧
    s.Emitted t ev ∧ slotsOf ev = byteSlots b ∧ levelsOf ev = [] := by
  obtain ⟨t, ht, -, ⟨⟨ev, hw, hslots, hlevels⟩, -⟩ | hf⟩ :=
    (writeByte_spec b (F := fun _ => False)).runs_of_noReset hn
  · exact ⟨t, ev, ht, ⟨hw.status, fun hq => congrArg Status.ovr (hw.quietStatus hq), hw.regs, hw.mode,
      hw.params, hw.rst, hw.queue, hw.idle⟩, hw.emitted, hslots, hlevels⟩
  · exact hf.elim

/-- An instruction with a wire byte is `WriteByte` of that byte (R90). -/
theorem exec_of_encode_wire {i : Instr} {b : Byte} (h : encode i = .wire b) :
    exec i s = runs (writeByte b) s := by
  cases i
  case searchRom | readRom | matchRom | convertT | readScratchpad | writeScratchpad | copyScratchpad =>
    obtain rfl := Code.wire.inj h
    rfl
  all_goals cases h

end

/-- Settles O28, by what `WriteByte` of the instruction's byte leaves. -/
theorem wireBytesAreSentLsbFirst : Obligations.WireBytesAreSentLsbFirst := by
  intro x hx s hn
  have hcode : encode x.1 = .wire x.2 := by
    revert x
    decide
  rw [exec_of_encode_wire hcode]
  exact runs_writeByte x.2 hn

/-! ## COPY_FOUND (R92) -/

section
variable {n : Nat} {s t : State} {c : BitVec 4}

/-- The bytes of a buffer determine it. -/
theorem eq_of_byteAt {a b : Vector Byte n} (h : ∀ j < n, byteAt a j = byteAt b j) : a = b := by
  apply Vector.ext
  intro j hj
  simpa [byteAt, hj] using h j hj

/-- The two words of an address, stored one after the other, make the address (R70). -/
theorem setWordAt_wordAt (a b : Vector Byte 8) :
    setWordAt (setWordAt a 0 (wordAt b 0)) 4 (wordAt b 4) = b := by
  have hlo := bytesWritten_setWordAt a 0 (wordAt b 0) (by omega)
  have hhi := bytesWritten_setWordAt (setWordAt a 0 (wordAt b 0)) 4 (wordAt b 4) (by omega)
  refine eq_of_byteAt fun j hj => ?_
  by_cases h4 : j < 4
  · rw [hhi.2 j (by omega)]
    simpa using (hlo.1 j h4).symm.trans (holdsBytes_wordAt b 0 j h4)
  · obtain ⟨k, rfl⟩ := Nat.exists_eq_add_of_le (Nat.le_of_not_lt h4)
    exact (hhi.1 k (by omega)).symm.trans (holdsBytes_wordAt b 4 k (by omega))

/-- Register `f` of context `c` stands at word index `32 + f + 8 c` (R25). -/
theorem regAt_ctxIndex (hc : c.toNat < n) {f : Nat} (hf : f < 8) :
    regAt n (BitVec.ofNat 8 (32 + f + 8 * c.toNat)) = ctxRegAt c f := by
  have hc16 := c.isLt
  have hr : (BitVec.ofNat 8 (32 + f + 8 * c.toNat)).toNat = 32 + f + 8 * c.toNat :=
    Nat.mod_eq_of_lt (by omega)
  rw [regAt_of_ge n (by omega), hr, show (32 + f + 8 * c.toNat - 32) / 8 = c.toNat by omega,
    show (32 + f + 8 * c.toNat - 32) % 8 = f by omega, if_pos ⟨hc, hc16⟩, BitVec.ofNat_toNat,
    BitVec.setWidth_eq]

theorem regAt_ctxAddrLoIndex (hc : c.toNat < n) : regAt n (ctxAddrLoIndex c) = .ctxAddrLo c :=
  regAt_ctxIndex (f := 0) hc (by omega)

theorem regAt_ctxAddrHiIndex (hc : c.toNat < n) : regAt n (ctxAddrHiIndex c) = .ctxAddrHi c :=
  regAt_ctxIndex (f := 1) hc (by omega)

theorem runInputs_cons {i : Input} {rest : List Input} (h : hostInput s i = .next t) :
    runInputs (i :: rest) s = runInputs rest t := by
  rw [runInputs, h]

/-- On an idle block out of reset, a read and then a write of another register than CMD (R39, R64). -/
theorem runInputs_rd_wr {r r' : BitVec 8} {reg : Reg} (hr : s.rstIn = false) (hq : s.seq = .idle)
    (hreg : regAt s.params.numCtx r' = reg) (hcmd : reg ≠ .cmd) (v : Word) (rest : List Input) :
    runInputs (rd r :: wr r' v :: rest) s =
      runInputs rest ((s.answer r (s.readWord r)).writeReg v reg) := by
  subst hreg
  have hrd : hostInput s (rd r) = .next (s.answer r (s.readWord r)) :=
    (hostInput_of_low hr).trans ((input_rd s r).trans (congrArg _ (hostRead_of_idle hq)))
  have hwr : hostInput (s.answer r (s.readWord r)) (wr r' v) =
      .next ((s.answer r (s.readWord r)).writeReg v (regAt s.params.numCtx r')) :=
    (hostInput_of_low (s := s.answer r _) hr).trans ((input_wr ..).trans (hostWrite_of_idle hq hcmd))
  rw [runInputs_cons hrd, runInputs_cons hwr]

/-- Both halves of `a` written to a context's address, whatever the host read in between, leave `a` there and
nothing else changed (R70). -/
theorem writeReg_both_halves (r r' : BitVec 8) (v v' : Word) (a : Vector Byte 8) :
    (((s.answer r v).writeReg (wordAt a 0) (.ctxAddrLo c)).answer r' v').writeReg (wordAt a 4) (.ctxAddrHi c) =
      { s with regs := s.regs.onContext c fun x => { x with addr := a }
               host := { s.host with reads := (r', v') :: (r, v) :: s.host.reads } } := by
  have hregs : (s.regs.onContext c fun x => { x with addr := setWordAt x.addr 0 (wordAt a 0) }).onContext c
      (fun x => { x with addr := setWordAt x.addr 4 (wordAt a 4) }) =
        s.regs.onContext c fun x => { x with addr := a } := by
    simp only [onContext_onContext, setWordAt_wordAt]
  rw [← hregs]
  rfl

end

/-- Settles O16: the two reads and writes, and then the halves written. -/
theorem copyFoundStoresTheSearchResult : Obligations.CopyFoundStoresTheSearchResult := by
  intro c s hr hq hc _
  let s' := (s.answer 8 (s.readWord 8)).writeReg (s.readReg .srchLo) (.ctxAddrLo c)
  have hlo : runInputs (copyFoundInputs c s) s = runInputs _ s' :=
    runInputs_rd_wr hr hq (regAt_ctxAddrLoIndex hc) (by simp) _ _
  have hhi := runInputs_rd_wr (s := s') (r := 9) hr hq (regAt_ctxAddrHiIndex hc) (by simp)
    (s.readReg .srchHi) []
  exact ⟨_, _, (hlo.trans hhi).trans (congrArg _ (writeReg_both_halves ..)), rfl, by simp [Context.family]⟩

end Sys2Proof.Machine

/-! PROOFS of the family Transport (41_transport.md), second part (the byte and buffer transfers stand with the
family Memory): the two bit transfers, and what the host reads after any transfer. Each statement is read off
what its command has done when it ends (`Ends`). -/

namespace Sys2Proof.Machine

/-! ## The bit transfers (R106, R107) -/

section
variable {s t : State} {st : Status} {r : Regs} {m : LineMode} {k : Word × List Nat}

/-- OW_WRITE_BIT (R112): the events of `WriteBit`, then `finish`. -/
theorem exec_owWriteBit (v : Bool) (hn : s.NoReset) :
    ∃ t, exec (.owWriteBit v) s = .next t ∧ ∃ rise,
      Ends s t s.status s.regs s.pin.mode (writeEvents v rise) (s.env.tickIn, s.env.elapses) :=
  Spec.next_of_noReset (hn := hn) <|
    ((Did.start s).writeBit v).andThen fun _ _ _ ⟨rise, hdid⟩ => hdid.finish fun _ hends => ⟨rise, hends⟩

/-- OW_READ_BIT (R113): the events of `ReadBit`, the write of RDATA, then `finish`. -/
theorem exec_owReadBit (hn : s.NoReset) :
    ∃ t, exec .owReadBit s = .next t ∧ ∃ v,
      Ends s t s.status { s.regs with rdata := if v then 1 else 0 } s.pin.mode (readEvents v)
        (s.env.tickIn, s.env.elapses) :=
  Spec.next_of_noReset (hn := hn) <|
    (Did.start s).readBit.andThen fun v _ _ hdid =>
      (hdid.writeRegs fun r => { r with rdata := if v then 1 else 0 }).andThen fun _ _ _ hdid =>
        hdid.finish fun _ hends => ⟨v, hends⟩

/-- The one wait for the rise of a write-0 slot takes the oldest scripted result (R103). -/
theorem Ends.rise_of_script {rise rise' : Rise} {rest : List Rise}
    (h : Ends s t st r m (writeEvents false rise) k) (hs : s.env.rises = rise' :: rest) : rise = rise' := by
  have hrises : risesOf (writeEvents false rise) = [rise] := by cases rise <;> rfl
  have hscript := (h.scriptRises [rise'] rest hs (by rw [hrises]; rfl)).1
  exact List.singleton_inj.1 (hrises.symm.trans hscript)

/-- The one sample of a read slot takes the oldest scripted level (R102). -/
theorem Ends.level_of_script {v v' : Bool} {rest : List Bool} (h : Ends s t st r m (readEvents v) k)
    (hs : s.env.samples = v' :: rest) : v = v' :=
  List.singleton_inj.1 (h.script [v'] rest hs rfl).1

end

/-- Settles O22, by what OW_WRITE_BIT has done when it ends; a scripted result is that of the wait. -/
theorem owWriteBitSendsOneSlot : Obligations.OwWriteBitSendsOneSlot := by
  intro v s hn
  obtain ⟨t, ht, rise, hends⟩ := exec_owWriteBit v hn
  refine ⟨t, rise, ht, hends.done, hends.emitted, ?_⟩
  rintro rfl _ _
  exact hends.rise_of_script

/-- Settles O23, by what OW_READ_BIT has done when it ends; a scripted level is that of the sample. -/
theorem owReadBitReadsOneSlot : Obligations.OwReadBitReadsOneSlot := by
  intro s hn
  obtain ⟨t, ht, v, hends⟩ := exec_owReadBit hn
  exact ⟨t, v, ht, hends.done, hends.emitted, fun _ _ => hends.level_of_script⟩

/-! ## What the host reads after a transfer (R112 to R117) -/

section
variable {s t : State} {st : Status}

/-- A LEN out of range is an illegal word (R86): FAULT apart, the command leaves no trace. -/
theorem runs_withLen_of_gt {len : BitVec 5} {c : Cmd Unit} (hlen : 16 < len.toNat) (hn : s.NoReset) :
    ∃ t, runs (withLen len c) s = .next t ∧ s.Done t { s.status with fault := .illegal } s.regs s.pin.mode :=
  Spec.next_of_noReset (hn := hn) <|
    withLen_spec (fun h => absurd h (by omega)) fun _ => (Did.start s).fail .illegal fun _ hends => hends.done

/-- After a command that kept the mode the host reads, STATUS apart, the registers that it left. -/
theorem State.Done.readReg {r : Regs} (h : s.Done t st r s.pin.mode) {reg : Reg} (hreg : reg ≠ .status) :
    t.readReg reg = (s.onRegs fun _ => r).readReg reg := by
  cases reg
  case status => exact absurd rfl hreg
  all_goals simp only [State.readReg, State.onRegs_regs, State.onRegs_pin, h.regs, h.mode]

/-- What the host reads is as before if it is so of the registers that the command left. -/
theorem State.Done.readsAs {r : Regs} {except : List Reg} (h : s.Done t st r s.pin.mode)
    (hr : ∀ i, regAt s.params.numCtx i ∉ except →
      (s.onRegs fun _ => r).readReg (regAt s.params.numCtx i) = s.readReg (regAt s.params.numCtx i)) :
    s.ReadsAs t except := by
  intro i hstatus hexcept
  rw [State.readWord, State.readWord, h.params]
  exact (h.readReg hstatus).trans (hr i hexcept)

theorem State.Done.readsAs_regs (h : s.Done t st s.regs s.pin.mode) : s.ReadsAs t [] :=
  h.readsAs fun _ _ => rfl

/-- RDATA is read in its own register alone (R29). -/
theorem State.Done.readsAs_rdata {b : Byte} (h : s.Done t st { s.regs with rdata := b } s.pin.mode) :
    s.ReadsAs t [.rdata] := h.readsAs fun i hi => by
  cases hreg : regAt s.params.numCtx i
  case rdata => exact absurd (List.mem_singleton.2 hreg) hi
  all_goals rfl

/-- IOBUF is read in its four registers alone (R32, R70). -/
theorem State.Done.readsAs_iobuf {buf : Vector Byte 16}
    (h : s.Done t st { s.regs with iobuf := buf } s.pin.mode) :
    s.ReadsAs t [.iobuf 0, .iobuf 1, .iobuf 2, .iobuf 3] := h.readsAs fun i hi => by
  cases hreg : regAt s.params.numCtx i
  case iobuf k =>
    have hk := lt_of_regAt_eq_iobuf hreg
    have hk' : k ≠ 0 ∧ k ≠ 1 ∧ k ≠ 2 ∧ k ≠ 3 := by simpa [hreg] using hi
    omega
  all_goals rfl

theorem exec_owWriteBytes_readsAs (len : BitVec 5) (hn : s.NoReset) :
    ∃ t, exec (.owWriteBytes len) s = .next t ∧ s.ReadsAs t [] := by
  by_cases hlen : len.toNat ≤ 16
  · obtain ⟨t, ht, _, _, _, _, hends⟩ := exec_owWriteBytes hlen hn
    exact ⟨t, ht, hends.done.readsAs_regs⟩
  · obtain ⟨t, ht, hdone⟩ := runs_withLen_of_gt (Nat.lt_of_not_le hlen) hn
    exact ⟨t, ht, hdone.readsAs_regs⟩

theorem exec_owReadBytes_readsAs (len : BitVec 5) (hn : s.NoReset) :
    ∃ t, exec (.owReadBytes len) s = .next t ∧ s.ReadsAs t [.iobuf 0, .iobuf 1, .iobuf 2, .iobuf 3] ∧
      ∀ j, len.toNat ≤ j → byteAt t.regs.iobuf j = byteAt s.regs.iobuf j := by
  by_cases hlen : len.toNat ≤ 16
  · obtain ⟨t, ht, buf, _, _, _, hrest, hends⟩ := exec_owReadBytes hlen hn
    exact ⟨t, ht, hends.done.readsAs_iobuf, hends.done.regs ▸ hrest⟩
  · obtain ⟨t, ht, hdone⟩ := runs_withLen_of_gt (Nat.lt_of_not_le hlen) hn
    exact ⟨t, ht, hdone.readsAs_iobuf (buf := s.regs.iobuf), fun _ _ => by rw [hdone.regs]⟩

end

/-- Settles O29, transfer by transfer: each ends with the registers as they were but for its destination. -/
theorem transfersLeaveEveryOtherRegister : Obligations.TransfersLeaveEveryOtherRegister := by
  intro s hn
  refine ⟨fun v => ?writeBit, fun b => ?writeByte, (exec_owWriteBytes_readsAs · hn), ?readBit, ?readByte,
    (exec_owReadBytes_readsAs · hn)⟩
  case writeBit =>
    obtain ⟨t, ht, _, hends⟩ := exec_owWriteBit v hn
    exact ⟨t, ht, hends.done.readsAs_regs⟩
  case writeByte =>
    obtain ⟨t, ht, _, _, _, hends⟩ := exec_owWriteByte b hn
    exact ⟨t, ht, hends.done.readsAs_regs⟩
  case readBit =>
    obtain ⟨t, ht, _, hends⟩ := exec_owReadBit hn
    exact ⟨t, ht, hends.done.readsAs_rdata⟩
  case readByte =>
    obtain ⟨t, ht, _, _, _, _, hends⟩ := exec_owReadByte hn
    exact ⟨t, ht, hends.done.readsAs_rdata⟩

end Sys2Proof.Machine

/-! PROOFS of the family CRC (42_crc.md). The key fact is `crcUpdate_eq`: one update is eight rounds of a linear,
injective map, from the XOR of the accumulator and the byte. The two commands show no line event: how far such a
command has come is `Silent`. -/

namespace Sys2Proof.Machine

/-! ## The laws of the update (R130, R132) -/

/-- One round of R130's loop, on the XOR of the accumulator and the byte. -/
def crcStep (x : Byte) : Byte := x >>> 1 ^^^ if x.getLsbD 0 then 0x8C else 0

/-- A round is linear in the XOR. -/
theorem crcStep_xor : Function.Semiconj₂ crcStep (· ^^^ ·) (· ^^^ ·) := by
  intro x y
  have hbit : (if (x ^^^ y).getLsbD 0 then 0x8C else 0 : Byte) =
      (if x.getLsbD 0 then 0x8C else 0) ^^^ if y.getLsbD 0 then 0x8C else 0 := by
    rw [BitVec.getLsbD_xor]
    cases x.getLsbD 0 <;> cases y.getLsbD 0 <;> rfl
  simp only [crcStep, hbit, BitVec.ushiftRight_xor_distrib]
  ac_rfl

/-- The polynomial's top bit is 1, so a round shows the bit that it shifts out. -/
theorem getLsbD_seven_crcStep (x : Byte) : (crcStep x).getLsbD 7 = x.getLsbD 0 := by
  rw [crcStep, BitVec.getLsbD_xor]
  cases x.getLsbD 0 <;> simp

theorem crcStep_injective : Function.Injective crcStep := by
  intro x y h
  have h0 : x.getLsbD 0 = y.getLsbD 0 := by
    rw [← getLsbD_seven_crcStep x, h, getLsbD_seven_crcStep]
  have hshift : x >>> 1 = y >>> 1 := by
    rw [crcStep, crcStep, h0] at h
    exact (BitVec.xor_left_inj _).1 h
  refine BitVec.eq_of_getLsbD_eq fun i _ => ?_
  cases i with
  | zero => exact h0
  | succ i => simpa [Nat.add_comm] using congrArg (·.getLsbD i) hshift

/-- After `n` rounds the accumulator is the image of the XOR but for what is left of the byte. -/
theorem crcLoop_eq (n : Nat) (c b : Byte) : crcLoop n c b = crcStep^[n] (c ^^^ b) ^^^ b >>> n := by
  induction n generalizing c b with
  | zero => simp [crcLoop]
  | succ n ih =>
    have hround : (if (c ^^^ b).getLsbD 0 then c >>> 1 ^^^ 0x8C else c >>> 1) ^^^ b >>> 1 =
        crcStep (c ^^^ b) := by
      rw [crcStep, BitVec.ushiftRight_xor_distrib]
      split
      · ac_rfl
      · simp
    rw [crcLoop, ih, hround, Function.iterate_succ_apply, ← BitVec.shiftRight_add, Nat.add_comm 1 n]

/-- The update is eight rounds from the XOR of the accumulator and the byte. -/
theorem crcUpdate_eq (c b : Byte) : crcUpdate c b = crcStep^[8] (c ^^^ b) := by
  rw [crcUpdate, crcLoop_eq, BitVec.ushiftRight_eq_zero (Nat.le_refl 8), BitVec.xor_zero]

theorem crcUpdate_zero (x : Byte) : crcUpdate 0 x = crcStep^[8] x :=
  (crcUpdate_eq 0 x).trans (congrArg _ BitVec.zero_xor)

theorem crcUpdate_eq_zero_xor (c b : Byte) : crcUpdate c b = crcUpdate 0 (c ^^^ b) :=
  (crcUpdate_eq c b).trans (crcUpdate_zero _).symm

theorem crcUpdate_zero_xor (x y : Byte) : crcUpdate 0 (x ^^^ y) = crcUpdate 0 x ^^^ crcUpdate 0 y := by
  simp only [crcUpdate_zero]
  exact crcStep_xor.iterate 8 x y

theorem crcUpdate_right_injective (c : Byte) : Function.Injective (crcUpdate c) := by
  intro x y h
  rw [crcUpdate_eq, crcUpdate_eq] at h
  exact (BitVec.xor_right_inj c).1 (crcStep_injective.iterate 8 h)

theorem crcUpdate_left_injective (b : Byte) : Function.Injective (crcUpdate · b) := by
  intro x y h
  simp only [crcUpdate_eq] at h
  exact (BitVec.xor_left_inj b).1 (crcStep_injective.iterate 8 h)

/-- A byte folded into an accumulator of the same value gives 0 (R133). -/
theorem crcUpdate_self (b : Byte) : crcUpdate b b = 0 := by
  rw [crcUpdate_eq, BitVec.xor_self]
  rfl

theorem crcUpdate_eq_zero_iff {c b : Byte} : crcUpdate c b = 0 ↔ b = c := by
  rw [← crcUpdate_self c]
  exact (crcUpdate_right_injective c).eq_iff

/-- Settles O32, by the eight rounds of the update. -/
theorem crcUpdateIsLinear : Obligations.CrcUpdateIsLinear := by
  refine ⟨crcUpdate_eq_zero_xor, crcUpdate_zero_xor, crcUpdate_self 0,
    fun _ _ h => crcUpdate_right_injective 0 h, ?_⟩
  decide

/-! ## The check of a buffer (R131, R132) -/

theorem crcCheck_fst_eq_true_iff {m : List Byte} : (crcCheck m).1 = true ↔ crcOf m = 0 := beq_iff_eq

theorem crcCheck_eq_of_crcOf_eq_zero {m : List Byte} (h : crcOf m = 0) : crcCheck m = (true, 0) := by
  simp [crcCheck, h]

theorem crcOf_concat (m : List Byte) (x : Byte) : crcOf (m ++ [x]) = crcUpdate (crcOf m) x :=
  List.foldl_concat ..

/-- The bytes that follow keep different accumulators apart. -/
theorem foldl_crcUpdate_injective (r : List Byte) : Function.Injective (r.foldl crcUpdate ·) := by
  induction r with
  | nil => exact Function.injective_id
  | cons b r ih => exact ih.comp (crcUpdate_left_injective b)

/-- Buffers that differ in one byte have different accumulators. -/
theorem crcOf_append_cons_injective (l r : List Byte) :
    Function.Injective fun x => crcOf (l ++ x :: r) := by
  intro x y h
  simp only [crcOf, List.foldl_append, List.foldl_cons] at h
  exact crcUpdate_right_injective _ (foldl_crcUpdate_injective r h)

theorem crcOf_replicate_zero (n : Nat) : crcOf (List.replicate n 0) = 0 := by
  induction n with
  | zero => rfl
  | succ n ih => rw [List.replicate_succ', crcOf_concat, ih, crcUpdate_self]

/-- Settles O33: the last byte is folded into the CRC of those before it, and updates are one to one. -/
theorem crcDetectsEveryByteChange : Obligations.CrcDetectsEveryByteChange := by
  refine ⟨fun m => ?append, fun m x h => ?other, fun l r x y hne h => ?change, fun n => ?zeros⟩
  case append =>
    exact crcCheck_eq_of_crcOf_eq_zero ((crcOf_concat ..).trans (crcUpdate_self _))
  case other =>
    rw [crcCheck_fst_eq_true_iff, crcOf_concat] at h
    exact crcUpdate_eq_zero_iff.1 h
  case change =>
    refine Bool.eq_false_iff.2 fun hy => hne ?_
    rw [crcCheck_fst_eq_true_iff] at h hy
    exact crcOf_append_cons_injective l r (h.trans hy.symm)
  case zeros => exact crcCheck_eq_of_crcOf_eq_zero (crcOf_replicate_zero n)

/-! ## The commands (R133, R134) -/

/-- Since `s` the command has left the flags `st` (OVR apart), the registers `r` and the tick's part `k`, with
no line event and the pin as it was. -/
structure Silent (s t : State) (st : Status) (r : Regs) (k : Word × List Nat) : Prop
    extends Did s t st r s.pin.mode [] k where
  pin : t.pin = s.pin

theorem Silent.start (s : State) : Silent s s s.status s.regs (s.env.tickIn, s.env.elapses) :=
  ⟨.start s, rfl⟩

section
variable {s t : State} {st : Status} {r : Regs} {k : Word × List Nat} {F : State → Prop}

/-- A statement that updates the registers. -/
theorem Silent.writeRegs (f : Regs → Regs) (h : Silent s t st r k) :
    Spec (write (·.onRegs f)) t (fun _ u => Silent s u st (f r) k) F :=
  write_spec (fun _ _ => base_of_parts rfl rfl rfl rfl rfl) fun _ hl =>
    ⟨(h.toDid.later hl).onRegs f, hl.pin.trans h.pin⟩

/-- A statement that updates the flags. -/
theorem Silent.writeStatus {f : Status → Status} (h : Silent s t st r k)
    (hf : ∀ a o, f { a with ovr := o } = { f a with ovr := o }) :
    Spec (write (·.onStatus f)) t (fun _ u => Silent s u (f st) r k) F :=
  write_spec (fun _ _ => base_of_parts rfl rfl rfl rfl rfl) fun _ hl =>
    ⟨(h.toDid.later hl).onStatus hf, hl.pin.trans h.pin⟩

/-- `finish` (R36). -/
theorem Silent.finish {α : Type} {Q : α → State → Prop} (h : Silent s t st r k) :
    Spec (finish : Cmd α) t Q fun u => s.Done u st r s.pin.mode ∧ u.trace = s.trace ∧ u.pin = s.pin :=
  finish_spec fun _ hl => ⟨(h.toDid.ends hl).done, (h.toDid.ends hl).emitted, hl.pin.trans h.pin⟩

end

/-- Settles O30: the one write, then `finish`. -/
theorem crcUpdateFoldsOneByte : Obligations.CrcUpdateFoldsOneByte := fun b s hn =>
  Spec.next_of_noReset (hn := hn) <|
    ((Silent.start s).writeRegs fun r => { r with crcAcc := crcUpdate r.crcAcc b }).andThen
      fun _ _ _ h => h.finish

/-- Settles O31: LEN is in range, so the accumulator is computed, both writes follow, and then `finish`. -/
theorem crcCheckChecksTheBuffer : Obligations.CrcCheckChecksTheBuffer := by
  intro len s hlen hn
  refine Spec.next_of_noReset (withLen_spec (fun _ => ?_) fun h => absurd hlen (by omega)) hn
  refine (Spec.ask (Q := fun v t => s = t ∧ v = crcCheck (firstBytes s.regs.iobuf len.toNat))
    ⟨rfl, rfl⟩).andThen ?_
  rintro _ _ - ⟨rfl, rfl⟩
  refine ((Silent.start s).writeRegs fun r =>
    { r with crcAcc := crcOf (firstBytes s.regs.iobuf len.toNat) }).andThen fun _ _ _ hacc => ?_
  refine (hacc.writeStatus (f := fun st =>
    { st with crcOk := crcOf (firstBytes s.regs.iobuf len.toNat) == 0 }) fun _ _ => rfl).andThen ?_
  exact fun _ _ _ hok => hok.finish

end Sys2Proof.Machine

/-! PROOFS of the family Reset and presence (43_reset_presence.md): STATUS after a pulse that nobody
answered, the scripted answers its events show, and OW_RESET. -/

namespace Sys2Proof.Machine

/-! ## The pulse (R140, R142) -/

section
variable {s t : State} {st : Status} {r : Regs} {m : LineMode} {ev : List LineEvent}
variable {k : Word × List Nat} {F : State → Prop} {hi : Option Bool}

/-- The pulse answers the code NONE when a device pulled the line low, and only then. -/
theorem resetCode_eq_none_iff : resetCode hi = .none ↔ hi = some false := by
  rcases hi with _ | _ | _ <;> simp [resetCode]

/-- When nobody answered, STATUS after the pulse holds its code. -/
theorem afterReset_of_absent (st : Status) (h : hi ≠ some false) :
    st.afterReset hi = { st with presence := hi == some false, fault := resetCode hi } := by
  rw [Status.afterReset, if_neg (mt resetCode_eq_none_iff.1 h)]

/-- The pulse waits for the rise once. -/
theorem risesOf_resetEvents (hi : Option Bool) :
    risesOf (resetEvents hi) = [if hi.isSome then .rose else .timeout] := by
  cases hi <;> rfl

/-- The failure of a transaction nobody answered, which writes no flag beside those of the pulse (R142). -/
theorem Did.failReset {α : Type} {Q : α → State → Prop} (hne : hi ≠ some false)
    (h : Did s t { st with presence := hi == some false } r m ev k)
    (hF : ∀ u, Ends s u (st.afterReset hi) r m ev k → F u) :
    Spec (Machine.fail (resetCode hi) : Cmd α) t Q F :=
  h.fail _ fun u hends => hF u (by rwa [afterReset_of_absent st hne])

/-- The line rose after the pulse exactly when the oldest scripted result says so (R103). -/
theorem Ends.reset_rose_iff_of_script {rise : Rise} {rest : List Rise}
    (h : Ends s t st r m (resetEvents hi) k) (hs : s.env.rises = rise :: rest) :
    hi.isSome = true ↔ rise = .rose := by
  have hscript := (h.scriptRises [rise] rest hs (by rw [risesOf_resetEvents]; rfl)).1
  rw [risesOf_resetEvents] at hscript
  rw [← List.singleton_inj.1 hscript]
  cases hi <;> simp

/-- The presence sample, if there is one, is the oldest scripted level (R102). -/
theorem Ends.reset_level_of_script {high v : Bool} {rest : List Bool}
    (h : Ends s t st r m (resetEvents (some high)) k) (hs : s.env.samples = v :: rest) : high = v :=
  List.singleton_inj.1 (h.script [v] rest hs rfl).1

/-! ## OW_RESET (R141) -/

/-- OW_RESET (R141): a transaction of the pulse alone, ended by `fail` when nobody answered, else by
`finish`. -/
theorem exec_owReset (hn : s.NoReset) :
    ∃ t, exec .owReset s = .next t ∧ ∃ hi,
      Ends s t (s.status.afterReset hi) s.regs s.pin.mode (resetEvents hi) (s.env.tickIn, s.env.elapses) := by
  refine Spec.next_of_noReset (((Did.start s).beginTransaction ?absent).bind (fun _ _ h => h) ?present) hn
  case absent =>
    intro hi _ hne hdid
    rw [pure_bind]
    exact hdid.failReset hne fun _ hends => ⟨hi, hends⟩
  case present =>
    exact fun _ _ _ hdid => hdid.finish fun _ hends => ⟨some false, hends⟩

end

/-- Settles O34, by what OW_RESET has done when it ends; scripted answers are those of its wait and of its
sample. -/
theorem owResetReportsPresence : Obligations.OwResetReportsPresence := by
  intro s hn
  obtain ⟨t, ht, hi, hends⟩ := exec_owReset hn
  refine ⟨t, hi, ht, hends.done, hends.emitted, ?timeout, ?rose⟩
  case timeout =>
    intro _ hrise
    simpa using hends.reset_rose_iff_of_script hrise
  case rose =>
    intro _ v _ hrise hlevel
    obtain ⟨high, rfl⟩ := Option.isSome_iff_exists.1 ((hends.reset_rose_iff_of_script hrise).2 rfl)
    rw [hends.reset_level_of_script hlevel]

end Sys2Proof.Machine

/-! PROOFS of the family ROM search (44_rom_search.md). `PassShown` says what the events of a pass have shown,
and SEARCH_NEXT has the three endings of `exec_searchNext`. `Walked` is the invariant of a pass over the
reference devices, and from it follows that each pass finds the next device in the order of R159, which is the
lexicographic order of bit strings: so successive passes find the devices as a sorted list. -/

namespace Sys2Proof.Machine

/-! ## The bits of an address (R69, R150) -/

section
variable {n q : Nat}

/-- The bits at the positions 1 to 64 determine an address (R69). -/
theorem eq_of_posBit {a b : Vector Byte 8} (h : ∀ q, 1 ≤ q → q ≤ 64 → posBit a q = posBit b q) : a = b := by
  refine eq_of_byteAt fun j hj => BitVec.eq_of_getLsbD_eq fun i hi => ?_
  rw [← posBit_mul_add a j hi, ← posBit_mul_add b j hi]
  exact h _ (by omega) (by omega)

theorem posBit_zeroAddr (p : Nat) : posBit zeroAddr p = false := by
  rw [posBit, zeroAddr, byteAt_replicate_zero]
  exact BitVec.getLsbD_zero

/-- The position that a pass writes reads the bit written. -/
theorem posBit_setPosBit_self (a : Vector Byte 8) (v : Bool) (hn : n < 64) :
    posBit (setPosBit a (n + 1) v) (n + 1) = v := by
  rw [posBit_setPosBit _ _ (by omega) hn (by omega), if_pos rfl]

/-- The other positions read as before. -/
theorem posBit_setPosBit_of_ne (a : Vector Byte 8) (v : Bool) (hn : n < 64) (h1 : 1 ≤ q) (hq : q ≠ n + 1) :
    posBit (setPosBit a (n + 1) v) q = posBit a q := by
  rw [posBit_setPosBit _ _ (by omega) hn h1, if_neg hq]

end

/-! ## The branch of one position (R152, R153) -/

/-- The bit that the branch rule chooses at a collision (R153). -/
def collisionBit (p F : Nat) (prev : Bool) : Bool := if p < F then prev else decide (p = F)

section
variable {p F : Nat} {nf nf' : BitVec 7} {b cb prev v : Bool}

theorem collisionBit_of_lt (h : p < F) : collisionBit p F prev = prev := if_pos h

theorem collisionBit_self : collisionBit p p prev = true := by simp [collisionBit]

theorem collisionBit_of_gt (h : F < p) : collisionBit p F prev = false := by
  simp [collisionBit, h.not_gt, h.ne']

/-- The bit of the pass that a later one replays is the bit it chooses again (R153, R158). -/
theorem collisionBit_collisionBit : collisionBit p F (collisionBit p F prev) = collisionBit p F prev := by
  unfold collisionBit
  split <;> rfl

/-- At a collision the rule for one is followed, and a chosen 0 is remembered (R153). -/
theorem branch_collision (p F : Nat) (nf : BitVec 7) (prev : Bool) : branch p F nf false false prev =
    some (collisionBit p F prev, if collisionBit p F prev then nf else BitVec.ofNat 7 p) := by
  rcases Nat.lt_trichotomy p F with hlt | rfl | hgt
  · simp [branch, collisionBit_of_lt hlt, hlt]
  · simp [branch, collisionBit_self]
  · simp [branch, collisionBit_of_gt hgt, hgt.not_gt, hgt.ne']

/-- A position whose earlier bit is the bit it chose chooses that bit again, with the same `newfork`. -/
theorem branch_replay (h : branch p F nf b cb prev = some (v, nf')) :
    branch p F nf b cb v = some (v, nf') := by
  cases b <;> cases cb
  case false.false =>
    rw [branch_collision] at h ⊢
    cases h
    rw [collisionBit_collisionBit]
  all_goals exact h

end

/-- Settles O37: pairs that are no collision by definition, a collision by the bit chosen there. -/
theorem branchFollowsTheTable : Obligations.BranchFollowsTheTable := by
  intro p F newfork prev _ _
  refine ⟨rfl, rfl, rfl, fun hlt => ?left, fun heq => ?fork, fun hgt => ?right⟩
  case left =>
    rw [branch_collision, branch_collision, collisionBit_of_lt hlt, collisionBit_of_lt hlt]
    exact ⟨rfl, rfl⟩
  case fork =>
    subst heq
    rw [branch_collision, collisionBit_self]
    rfl
  case right =>
    rw [branch_collision, collisionBit_of_gt hgt]
    rfl

/-! ## What the levels of a pass make of the cursor (R154) -/

section
variable {F n p q : Nat} {cur a : Vector Byte 8} {nf nf' : BitVec 7} {l l' : List Bool} {b cb v : Bool}

/-- The levels of later positions do not matter. -/
theorem readPass_append (h : 2 * n ≤ l.length) : readPass F cur (l ++ l') n = readPass F cur l n := by
  induction n with
  | zero => rfl
  | succ n ih =>
    rw [readPass, readPass, ih (by omega), List.getD_append _ _ _ _ (by omega),
      List.getD_append _ _ _ _ (by omega)]

/-- One more position, whose two levels come after those of the positions before it. -/
theorem readPass_succ (h : readPass F cur l n = some (a, nf)) (hl : l.length = 2 * n) (b cb : Bool) :
    readPass F cur (l ++ [b, cb]) (n + 1) = (branch (n + 1) F nf b cb (posBit a (n + 1))).map
      fun c => (setPosBit a (n + 1) c.1, c.2) := by
  have hb : (l ++ [b, cb]).getD (2 * n) false = b := by
    rw [List.getD_append_right _ _ _ _ hl.le, hl, Nat.sub_self]
    rfl
  have hcb : (l ++ [b, cb]).getD (2 * n + 1) false = cb := by
    rw [List.getD_append_right _ _ _ _ (by omega), hl, Nat.add_sub_cancel_left]
    rfl
  rw [readPass, readPass_append hl.ge, h, Option.bind_some, hb, hcb]

/-- A pass that has ended before a position does not come to a later one (R156). -/
theorem readPass_eq_none_of_le (h : readPass F cur l n = none) (hnp : n ≤ p) :
    readPass F cur l p = none := by
  induction p, hnp using Nat.le_induction with
  | base => exact h
  | succ p _ ih => rw [readPass, ih, Option.bind_none]

/-- The positions not yet reached keep their earlier bits (R154, R156). -/
theorem posBit_of_readPass (h : readPass F cur l n = some (a, nf)) (hn : n ≤ 64) (hq : n < q) :
    posBit a q = posBit cur q := by
  induction n generalizing a nf with
  | zero =>
    cases h
    rfl
  | succ n ih =>
    obtain ⟨x, hx, hnext⟩ := Option.bind_eq_some_iff.1 h
    obtain ⟨c, -, hc⟩ := Option.map_eq_some_iff.1 hnext
    cases hc
    rw [posBit_setPosBit_of_ne _ _ hn (by omega) (by omega), ih hx (by omega) (by omega)]

/-- The slots of a pass end with those of the position whose bit was written last. -/
theorem passSlots_succ (a : Vector Byte 8) (v : Bool) (hn : n < 64) :
    passSlots (setPosBit a (n + 1) v) (n + 1) = passSlots a n ++ positionSlots v := by
  rw [passSlots, List.range_succ, List.flatMap_append, List.flatMap_singleton, posBit_setPosBit_self a v hn]
  congr 1
  refine List.flatMap_congr fun k hk => ?_
  have hlt := List.mem_range.1 hk
  rw [posBit_setPosBit_of_ne a v hn (by omega) (by omega)]

end

/-- The events `ev` show the positions 1 to `n` of a pass (R154): two levels each, of which the branch rule
makes the address `a` and `newfork`, and the slots that wrote the bits of `a`. -/
structure PassShown (F : Nat) (cur : Vector Byte 8) (n : Nat) (a : Vector Byte 8) (nf : BitVec 7)
    (ev : List LineEvent) : Prop where
  length : (levelsOf ev).length = 2 * n
  choices : readPass F cur (levelsOf ev) n = some (a, nf)
  slots : slotsOf ev = passSlots a n

theorem PassShown.start (F : Nat) (cur : Vector Byte 8) : PassShown F cur 0 cur 0 [] := ⟨rfl, rfl, rfl⟩

theorem PassShown.succ {F n : Nat} {cur a : Vector Byte 8} {nf nf' : BitVec 7} {ev ev' : List LineEvent}
    {b cb v : Bool} (h : PassShown F cur n a nf ev) (hn : n < 64)
    (hb : branch (n + 1) F nf b cb (posBit a (n + 1)) = some (v, nf'))
    (hslots : slotsOf ev' = positionSlots v) (hlevels : levelsOf ev' = [b, cb]) :
    PassShown F cur (n + 1) (setPosBit a (n + 1) v) nf' (ev ++ ev') where
  length := by
    rw [levelsOf_append, hlevels, List.length_append, h.length]
    rfl
  choices := by rw [levelsOf_append, hlevels, readPass_succ h.choices h.length, hb, Option.map_some]
  slots := by rw [slotsOf_append, hslots, h.slots, passSlots_succ a v hn]

/-! ## SEARCH_INIT and SEARCH_NEXT (R151, R154, R155, R156) -/

section
variable {s t : State} {st : Status} {r : Regs} {m : LineMode} {ev : List LineEvent}
variable {k : Word × List Nat} {F' : State → Prop}

/-- A statement that updates the flags by what the registers hold. -/
theorem Did.writeStatusOf {f : Regs → Status → Status} (h : Did s t st r m ev k)
    (hf : ∀ r a o, f r { a with ovr := o } = { f r a with ovr := o }) :
    Spec (write fun s => s.onStatus (f s.regs)) t (fun _ u => Did s u (f r st) r m ev k) F' :=
  write_spec (fun _ _ => base_of_parts rfl rfl rfl rfl rfl) fun u hl => by
    have hd := h.later hl
    rw [hd.regs]
    exact hd.onStatus (hf r)

/-- How SEARCH_NEXT begins (R154): the settle delay is shown, and FOUND is cleared. -/
theorem Did.settleThen {c : Cmd Unit} {Q : Unit → State → Prop} (h : Did s t st r m ev k)
    (hc : ∀ u, Did s u { st with found := false } r m (ev ++ [.delay .tSETTLE]) k → Spec c u Q F') :
    Spec (do enter .settle; delay .tSETTLE; enter .idle; write (·.setFound false); c) t Q F' := by
  refine (enter_spec .settle).andThen fun _ t1 _ ⟨hw1, hpin1, _⟩ => ?_
  refine (delay_spec .tSETTLE).andThen fun _ t2 _ ⟨hw2, hpin2, _⟩ => ?_
  refine (enter_spec .idle).andThen fun _ t3 _ ⟨hw3, hpin3, hmicro, _⟩ => ?_
  have hpin : t3.pin = t.pin := by rw [hpin3, hpin2, hpin1]
  have hd := h.work ((hw1.trans hw2).trans hw3) fun hclosed => ⟨hmicro, hpin ▸ hclosed.released⟩
  exact (hd.writeStatus (f := fun st => { st with found := false }) fun _ _ => rfl).andThen
    fun _ u _ hu => hc u hu

theorem unlessExhausted_of_ne {fork : BitVec 7} (h : fork ≠ 0) : unlessExhausted fork = pure () := if_neg h

/-- The positions 1 to `n` of a pass (R154): all of them are shown and stand in CUR_ADDR, or after `p` of
them the pair (1, 1) has ended the command (R156). -/
theorem Did.searchPositions {F n : Nat} (h : Did s t st r m ev k) (hn : n ≤ 64)
    (hF : ∀ u p a nf ev1 ev2, p < n → PassShown F r.curAddr p a nf ev1 → slotsOf ev2 = [.read, .read] →
      levelsOf ev2 = [true, true] →
      Ends s u { st with fault := .neither } { r with curAddr := a } m (ev ++ (ev1 ++ ev2)) k → F' u) :
    Spec (Machine.searchPositions F n) t (fun nf u => ∃ a ev1, PassShown F r.curAddr n a nf ev1 ∧
      Did s u st { r with curAddr := a } m (ev ++ ev1) k) F' := by
  induction n with
  | zero => exact .pure ⟨_, [], .start F r.curAddr, by simpa using h⟩
  | succ n ih =>
    refine (ih (by omega) fun u p a nf ev1 ev2 hp => hF u p a nf ev1 ev2 (by omega)).bind
      (fun _ _ hu => hu) ?_
    rintro nf t1 - ⟨a, ev1, hshown, hdid⟩
    refine (hdid.searchPosition (n + 1) F nf fun u ev2 hslots hlevels hends =>
      hF u n a nf ev1 ev2 (by omega) hshown hslots hlevels (by simpa using hends)).mono ?_ fun _ _ hu => hu
    rintro nf' u - ⟨b, cb, v, ev2, hb, hslots, hlevels, hdid⟩
    exact ⟨_, ev1 ++ ev2, hshown.succ (by omega) hb hslots hlevels, by simpa using hdid⟩

/-- The end of a complete pass (R155). -/
theorem Did.completePass {Q : Unit → State → Prop} (nf : BitVec 7) (h : Did s t st r m ev k)
    (hF : ∀ u, Ends s u { st with found := true, crcOk := crcOf (firstBytes r.curAddr 8) == 0 }
      { r with srchResult := r.curAddr, fork := nf } m ev k → F' u) :
    Spec (Machine.completePass nf) t Q F' := by
  refine (h.writeRegs fun r => { r with fork := nf }).andThen fun _ _ _ h => ?_
  refine (h.writeRegs fun r => { r with srchResult := r.curAddr }).andThen fun _ _ _ h => ?_
  refine (h.writeStatus (f := fun st => { st with found := true }) fun _ _ => rfl).andThen fun _ _ _ h => ?_
  refine (h.writeStatusOf (f := fun r st => { st with crcOk := (crcCheck (firstBytes r.srchResult 8)).1 })
    fun _ _ _ => rfl).andThen fun _ _ _ h => ?_
  exact h.finish hF

/-- SEARCH_NEXT ended in `t` by an absent presence pulse (R154). -/
def EndedAbsent (s t : State) : Prop := ∃ hi, hi ≠ some false ∧
  Ends s t ({ s.status with found := false }.afterReset hi) s.regs s.pin.mode
    (.delay .tSETTLE :: resetEvents hi) (s.env.tickIn, s.env.elapses)

/-- What SEARCH_NEXT has shown when the first position of its pass is due (R154). -/
def IsPrologue (ev : List LineEvent) : Prop :=
  slotsOf ev = [.settle, .reset] ++ byteSlots 0xF0 ∧ levelsOf ev = [false]

/-- SEARCH_NEXT ended in `t` by the pair (1, 1) at position `p + 1` (R156). -/
def EndedNeither (s t : State) : Prop := ∃ p a nf ev0 ev1 ev2, p < 64 ∧ IsPrologue ev0 ∧
  PassShown s.regs.fork.toNat s.regs.curAddr p a nf ev1 ∧ slotsOf ev2 = [.read, .read] ∧
  levelsOf ev2 = [true, true] ∧
  Ends s t { s.status with found := false, presence := true, fault := .neither } { s.regs with curAddr := a }
    s.pin.mode (ev0 ++ (ev1 ++ ev2)) (s.env.tickIn, s.env.elapses)

/-- SEARCH_NEXT ended in `t` by a complete pass (R155). -/
def EndedFound (s t : State) : Prop := ∃ a nf ev0 ev1, IsPrologue ev0 ∧
  PassShown s.regs.fork.toNat s.regs.curAddr 64 a nf ev1 ∧
  Ends s t { s.status with found := true, presence := true, crcOk := crcOf (firstBytes a 8) == 0 }
    { s.regs with curAddr := a, srchResult := a, fork := nf } s.pin.mode (ev0 ++ ev1)
    (s.env.tickIn, s.env.elapses)

/-- SEARCH_NEXT with FORK not 0 (R154, R155, R156): its three endings. -/
theorem exec_searchNext (hn : s.NoReset) (hfork : s.regs.fork ≠ 0) :
    ∃ t, exec .searchNext s = .next t ∧ (EndedAbsent s t ∨ EndedNeither s t ∨ EndedFound s t) := by
  refine Spec.next_of_noReset ((Did.start s).settleThen fun t1 h1 => ?_) hn
  refine (Spec.ask (Q := fun fork u => u = t1 ∧ fork = s.regs.fork) ⟨rfl, by rw [h1.regs]⟩).andThen ?_
  rintro _ _ - ⟨rfl, rfl⟩
  rw [unlessExhausted_of_ne hfork, pure_bind]
  refine (h1.beginTransaction fun hi u hne hu => ?_).bind (fun _ _ h => h) fun _ t2 _ h2 => ?_
  case refine_1 =>
    rw [pure_bind]
    exact hu.failReset hne fun _ hends => .inl ⟨hi, hne, hends⟩
  refine (h2.writeByte 0xF0).andThen ?_
  rintro _ t3 - ⟨ev', hslots, hlevels, h3⟩
  have hpro : IsPrologue (([] ++ [.delay .tSETTLE]) ++ resetEvents (some false) ++ ev') := by
    constructor
    · rw [slotsOf_append, hslots]
      rfl
    · rw [levelsOf_append, hlevels]
      rfl
  refine (Spec.ask (Q := fun F u => u = t3 ∧ F = s.regs.fork.toNat) ⟨rfl, by rw [h3.regs]⟩).andThen ?_
  rintro _ _ - ⟨rfl, rfl⟩
  refine (h3.searchPositions (Nat.le_refl 64) fun u p a nf ev1 ev2 hp hshown hslots hlevels hends =>
    .inr (.inl ⟨p, a, nf, _, ev1, ev2, hp, hpro, hshown, hslots, hlevels, hends⟩)).bind (fun _ _ h => h) ?_
  rintro nf t4 - ⟨a, ev1, hshown, h4⟩
  exact h4.completePass nf fun u hends => .inr (.inr ⟨a, nf, _, ev1, hpro, hshown, hends⟩)

end

/-- Settles O35: the three writes, then `finish`. -/
theorem searchInitStartsFresh : Obligations.SearchInitStartsFresh := by
  intro s hn
  refine Spec.next_of_noReset (hn := hn) ?_
  refine ((Silent.start s).writeRegs fun r => { r with curAddr := zeroAddr }).andThen fun _ _ _ h => ?_
  refine (h.writeRegs fun r => { r with fork := Config.forkFresh }).andThen fun _ _ _ h => ?_
  refine (h.writeStatus (f := fun st => { st with found := false }) fun _ _ => rfl).andThen fun _ _ _ h => ?_
  exact h.finish

/-- Settles O36: after the settle delay and the clearing of FOUND only `fail(EXHAUSTED)` runs. -/
theorem searchNextExhausted : Obligations.SearchNextExhausted := by
  intro s hn hfork
  refine Spec.next_of_noReset ((Did.start s).settleThen fun t1 h1 => ?_) hn
  refine (Spec.ask (Q := fun fork u => u = t1 ∧ fork = 0) ⟨rfl, by rw [h1.regs, hfork]⟩).andThen ?_
  rintro _ _ - ⟨rfl, rfl⟩
  exact (h1.fail .exhausted fun _ hends => ⟨hends.done, hends.emitted⟩).bind (Q := fun _ _ => False)
    (fun _ _ h => h) fun _ _ _ h => h.elim

/-- Settles O38: the three endings of SEARCH_NEXT. -/
theorem searchNextRunsOnePass : Obligations.SearchNextRunsOnePass := by
  intro s hn hfork
  obtain ⟨t, ht, habsent | hneither | hfound⟩ := exec_searchNext hn hfork
  case inl =>
    obtain ⟨hi, hne, hends⟩ := habsent
    exact ⟨t, hi, _, ht, hends.emitted, .inl ⟨hne, rfl, hends.done⟩⟩
  case inr.inl =>
    obtain ⟨p, a, nf, ev0, ev1, ev2, hp, ⟨hslots0, hlevels0⟩, hshown, hslots2, hlevels2, hends⟩ := hneither
    refine ⟨t, some false, _, ht, hends.emitted, .inr (.inl ⟨rfl, p + 1, a, nf, levelsOf ev1, by omega, hp,
      hshown.length, ?levels, hshown.choices, fun q hq _ => posBit_of_readPass hshown.choices hp.le hq, ?slots,
      hends.done⟩)⟩
    case levels => rw [levelsOf_append, levelsOf_append, hlevels0, hlevels2, List.singleton_append,
      List.cons_append]
    case slots => rw [slotsOf_append, slotsOf_append, hslots0, hshown.slots, hslots2, Nat.add_sub_cancel,
      ← List.append_assoc]
  case inr.inr =>
    obtain ⟨a, nf, ev0, ev1, ⟨hslots0, hlevels0⟩, hshown, hends⟩ := hfound
    refine ⟨t, some false, _, ht, hends.emitted, .inr (.inr ⟨rfl, a, nf, levelsOf ev1, hshown.length, ?levels,
      hshown.choices, ?slots, hends.done⟩)⟩
    case levels => rw [levelsOf_append, hlevels0, List.singleton_append]
    case slots => rw [slotsOf_append, hslots0, hshown.slots]

/-! ## Passes over the reference devices (R157, D32) -/

section
variable {S D : List (Vector Byte 8)} {F n p : Nat} {cur : Vector Byte 8} {x y : RefPass} {l : List Bool}

/-- One position of a reference pass: the bit `v` is chosen, the devices without it drop out. -/
theorem RefPass.next_eq_some_iff : RefPass.next F p x = some y ↔
    ∃ v nf, branch p F x.newfork (busBit x.devices p) (busComplement x.devices p) (posBit x.cur p) =
      some (v, nf) ∧
      y = { devices := x.devices.filter (posBit · p == v), cur := setPosBit x.cur p v, newfork := nf } := by
  rw [RefPass.next, Option.map_eq_some_iff, Prod.exists]
  simp only [eq_comm]

theorem refPass_succ_eq_some_iff : refPass S F cur (n + 1) = some y ↔
    ∃ x, refPass S F cur n = some x ∧ RefPass.next F (n + 1) x = some y :=
  Option.bind_eq_some_iff

/-- The levels of a pass that comes as far as position `n` are two for each position, and the branch rule
makes of them what the pass has come to. -/
theorem readPass_refLevels (h : refPass S F cur n = some x) :
    (refLevels S F cur n).length = 2 * n ∧
      readPass F cur (refLevels S F cur n) n = some (x.cur, x.newfork) := by
  induction n generalizing x with
  | zero =>
    cases h
    exact ⟨rfl, rfl⟩
  | succ n ih =>
    obtain ⟨y, hy, hnext⟩ := refPass_succ_eq_some_iff.1 h
    obtain ⟨v, nf, hb, rfl⟩ := RefPass.next_eq_some_iff.1 hnext
    obtain ⟨hlen, hread⟩ := ih hy
    have hlevels : refLevels S F cur (n + 1) =
        refLevels S F cur n ++ [busBit y.devices (n + 1), busComplement y.devices (n + 1)] := by
      rw [refLevels, hy]
    rw [hlevels, readPass_succ hread hlen, hb, List.length_append, hlen]
    exact ⟨rfl, rfl⟩

/-- Levels that begin with those of a pass cut by the pair (1, 1) are not the levels of a complete pass. -/
theorem readPass_eq_none_of_neither {a : Vector Byte 8} {nf : BitVec 7} {rest : List Bool}
    (h : readPass F cur l p = some (a, nf)) (hl : l.length = 2 * p) (hp : p < n) :
    readPass F cur (l ++ [true, true] ++ rest) n = none := by
  refine readPass_eq_none_of_le ?_ hp
  rw [readPass_append (by simp; omega), readPass_succ h hl]
  rfl

end

section
variable {s t : State} {st : Status} {r : Regs} {m : LineMode} {ev : List LineEvent} {k : Word × List Nat}

/-- The levels shown are the first of the scripted ones. -/
theorem Ends.levels_prefix_of_script {l rest : List Bool} (h : Ends s t st r m ev k)
    (hs : s.env.samples = l ++ rest) (hlen : (levelsOf ev).length ≤ l.length) : levelsOf ev <+: l := by
  have hsplit : s.env.samples = l.take (levelsOf ev).length ++ (l.drop (levelsOf ev).length ++ rest) := by
    rw [hs, ← List.append_assoc, List.take_append_drop]
  rw [(h.script _ _ hsplit (List.length_take_of_le hlen)).1]
  exact List.take_prefix ..

/-- With a scripted rise and a scripted low presence sample a device has answered (R140). -/
theorem EndedAbsent.false_of_script {rises : List Rise} {rest : List Bool} (h : EndedAbsent s t)
    (hrises : s.env.rises = .rose :: rises) (hsamples : s.env.samples = false :: rest) : False := by
  obtain ⟨hi, hne, hends⟩ := h
  rcases hi with _ | _ | _
  case none => cases (hends.scriptRises [.rose] _ hrises rfl).1
  case some.false => exact hne rfl
  case some.true => cases (hends.script [false] _ hsamples rfl).1

end

/-- Settles O39: the scripted presence sample and levels rule the other two endings out, and of the levels the
branch rule makes what the reference pass came to. -/
theorem searchNextFollowsTheReferenceBus : Obligations.SearchNextFollowsTheReferenceBus := by
  intro s S x rises rest hn hfork hrises hpass hsamples
  obtain ⟨hlen, hread⟩ := readPass_refLevels hpass
  obtain ⟨t, ht, habsent | hneither | hfound⟩ := exec_searchNext hn hfork
  case inl => exact (habsent.false_of_script hrises hsamples).elim
  case inr.inl =>
    obtain ⟨p, a, nf, ev0, ev1, ev2, hp, ⟨-, hlevels0⟩, hshown, -, hlevels2, hends⟩ := hneither
    have hl : levelsOf (ev0 ++ (ev1 ++ ev2)) = false :: (levelsOf ev1 ++ [true, true]) := by
      rw [levelsOf_append, levelsOf_append, hlevels0, hlevels2, List.singleton_append]
    have hprefix := hends.levels_prefix_of_script hsamples
      (by simp only [hl, List.length_cons, List.length_append, hshown.length, hlen, List.length_nil]; omega)
    rw [hl, List.cons_prefix_cons] at hprefix
    obtain ⟨-, later, hlater⟩ := hprefix
    rw [← hlater, readPass_eq_none_of_neither hshown.choices hshown.length hp] at hread
    cases hread
  case inr.inr =>
    obtain ⟨a, nf, ev0, ev1, ⟨-, hlevels0⟩, hshown, hends⟩ := hfound
    have hscript := hends.script _ _ hsamples (by
      rw [levelsOf_append, hlevels0, List.singleton_append, List.length_cons, List.length_cons, hlen,
        hshown.length])
    rw [levelsOf_append, hlevels0, List.singleton_append, List.cons_inj_right] at hscript
    obtain ⟨hl, hrest⟩ := hscript
    have hchoices := hshown.choices
    rw [hl, hread] at hchoices
    cases hchoices
    exact ⟨t, ht, hends.done, hrest⟩

/-! ## Retry (R158) -/

section
variable {S D : List (Vector Byte 8)} {F n p q : Nat} {cur cut a b d : Vector Byte 8} {x y : RefPass}
variable {v : Bool} {nf : BitVec 7}

/-- The positions a reference pass has not reached keep their earlier bits. -/
theorem posBit_of_refPass (h : refPass S F cur n = some x) (hn : n ≤ 64) (hq : n < q) :
    posBit x.cur q = posBit cur q :=
  posBit_of_readPass (readPass_refLevels h).2 hn hq

/-- A pass whose cursor holds at each of the first `n` positions the earlier bit or the bit the pass chooses
comes to the same bits, devices and `newfork` there. -/
theorem refPass_retry (hn : n ≤ 64) (h : refPass S F cur n = some x)
    (hcut : ∀ q, 1 ≤ q → q ≤ n → posBit cut q = posBit x.cur q ∨ posBit cut q = posBit cur q) :
    ∃ c, refPass S F cut n = some { x with cur := c } ∧
      ∀ q, 1 ≤ q → q ≤ n → posBit c q = posBit x.cur q := by
  induction n generalizing x with
  | zero =>
    cases h
    exact ⟨cut, rfl, fun q h1 h0 => by omega⟩
  | succ n ih =>
    obtain ⟨y, hy, hnext⟩ := refPass_succ_eq_some_iff.1 h
    obtain ⟨v, nf, hb, rfl⟩ := RefPass.next_eq_some_iff.1 hnext
    have hother {a : Vector Byte 8} {q : Nat} (h1 : 1 ≤ q) (hq : q ≤ n) :
        posBit (setPosBit a (n + 1) v) q = posBit a q :=
      posBit_setPosBit_of_ne a v hn h1 (by omega)
    obtain ⟨c, hc, hbits⟩ := ih (by omega) hy fun q h1 hq => by
      have hq' := hcut q h1 (by omega)
      rwa [hother h1 hq] at hq'
    have hprev : branch (n + 1) F y.newfork (busBit y.devices (n + 1)) (busComplement y.devices (n + 1))
        (posBit c (n + 1)) = some (v, nf) := by
      rw [posBit_of_refPass hc (by omega) (by omega)]
      rcases hcut (n + 1) (by omega) (Nat.le_refl _) with hsame | hsame <;> rw [hsame]
      · rw [posBit_setPosBit_self _ _ hn]
        exact branch_replay hb
      · rwa [← posBit_of_refPass hy (by omega) (by omega)]
    refine ⟨_, refPass_succ_eq_some_iff.2 ⟨_, hc, RefPass.next_eq_some_iff.2 ⟨v, nf, hprev, rfl⟩⟩, ?_⟩
    intro q h1 hq
    obtain rfl | hlt := Nat.eq_or_lt_of_le hq
    · rw [posBit_setPosBit_self _ _ hn, posBit_setPosBit_self _ _ hn]
    · rw [hother h1 (by omega), hother h1 (by omega), hbits q h1 (by omega)]

end

/-- Settles O43: at each position the cut cursor holds the chosen bit or the earlier one. -/
theorem retryFindsTheSameAddress : Obligations.RetryFindsTheSameAddress := by
  intro S F k cur cut x hk hpass hwritten hkept
  obtain ⟨c, hc, hbits⟩ := refPass_retry (Nat.le_refl 64) hpass fun q h1 hq =>
    (Nat.lt_or_ge k q).symm.imp (hwritten q h1) (hkept q · hq)
  rw [hc, eq_of_posBit hbits]

/-! ## The order of addresses (R159) -/

/-- The bit string of an address, position 1 first, in the lexicographic order. -/
def bitString (a : Vector Byte 8) : Lex (Fin 64 → Bool) := toLex fun i => posBit a (i + 1)

/-- Two addresses have the same bits before position `p`. -/
def SameBelow (p : Nat) (a b : Vector Byte 8) : Prop := ∀ q, 1 ≤ q → q < p → posBit a q = posBit b q

/-- Two addresses part at position `p`, where the first has a 0 and the second a 1. -/
def PartAt (p : Nat) (a b : Vector Byte 8) : Prop :=
  SameBelow p a b ∧ posBit a p = false ∧ posBit b p = true

section
variable {a b c : Vector Byte 8} {p q : Nat}

theorem foundBefore_iff_partAt : foundBefore a b ↔ ∃ p, 1 ≤ p ∧ p ≤ 64 ∧ PartAt p a b := Iff.rfl

theorem bitString_injective : Function.Injective bitString := fun a b h =>
  eq_of_posBit fun q h1 hq => by
    have hbit := congrFun (toLex_inj.1 h) ⟨q - 1, by omega⟩
    rwa [show q - 1 + 1 = q by omega] at hbit

/-- The order of R159 is the lexicographic one. -/
theorem foundBefore_iff_bitString_lt : foundBefore a b ↔ bitString a < bitString b := by
  constructor
  case mp =>
    rintro ⟨p, h1, hp, hsame, ha, hb⟩
    obtain ⟨i, rfl⟩ : ∃ i, p = i + 1 := ⟨p - 1, by omega⟩
    refine ⟨⟨i, by omega⟩, fun j hj => hsame (j + 1) (by omega) (Nat.succ_lt_succ hj), ?_⟩
    exact Bool.lt_iff.2 ⟨ha, hb⟩
  case mpr =>
    rintro ⟨i, hsame, hi⟩
    refine ⟨i + 1, by omega, i.isLt, fun q h1 hq => ?_, Bool.lt_iff.1 hi⟩
    obtain ⟨j, rfl⟩ : ∃ j, q = j + 1 := ⟨q - 1, by omega⟩
    exact hsame ⟨j, by omega⟩ (Nat.succ_lt_succ_iff.1 hq)

theorem foundBefore_asymm (h : foundBefore a b) : ¬ foundBefore b a := by
  rw [foundBefore_iff_bitString_lt] at *
  exact h.asymm

theorem foundBefore_trans (h : foundBefore a b) (k : foundBefore b c) : foundBefore a c := by
  rw [foundBefore_iff_bitString_lt] at *
  exact h.trans k

theorem foundBefore_or_of_ne (h : a ≠ b) : foundBefore a b ∨ foundBefore b a := by
  rw [foundBefore_iff_bitString_lt, foundBefore_iff_bitString_lt]
  exact lt_or_gt_of_ne (bitString_injective.ne h)

/-- A list of different addresses can be brought into the order of R159. -/
theorem exists_perm_pairwise_foundBefore {S : List (Vector Byte 8)} (h : S.Nodup) :
    ∃ L : List (Vector Byte 8), L.Perm S ∧ L.Pairwise foundBefore := by
  have hperm := List.perm_insertionSort (bitString ⁻¹'o (· ≤ ·)) S
  have hsorted := List.pairwise_insertionSort (bitString ⁻¹'o (· ≤ ·)) S
  refine ⟨_, hperm, (hsorted.and (hperm.nodup_iff.2 h)).imp fun ⟨hle, hne⟩ => ?_⟩
  exact foundBefore_iff_bitString_lt.2 (hle.lt_of_ne (bitString_injective.ne hne))

/-- The head of an ordered list is the one of its members that is before all the others. -/
theorem eq_head_of_first {L : List (Vector Byte 8)} (hL : (b :: L).Pairwise foundBefore) (hc : c ∈ b :: L)
    (hfirst : ∀ d ∈ b :: L, d ≠ c → foundBefore c d) : c = b := by
  by_contra hne
  have hbc := List.rel_of_pairwise_cons hL ((List.mem_cons.1 hc).resolve_left hne)
  exact foundBefore_asymm hbc (hfirst b List.mem_cons_self (Ne.symm hne))

/-- The members of an ordered list behind its head are those after it in the order. -/
theorem mem_tail_iff_of_pairwise {L : List (Vector Byte 8)} (hL : (b :: L).Pairwise foundBefore) :
    c ∈ L ↔ c ∈ b :: L ∧ foundBefore b c := by
  refine ⟨fun h => ⟨List.mem_cons_of_mem b h, List.rel_of_pairwise_cons hL h⟩, fun ⟨h, hbc⟩ => ?_⟩
  exact (List.mem_cons.1 h).resolve_left fun e => foundBefore_asymm hbc (e ▸ hbc)

end

/-! ## What a pass over reference devices finds (R152, R153, R157) -/

section
variable {S D L : List (Vector Byte 8)} {F n p q : Nat} {cur a b d : Vector Byte 8} {x y : RefPass}
variable {nf nf' : BitVec 7} {v prev : Bool}

theorem busBit_eq_false_iff : busBit D p = false ↔ ∃ d ∈ D, posBit d p = false := by
  simp [busBit]

theorem busBit_eq_true_iff : busBit D p = true ↔ ∀ d ∈ D, posBit d p = true := List.all_eq_true

theorem busComplement_eq_false_iff : busComplement D p = false ↔ ∃ d ∈ D, posBit d p = true := by
  simp [busComplement]

theorem busComplement_eq_true_iff : busComplement D p = true ↔ ∀ d ∈ D, posBit d p = false := by
  simp [busComplement]

/-- The branch rule on the levels that a device or more show (R152, R153): some device has the chosen bit; where
they disagree it is the bit for a collision, and a chosen 0 is remembered. -/
theorem branch_bus (hD : D ≠ []) (p F : Nat) (nf : BitVec 7) (prev : Bool) : ∃ v nf',
    branch p F nf (busBit D p) (busComplement D p) prev = some (v, nf') ∧ (∃ d ∈ D, posBit d p = v) ∧
    ((∃ d ∈ D, posBit d p ≠ v) → v = collisionBit p F prev) ∧
    (nf' = BitVec.ofNat 7 p ∧ v = false ∧ (∃ d ∈ D, posBit d p = true) ∨
      nf' = nf ∧ (v = false → ∀ d ∈ D, posBit d p = false)) := by
  cases hb : busBit D p <;> cases hcb : busComplement D p
  case false.false =>
    rw [busBit_eq_false_iff] at hb
    rw [busComplement_eq_false_iff] at hcb
    rw [branch_collision]
    refine ⟨_, _, rfl, ?_, fun _ => rfl, ?_⟩ <;> cases collisionBit p F prev
    · exact hb
    · exact hcb
    · exact .inl ⟨rfl, rfl, hcb⟩
    · exact .inr ⟨rfl, nofun⟩
  case false.true =>
    rw [busComplement_eq_true_iff] at hcb
    exact ⟨false, nf, rfl, busBit_eq_false_iff.1 hb, fun ⟨d, hd, h⟩ => (h (hcb d hd)).elim,
      .inr ⟨rfl, fun _ => hcb⟩⟩
  case true.false =>
    rw [busBit_eq_true_iff] at hb
    exact ⟨true, nf, rfl, busComplement_eq_false_iff.1 hcb, fun ⟨d, hd, h⟩ => (h (hb d hd)).elim,
      .inr ⟨rfl, nofun⟩⟩
  case true.true =>
    obtain ⟨d, hd⟩ := List.exists_mem_of_ne_nil D hD
    cases (busBit_eq_true_iff.1 hb d hd).symm.trans (busComplement_eq_true_iff.1 hcb d hd)

/-- `nf` is the last of the positions 1 to `n` where a device of `S` parts from `a` and comes after it; it is 0
if there is none. -/
structure LastFork (S : List (Vector Byte 8)) (n : Nat) (a : Vector Byte 8) (nf : BitVec 7) : Prop where
  le : nf.toNat ≤ n
  parts : nf ≠ 0 → 1 ≤ nf.toNat ∧ ∃ d ∈ S, PartAt nf.toNat a d
  last : ∀ p, 1 ≤ p → p ≤ n → ∀ d ∈ S, PartAt p a d → p ≤ nf.toNat

/-- What the positions 1 to `n` of a pass have settled: the devices that agree with the cursor so far still take
part, where one has dropped out the bit is the rule's for a collision, and `newfork` is the last of those
positions where it is 0. -/
structure Walked (S : List (Vector Byte 8)) (F : Nat) (cur : Vector Byte 8) (n : Nat) (x : RefPass) : Prop where
  mem_devices : ∀ d, d ∈ x.devices ↔ d ∈ S ∧ SameBelow (n + 1) x.cur d
  nonempty : x.devices ≠ []
  sublist : x.devices.Sublist S
  chosen : ∀ p, 1 ≤ p → p ≤ n → ∀ d ∈ S, SameBelow p x.cur d → posBit d p ≠ posBit x.cur p →
    posBit x.cur p = collisionBit p F (posBit cur p)
  fork : LastFork S n x.cur x.newfork

theorem Walked.start (hS : S ≠ []) (F : Nat) (cur : Vector Byte 8) :
    Walked S F cur 0 { devices := S, cur := cur, newfork := 0 } where
  mem_devices d := ⟨fun h => ⟨h, fun q h1 hq => by omega⟩, And.left⟩
  nonempty := hS
  sublist := .refl S
  chosen p h1 h0 := by omega
  fork := ⟨Nat.le_refl 0, fun h => (h rfl).elim, fun p h1 h0 => by omega⟩

theorem sameBelow_setPosBit (v : Bool) (hn : n < 64) (hp : p ≤ n + 1) :
    SameBelow p (setPosBit a (n + 1) v) b ↔ SameBelow p a b := by
  refine forall₃_congr fun q h1 hq => ?_
  rw [posBit_setPosBit_of_ne a v hn h1 (by omega)]

theorem sameBelow_succ (hp : 1 ≤ p) : SameBelow (p + 1) a b ↔ SameBelow p a b ∧ posBit a p = posBit b p := by
  refine ⟨fun h => ⟨fun q h1 hq => h q h1 (by omega), h p hp (by omega)⟩, fun ⟨h, hbit⟩ q h1 hq => ?_⟩
  obtain rfl | hlt := Nat.eq_or_lt_of_le (Nat.le_of_lt_succ hq)
  · exact hbit
  · exact h q h1 hlt

theorem sameBelow_setPosBit_self (v : Bool) (hn : n < 64) : SameBelow (n + 1 + 1) (setPosBit a (n + 1) v) b ↔
    SameBelow (n + 1) a b ∧ posBit b (n + 1) = v := by
  rw [sameBelow_succ (Nat.succ_pos n), sameBelow_setPosBit v hn (Nat.le_refl _), posBit_setPosBit_self a v hn,
    eq_comm (a := v)]

/-- An address parts from others at the positions before the one written as it did. -/
theorem partAt_setPosBit_of_le (v : Bool) (hn : n < 64) (h1 : 1 ≤ p) (hp : p ≤ n) :
    PartAt p (setPosBit a (n + 1) v) d ↔ PartAt p a d := by
  rw [PartAt, PartAt, sameBelow_setPosBit v hn (by omega), posBit_setPosBit_of_ne a v hn h1 (by omega)]

theorem partAt_setPosBit_self (v : Bool) (hn : n < 64) :
    PartAt (n + 1) (setPosBit a (n + 1) v) d ↔ SameBelow (n + 1) a d ∧ v = false ∧ posBit d (n + 1) = true := by
  rw [PartAt, sameBelow_setPosBit v hn (Nat.le_refl _), posBit_setPosBit_self a v hn]

/-- The last fork after one more position, whose bit is `v`: that position, or as before. -/
theorem LastFork.succ (h : LastFork S n a nf) (hn : n < 64)
    (hD : ∀ d, d ∈ D ↔ d ∈ S ∧ SameBelow (n + 1) a d)
    (hnf : nf' = BitVec.ofNat 7 (n + 1) ∧ v = false ∧ (∃ d ∈ D, posBit d (n + 1) = true) ∨
      nf' = nf ∧ (v = false → ∀ d ∈ D, posBit d (n + 1) = false)) :
    LastFork S (n + 1) (setPosBit a (n + 1) v) nf' := by
  rcases hnf with ⟨rfl, hv, d, hd, hbit⟩ | ⟨rfl, hnone⟩
  case inl =>
    obtain ⟨hmem, hsame⟩ := (hD d).1 hd
    have hnat : (BitVec.ofNat 7 (n + 1)).toNat = n + 1 := by
      rw [BitVec.toNat_ofNat, Nat.mod_eq_of_lt (by omega)]
    refine ⟨hnat.le, fun _ => ⟨by omega, d, hmem, ?_⟩, fun p _ hp _ _ _ => hp.trans hnat.ge⟩
    rw [hnat]
    exact (partAt_setPosBit_self v hn).2 ⟨hsame, hv, hbit⟩
  case inr =>
    refine ⟨h.le.trans (Nat.le_succ n), fun h0 => ?_, fun p h1 hp d hd hpart => ?_⟩
    · obtain ⟨hpos, d, hd, hpart⟩ := h.parts h0
      exact ⟨hpos, d, hd, (partAt_setPosBit_of_le v hn hpos h.le).2 hpart⟩
    · obtain rfl | hlt := Nat.eq_or_lt_of_le hp
      · obtain ⟨hsame, hv, hbit⟩ := (partAt_setPosBit_self v hn).1 hpart
        rw [hnone hv d ((hD d).2 ⟨hd, hsame⟩)] at hbit
        cases hbit
      · have hp : p ≤ n := Nat.le_of_lt_succ hlt
        exact h.last p h1 hp d hd ((partAt_setPosBit_of_le v hn h1 hp).1 hpart)

theorem Walked.succ (h : Walked S F cur n x) (hrest : posBit x.cur (n + 1) = posBit cur (n + 1)) (hn : n < 64) :
    ∃ y, RefPass.next F (n + 1) x = some y ∧ Walked S F cur (n + 1) y := by
  obtain ⟨v, nf, hb, ⟨d0, hd0, hbit0⟩, hcollision, hnf⟩ :=
    branch_bus h.nonempty (n + 1) F x.newfork (posBit x.cur (n + 1))
  refine ⟨_, RefPass.next_eq_some_iff.2 ⟨v, nf, hb, rfl⟩, fun d => ?devices, ?nonempty,
    List.filter_sublist.trans h.sublist, fun p h1 hp d hd hsame hne => ?chosen, h.fork.succ hn h.mem_devices hnf⟩
  case devices =>
    rw [List.mem_filter, beq_iff_eq, h.mem_devices, sameBelow_setPosBit_self v hn, and_assoc]
  case nonempty => exact List.ne_nil_of_mem (List.mem_filter.2 ⟨hd0, beq_iff_eq.2 hbit0⟩)
  case chosen =>
    rw [sameBelow_setPosBit v hn hp] at hsame
    obtain rfl | hlt := Nat.eq_or_lt_of_le hp
    · rw [posBit_setPosBit_self _ v hn] at hne ⊢
      rw [← hrest]
      exact hcollision ⟨d, (h.mem_devices d).2 ⟨hd, hsame⟩, hne⟩
    · rw [posBit_setPosBit_of_ne _ v hn h1 hlt.ne] at hne ⊢
      exact h.chosen p h1 (Nat.le_of_lt_succ hlt) d hd hsame hne

/-- A pass over a device or more comes to its end. -/
theorem exists_walked (hS : S ≠ []) (F : Nat) (cur : Vector Byte 8) (hn : n ≤ 64) :
    ∃ x, refPass S F cur n = some x ∧ Walked S F cur n x := by
  induction n with
  | zero => exact ⟨_, rfl, .start hS F cur⟩
  | succ n ih =>
    obtain ⟨x, hx, hwalked⟩ := ih (by omega)
    obtain ⟨y, hy, hwalked'⟩ := hwalked.succ (posBit_of_refPass hx (by omega) (by omega)) hn
    exact ⟨y, refPass_succ_eq_some_iff.2 ⟨x, hx, hy⟩, hwalked'⟩

/-- The devices left at the end of a pass are the one whose address it found. -/
theorem Walked.eq_of_mem_devices (h : Walked S F cur 64 x) (hd : d ∈ x.devices) : d = x.cur := by
  have hsame := ((h.mem_devices d).1 hd).2
  exact (eq_of_posBit fun q h1 hq => hsame q h1 (by omega)).symm

theorem Walked.cur_mem (h : Walked S F cur 64 x) : x.cur ∈ S := by
  obtain ⟨d, hd⟩ := List.exists_mem_of_ne_nil _ h.nonempty
  exact h.eq_of_mem_devices hd ▸ ((h.mem_devices d).1 hd).1

theorem SameBelow.symm (h : SameBelow p a b) : SameBelow p b a := fun q h1 hq => (h q h1 hq).symm

theorem SameBelow.trans (h : SameBelow p a b) (k : SameBelow p b d) : SameBelow p a d :=
  fun q h1 hq => (h q h1 hq).trans (k q h1 hq)

theorem SameBelow.mono (h : SameBelow p a b) (hq : q ≤ p) : SameBelow q a b :=
  fun r h1 hr => h r h1 (hr.trans_le hq)

/-- Where a device comes before the address found, the rule for a collision has chosen a 1. -/
theorem Walked.collisionBit_of_partAt (h : Walked S F cur 64 x) (hd : d ∈ S) (h1 : 1 ≤ p) (hp : p ≤ 64)
    (hpart : PartAt p d x.cur) : collisionBit p F (posBit cur p) = true := by
  obtain ⟨hsame, hd0, hcur1⟩ := hpart
  rw [← h.chosen p h1 hp d hd hsame.symm (by rw [hd0, hcur1]; exact Bool.false_ne_true), hcur1]

/-- From a fresh cursor the pass finds the first of the devices: it takes 0 at every collision. -/
theorem Walked.first_of_fresh (h : Walked S Config.forkFresh.toNat zeroAddr 64 x) (hd : d ∈ S)
    (hne : d ≠ x.cur) : foundBefore x.cur d := by
  obtain ⟨p, h1, hp, hpart⟩ | hbefore := foundBefore_or_of_ne hne
  · have hbit := h.collisionBit_of_partAt hd h1 hp hpart
    have hlt : p < Config.forkFresh.toNat := Nat.lt_succ_of_le hp
    rw [collisionBit_of_lt hlt, posBit_zeroAddr] at hbit
    cases hbit
  · exact hbefore

/-- A pass replays the address `a` of a device up to the fork position. -/
theorem Walked.sameBelow_fork (h : Walked S F a 64 x) (ha : a ∈ S) (hF : F ≤ 64) : SameBelow F a x.cur := by
  intro q
  induction q using Nat.strong_induction_on with
  | h q ih =>
    intro h1 hq
    by_contra hne
    have hchosen := h.chosen q h1 (by omega) a ha (fun r h1 hr => (ih r hr h1 (by omega)).symm) hne
    rw [collisionBit_of_lt hq] at hchosen
    exact hne hchosen.symm

/-- From the cursor that a pass left at `a` the next one finds the first of the devices after `a`: it replays
`a` up to the last fork, takes 1 there, and 0 at every later collision. -/
theorem Walked.next_of_lastFork (h : Walked S nf.toNat a 64 x) (ha : a ∈ S) (hf : LastFork S 64 a nf)
    (hnf : nf ≠ 0) : foundBefore a x.cur ∧
      ∀ d ∈ S, foundBefore a d → d ≠ x.cur → foundBefore x.cur d := by
  obtain ⟨hpos, d0, hd0, hsame0, hbit_a, hbit_d0⟩ := hf.parts hnf
  have hsame : SameBelow nf.toNat a x.cur := h.sameBelow_fork ha hf.le
  have hbit : posBit x.cur nf.toNat = true := by
    by_contra hne
    have hchosen := h.chosen _ hpos hf.le d0 hd0 (hsame.symm.trans hsame0) fun h => hne (h ▸ hbit_d0)
    exact hne (hchosen.trans collisionBit_self)
  refine ⟨⟨nf.toNat, hpos, hf.le, hsame, hbit_a, hbit⟩, ?_⟩
  intro d hd hbefore hne
  obtain ⟨p, h1, hp, hpart⟩ := foundBefore_iff_partAt.1 hbefore
  obtain ⟨hsame_d, hp_a, hp_d⟩ := id hpart
  obtain rfl | hlt := Nat.eq_or_lt_of_le (hf.last p h1 hp d hd hpart)
  case inr => exact ⟨p, h1, hp, (hsame.mono hlt.le).symm.trans hsame_d, hsame p h1 hlt ▸ hp_a, hp_d⟩
  case inl =>
    have hagree : SameBelow (nf.toNat + 1) d x.cur :=
      (sameBelow_succ hpos).2 ⟨hsame_d.symm.trans hsame, hp_d.trans hbit.symm⟩
    obtain ⟨q, hq1, hq, hpart'⟩ | hbefore := foundBefore_or_of_ne hne
    · obtain ⟨-, hq_d, hq_cur⟩ := id hpart'
      have hgt : nf.toNat < q := by
        by_contra hle
        have hq_same := hagree q hq1 (by omega)
        rw [hq_d, hq_cur] at hq_same
        cases hq_same
      cases (collisionBit_of_gt hgt).symm.trans (h.collisionBit_of_partAt hd hq1 hq hpart')
    · exact hbefore

/-! ## Successive passes (R157, R159) -/

/-- From this cursor up to `k` passes over the devices `S` find the addresses `L`, and FORK is 0 then. -/
def Exhausts (S : List (Vector Byte 8)) (k : Nat) (cur : Vector Byte 8) (fork : BitVec 7)
    (L : List (Vector Byte 8)) : Prop :=
  (refSearch S k cur fork).1 = L ∧ (refSearch S k cur fork).2.2 = Config.forkDone

/-- A search that is not exhausted makes one pass and goes on from its cursor. -/
theorem Exhausts.cons {k : Nat} {fork : BitVec 7} (h : Exhausts S k x.cur x.newfork L)
    (hfork : fork ≠ Config.forkDone) (hpass : refPass S fork.toNat cur 64 = some x) :
    Exhausts S (k + 1) cur fork (x.cur :: L) := by
  have hsearch : refSearch S (k + 1) cur fork =
      (x.cur :: (refSearch S k x.cur x.newfork).1, (refSearch S k x.cur x.newfork).2) := by
    refine (if_neg hfork).trans ?_
    generalize refPass S fork.toNat cur 64 = o at hpass
    subst hpass
    rfl
  rw [Exhausts, hsearch]
  exact ⟨congrArg _ h.1, h.2⟩

/-- From the cursor that a pass left at `a` the search finds the devices after `a` in their order. -/
theorem exhausts_of_lastFork (ha : a ∈ S) (hf : LastFork S 64 a nf) (hL : (a :: L).Pairwise foundBefore)
    (hmem : ∀ d, d ∈ L ↔ d ∈ S ∧ foundBefore a d) : Exhausts S L.length a nf L := by
  induction L generalizing a nf with
  | nil =>
    refine ⟨rfl, by_contra fun hnf => ?_⟩
    obtain ⟨hpos, d, hd, hpart⟩ := hf.parts hnf
    exact List.not_mem_nil ((hmem d).2 ⟨hd, nf.toNat, hpos, hf.le, hpart⟩)
  | cons b L ih =>
    obtain ⟨hb, hab⟩ := (hmem b).1 List.mem_cons_self
    have hnf : nf ≠ Config.forkDone := by
      rintro rfl
      obtain ⟨p, h1, hp, hpart⟩ := hab
      exact Nat.not_le_of_lt h1 (hf.last p h1 hp b hb hpart)
    obtain ⟨x, hx, hwalked⟩ := exists_walked (List.ne_nil_of_mem ha) nf.toNat a (Nat.le_refl 64)
    obtain ⟨hax, hfirst⟩ := hwalked.next_of_lastFork ha hf hnf
    obtain rfl : x.cur = b := eq_head_of_first hL.of_cons ((hmem _).2 ⟨hwalked.cur_mem, hax⟩) fun d hd =>
      hfirst d ((hmem d).1 hd).1 ((hmem d).1 hd).2
    refine (ih hb hwalked.fork hL.of_cons fun d => ?_).cons hnf hx
    rw [mem_tail_iff_of_pairwise hL.of_cons, hmem]
    exact ⟨fun ⟨⟨hd, _⟩, hbd⟩ => ⟨hd, hbd⟩,
      fun ⟨hd, hbd⟩ => ⟨⟨hd, foundBefore_trans hab hbd⟩, hbd⟩⟩

/-- From a fresh cursor the search finds the devices in their order, each once. -/
theorem exhausts_of_fresh (hne : S ≠ []) (hperm : L.Perm S) (hL : L.Pairwise foundBefore) :
    Exhausts S S.length zeroAddr Config.forkFresh L := by
  obtain ⟨x, hx, hwalked⟩ := exists_walked hne Config.forkFresh.toNat zeroAddr (Nat.le_refl 64)
  rw [← hperm.length_eq]
  cases L with
  | nil => exact (hne hperm.symm.eq_nil).elim
  | cons b L =>
    obtain rfl : x.cur = b := eq_head_of_first hL (hperm.mem_iff.2 hwalked.cur_mem) fun d hd =>
      hwalked.first_of_fresh (hperm.mem_iff.1 hd)
    refine (exhausts_of_lastFork hwalked.cur_mem hwalked.fork hL fun d => ?_).cons (by decide) hx
    rw [mem_tail_iff_of_pairwise hL, hperm.mem_iff]

end

/-- Settles O40: the pass finds the one device, and there is no other to come after it. -/
theorem singleDeviceIsFoundByTheFirstPass : Obligations.SingleDeviceIsFoundByTheFirstPass := by
  intro a cur F
  obtain ⟨x, hx, hwalked⟩ := exists_walked (List.cons_ne_nil a []) F cur (Nat.le_refl 64)
  have hcur : x.cur = a := List.mem_singleton.1 hwalked.cur_mem
  have hdevices : x.devices = [a] := (List.sublist_singleton.1 hwalked.sublist).resolve_left hwalked.nonempty
  have hfork : x.newfork = 0 := by
    by_contra hne
    obtain ⟨-, d, hd, -, hbit, hbit'⟩ := hwalked.fork.parts hne
    rw [List.mem_singleton.1 hd, ← hcur, hbit] at hbit'
    cases hbit'
  rw [hx, ← hdevices, ← hfork, ← hcur]

/-- Settles O41: what is found is the list of the devices, brought into order. -/
theorem searchEnumeratesEveryDevice : Obligations.SearchEnumeratesEveryDevice := by
  intro S hne hnodup
  obtain ⟨L, hperm, hL⟩ := exists_perm_pairwise_foundBefore hnodup
  obtain ⟨hfound, hfork⟩ := exhausts_of_fresh hne hperm hL
  exact ⟨hfound ▸ hperm, hfork⟩

/-- Settles O42: what is found is the list of the devices, brought into order. -/
theorem searchFindsAddressesInOrder : Obligations.SearchFindsAddressesInOrder := by
  intro S hne hnodup
  obtain ⟨L, hperm, hL⟩ := exists_perm_pairwise_foundBefore hnodup
  exact (exhausts_of_fresh hne hperm hL).1 ▸ hL

end Sys2Proof.Machine

/-! PROOFS of the family Session (45_session.md). The session commands are built of transactions (`openSession`)
and each has few endings, which `exec_<command>` names; from these follow the statements about one command and
what every instruction leaves of a context (`Context.KeptBy`). That a reading is exact is
`binary32Value_binary32`. -/

namespace Sys2Proof.Machine

/-! ## Rules for the pieces of a session command (R170 to R177) -/

/-- Reading the state is to go on with what is read. -/
theorem Spec.askThen {α β : Type} {g : State → α} {f : α → Cmd β} {t : State} {v : α}
    {Q : β → State → Prop} {F : State → Prop} (hv : g t = v) (hf : Spec (f v) t Q F) :
    Spec (Machine.ask g >>= f) t Q F := by
  subst hv
  exact hf

/-- Two things said of the same pseudocode hold together. -/
theorem Spec.and {α : Type} {c : Cmd α} {t : State} {Q Q' : α → State → Prop} {F : State → Prop}
    (h : Spec c t Q F) (h' : Spec c t Q' F) : Spec c t (fun a u => Q a u ∧ Q' a u) F := by
  unfold Spec at *
  cases hc : c t with
  | ok a u =>
    rw [hc] at h h'
    exact ⟨h.1, h.2, h'.2⟩
  | error e u =>
    rw [hc] at h h'
    cases e with
    | finished => exact h
    | abandoned => exact h

theorem onContext_congr {r : Regs} {c : BitVec 4} {f g : Context → Context}
    (h : f (r.context c) = g (r.context c)) : r.onContext c f = r.onContext c g := by
  rw [Regs.onContext, Regs.onContext, h]

/-- The registers with the scratchpad `sp`. -/
def Regs.setSp (r : Regs) (sp : Vector Byte 9) : Regs := { r with sp := sp }

section
variable (r : Regs) (c : BitVec 4) (f : Context → Context) (sp sp' : Vector Byte 9)

@[simp] theorem Regs.setSp_sp : (r.setSp sp).sp = sp := rfl
@[simp] theorem Regs.setSp_ctx : (r.setSp sp).ctx = r.ctx := rfl
@[simp] theorem Regs.setSp_context : (r.setSp sp).context c = r.context c := rfl
@[simp] theorem Regs.setSp_setSp : (r.setSp sp).setSp sp' = r.setSp sp' := rfl
@[simp] theorem Regs.setSp_onContext : (r.setSp sp).onContext c f = (r.onContext c f).setSp sp := rfl

end

theorem setContext_context (r : Regs) (c : BitVec 4) : r.setContext c (r.context c) = r := by
  simp [Regs.setContext, Regs.context, Vector.get]

section
variable {s t : State} {st : Status} {r : Regs} {m : LineMode} {ev : List LineEvent}
variable {k : Word × List Nat} {F : State → Prop} {hi : Option Bool} {c : BitVec 4}

/-- What a command on a context that exists answers when no `rst` lands (R86). -/
theorem Spec.next_of_withCtx {cmd : Cmd Unit} (hc : c.toNat < s.params.numCtx) (hn : s.NoReset)
    (h : Spec cmd s (fun _ _ => False) F) : ∃ t, Machine.runs (withCtx c cmd) s = .next t ∧ F t :=
  Spec.next_of_noReset (withCtx_spec (fun _ => h) fun hge => absurd hc (Nat.not_lt.2 hge)) hn

/-- The failure of a session's transaction nobody answered: `onFail` records the outcome Timeout, and the
command fails with the code of the pulse (R142, R171 to R175). -/
theorem Did.failTimeout {α : Type} {Q : α → State → Prop} {onFail : Cmd Unit} (hne : hi ≠ some false)
    (h : Spec onFail t (fun _ u => Did s u { st with presence := hi == some false, outcome := .timeout }
      r m ev k) fun _ => False)
    (hF : ∀ u, Ends s u { st.afterReset hi with outcome := .timeout } r m ev k → F u) :
    Spec (onFail >>= fun _ => (Machine.fail (resetCode hi) : Cmd α)) t Q F :=
  h.andThen fun _ _ _ hu => hu.fail _ fun v hv => hF v (by rwa [afterReset_of_absent st hne])

/-- The failing READ_ADDRESS (R171). -/
theorem Did.clearAddress (c : BitVec 4) (h : Did s t st r m ev k) :
    Spec (Machine.clearAddress c) t (fun _ u => Did s u { st with outcome := .timeout }
      (r.onContext c fun x => { x with addr := zeroAddr, outcome := .timeout }) m ev k) F :=
  (h.writeCtx c fun x => { x with addr := zeroAddr }).andThen fun _ _ _ hu => by
    simpa only [onContext_onContext] using hu.setOutcome c .timeout

/-- The integrity gate (R171, R174): it is passed by a check that holds; otherwise `onFail` runs and the
command fails with CRC. -/
theorem Did.crcGate {ok : Bool} {onFail : Cmd Unit} (h : Did s t st r m ev k)
    (hf : ok = false → ∀ u, Did s u { st with crcOk := false } r m ev k →
      Spec (onFail >>= fun _ => (Machine.fail .crc : Cmd Unit)) u (fun _ _ => False) F) :
    Spec (Machine.crcGate ok onFail) t (fun _ u => ok = true ∧ Did s u { st with crcOk := true } r m ev k)
      F := by
  refine (h.writeStatus (f := fun st => { st with crcOk := ok }) fun _ _ => rfl).andThen fun _ u _ hu => ?_
  cases ok with
  | true => exact .pure ⟨rfl, hu⟩
  | false => exact (hf rfl u hu).mono (fun _ _ _ h => h.elim) fun _ _ h => h

/-- In Passive power mode, and only there, the mode of the line changes, with its event (R173, R174). -/
theorem Did.ifPassive (m' : LineMode) (p : PowerMode) (h : Did s t st r m ev k) :
    Spec (Machine.ifPassive m' p) t (fun _ u => Did s u st r (if p = .passive then m' else m)
      (ev ++ if p = .passive then [.setMode m'] else []) k) F := by
  cases p with
  | passive => exact h.setMode m'
  | active => exact .pure (by simpa using h)

/-- The scratchpad gets a free value (R34). -/
theorem Did.releaseScratchpad (h : Did s t st r m ev k) :
    Spec (act State.releaseScratchpad) t (fun _ u => ∃ sp, Did s u st (r.setSp sp) m ev k) F := by
  have hd := h.onRegs (·.setSp (Config.freeScratchpad t.env.draws))
  exact .act (base_of_parts rfl rfl rfl rfl rfl) ⟨_, { hd with
    noReset := hd.noReset
    quiet := hd.quiet
    closed := fun hc => ⟨(hd.closed hc).microIdle, (hd.closed hc).released⟩ }⟩

/-- A transaction as the session commands run it (R173 to R175): reset, select, and the wire byte `b`; when
nobody answers the reset, the outcome is Timeout. -/
def openSession (c : BitVec 4) (b : Byte) : Cmd Unit := do
  beginTransaction (setOutcome c .timeout)
  selectSeq c
  writeByte b

/-- The transaction goes on with its slots shown and PRESENCE set, or the command has ended. -/
theorem Did.openSession (c : BitVec 4) (b : Byte) (h : Did s t st r m ev k)
    (hF : ∀ hi u, hi ≠ some false → Ends s u { st.afterReset hi with outcome := .timeout }
      (r.onContext c fun x => { x with outcome := .timeout }) m (ev ++ resetEvents hi) k → F u) :
    Spec (Machine.openSession c b) t (fun _ u => ∃ ev',
      slotsOf ev' = .reset :: selectSlots (r.context c).addr ++ byteSlots b ∧ levelsOf ev' = [false] ∧
      Did s u { st with presence := true } r m (ev ++ ev') k) F := by
  refine (h.beginTransaction fun hi u hne hu =>
    Did.failTimeout hne (hu.setOutcome c .timeout) (hF hi · hne)).bind (fun _ _ h => h) fun _ t1 _ h1 => ?_
  refine (h1.selectSeq c).andThen ?_
  rintro _ t2 - ⟨ev2, hslots2, hlevels2, h2⟩
  refine (h2.writeByte b).mono ?_ fun _ _ h => h
  rintro _ u - ⟨ev3, hslots3, hlevels3, h3⟩
  refine ⟨resetEvents (some false) ++ ev2 ++ ev3, ?slots, ?levels, by simpa using h3⟩
  case slots => rw [slotsOf_append, slotsOf_append, hslots2, hslots3]; rfl
  case levels => rw [levelsOf_append, levelsOf_append, hlevels2, hlevels3]; rfl

end

/-! ## SELECT (R176) -/

/-- SELECT (R176): the slots of `SelectSeq`, then `finish`. -/
theorem exec_select {c : BitVec 4} {s : State} (hc : c.toNat < s.params.numCtx) (hn : s.NoReset) :
    ∃ t, exec (.select c) s = .next t ∧ ∃ ev, slotsOf ev = selectSlots (s.regs.context c).addr ∧
      levelsOf ev = [] ∧ Ends s t s.status s.regs s.pin.mode ev (s.env.tickIn, s.env.elapses) := by
  refine Spec.next_of_withCtx hc hn ?_
  exact ((Did.start s).selectSeq c).andThen fun _ _ _ ⟨ev, hslots, hlevels, hdid⟩ =>
    hdid.finish fun _ hends => ⟨ev, hslots, hlevels, hends⟩

/-- Settles O45, by what SELECT has done when it ends. -/
theorem selectSendsTheAddress : Obligations.SelectSendsTheAddress := by
  intro c s hc hn
  obtain ⟨t, ht, ev, hslots, hlevels, hends⟩ := exec_select hc hn
  exact ⟨t, ev, ht, hends.done, hends.emitted, hslots, hlevels⟩

/-! ## READ_ADDRESS (R171) -/

/-- READ_ADDRESS ended in `t` because nobody answered its reset. -/
def AddressAbsent (c : BitVec 4) (s t : State) : Prop := ∃ hi, hi ≠ some false ∧
  Ends s t { s.status.afterReset hi with outcome := .timeout }
    (s.regs.onContext c fun x => { x with addr := zeroAddr, outcome := .timeout }) s.pin.mode
    (resetEvents hi) (s.env.tickIn, s.env.elapses)

/-- READ_ADDRESS has shown the reading of `a`. -/
def AddressShown (a : Vector Byte 8) (ev : List LineEvent) : Prop :=
  slotsOf ev = .reset :: byteSlots 0x33 ++ List.replicate 64 .read ∧
  levelsOf ev = false :: (firstBytes a 8).flatMap byteBits

/-- READ_ADDRESS ended in `t` because what it read failed the check: no address is left. -/
def AddressCorrupt (c : BitVec 4) (s t : State) : Prop := ∃ a ev, AddressShown a ev ∧
  crcOf (firstBytes a 8) ≠ 0 ∧
  Ends s t { s.status with presence := true, crcOk := false, fault := .crc, outcome := .timeout }
    (s.regs.onContext c fun x => { x with addr := zeroAddr, outcome := .timeout }) s.pin.mode ev
    (s.env.tickIn, s.env.elapses)

/-- READ_ADDRESS ended in `t` with a checked address. -/
def AddressRead (c : BitVec 4) (s t : State) : Prop := ∃ a ev, AddressShown a ev ∧
  crcOf (firstBytes a 8) = 0 ∧
  Ends s t { s.status with presence := true, crcOk := true, outcome := .ok }
    (s.regs.onContext c fun x => { x with addr := a, outcome := .ok }) s.pin.mode ev
    (s.env.tickIn, s.env.elapses)

/-- READ_ADDRESS of a context that exists (R171): its three endings. -/
theorem exec_readAddress {c : BitVec 4} {s : State} (hc : c.toNat < s.params.numCtx) (hn : s.NoReset) :
    ∃ t, exec (.readAddress c) s = .next t ∧
      (AddressAbsent c s t ∨ AddressCorrupt c s t ∨ AddressRead c s t) := by
  refine Spec.next_of_withCtx hc hn ?_
  refine ((Did.start s).beginTransaction fun hi u hne hu => Did.failTimeout hne (hu.clearAddress c)
    fun _ hends => .inl ⟨hi, hne, hends⟩).bind (fun _ _ h => h) fun _ t1 _ h1 => ?_
  refine (h1.writeByte 0x33).andThen ?_
  rintro _ t2 - ⟨ev2, hslots2, hlevels2, h2⟩
  refine (h2.readBytes (get := fun r => (r.context c).addr)
    (put := fun r a => r.onContext c fun x => { x with addr := a }) 8 (Nat.le_refl 8)
    (fun _ _ => by rw [onContext_context]) (fun _ _ _ => onContext_onContext ..) (setContext_context _ c)
    fun _ => rfl).andThen ?_
  rintro _ t3 - ⟨a, ev3, hslots3, hlevels3, -, -, h3⟩
  have hshown : AddressShown a ([] ++ resetEvents (some false) ++ ev2 ++ ev3) := by
    constructor
    · rw [slotsOf_append, slotsOf_append, hslots2, hslots3]
      rfl
    · rw [levelsOf_append, levelsOf_append, hlevels2, hlevels3]
      rfl
  refine Spec.askThen (v := crcOf (firstBytes a 8) == 0) (by simp [h3.regs, crcCheck]) ?_
  refine (h3.crcGate fun hbad u hu => ?corrupt).bind (fun _ _ h => h) ?read
  case corrupt =>
    refine (hu.clearAddress c).andThen fun _ v _ hv => hv.fail .crc fun w hends =>
      .inr (.inl ⟨a, _, hshown, by simpa using hbad, ?_⟩)
    simpa only [onContext_onContext] using hends
  case read =>
    rintro _ t4 - ⟨hgood, h4⟩
    refine (h4.setOutcome c .ok).andThen fun _ _ _ h5 => h5.finish fun w hends =>
      .inr (.inr ⟨a, _, hshown, by simpa using hgood, ?_⟩)
    simpa only [onContext_onContext] using hends

/-- Settles O46, by the endings of READ_ADDRESS. -/
theorem readAddressKeepsOnlyAValidAddress : Obligations.ReadAddressKeepsOnlyAValidAddress := by
  intro c s hc hn
  obtain ⟨t, ht, ⟨hi, hne, hends⟩ | ⟨a, ev, ⟨hslots, hlevels⟩, hbad, hends⟩ |
    ⟨a, ev, ⟨hslots, hlevels⟩, hgood, hends⟩⟩ := exec_readAddress hc hn
  · exact ⟨t, hi, _, ht, hends.emitted, .inl ⟨hne, rfl, hends.done⟩⟩
  · refine ⟨t, some false, ev, ht, hends.emitted, .inr ⟨rfl, a, hslots, hlevels, ?_⟩⟩
    rw [if_neg hbad]
    exact hends.done
  · refine ⟨t, some false, ev, ht, hends.emitted, .inr ⟨rfl, a, hslots, hlevels, ?_⟩⟩
    rw [if_pos hgood]
    exact hends.done

/-! ## TEMP_UPDATE in phase Idle (R173) -/

/-- A transaction that is begun with its wire byte, as the commands write it out. -/
theorem openSession_bind {α : Type} (c : BitVec 4) (b : Byte) (f : Unit → Cmd α) :
    openSession c b >>= f = (do beginTransaction (setOutcome c .timeout); selectSeq c; writeByte b >>= f) := by
  simp only [openSession, bind_assoc]

/-- TEMP_UPDATE ended in `t` because nobody answered the reset of its transaction; `x` is the change of the
context, `m` the line's mode and `ev` what was shown before (R173, R174). -/
def TempAbsent (c : BitVec 4) (s t : State) (x : Context → Context) (m : LineMode)
    (ev : List LineEvent) : Prop := ∃ hi k, hi ≠ some false ∧
  Ends s t { s.status.afterReset hi with outcome := .timeout }
    (s.regs.onContext c fun y => { x y with outcome := .timeout }) m (ev ++ resetEvents hi) k

/-- TEMP_UPDATE ended in `t` with a conversion begun at the tick `k.1`. -/
def ConversionBegun (c : BitVec 4) (s t : State) : Prop := ∃ (ev : List LineEvent) (k : Word × List Nat),
  slotsOf ev = .reset :: selectSlots (s.regs.context c).addr ++ byteSlots 0x44 ∧
  levelsOf ev = [false] ∧
  (∀ n rest, s.env.elapses = n :: rest → k = (s.env.tickIn + BitVec.ofNat 32 n, rest)) ∧
  Ends s t { s.status with presence := true, outcome := .pollingInProgress }
    (s.regs.onContext c fun x => { x with t0 := k.1, phase := .conversionStarted
                                          outcome := .pollingInProgress })
    (if s.regs.powerMode = .passive then .strongPullup else s.pin.mode)
    (ev ++ if s.regs.powerMode = .passive then [.setMode .strongPullup] else []) k

/-- TEMP_UPDATE in phase Idle (R173): its two endings. -/
theorem exec_tempUpdate_idle {c : BitVec 4} {s : State} (hc : c.toNat < s.params.numCtx) (hn : s.NoReset)
    (hphase : (s.regs.context c).phase = .idle) : ∃ t, exec (.tempUpdate c) s = .next t ∧
      (TempAbsent c s t id s.pin.mode [] ∨ ConversionBegun c s t) := by
  refine Spec.next_of_withCtx hc hn ?_
  refine Spec.askThen hphase ?_
  unfold tempPhase startPhase sendConvertT
  rw [← openSession_bind]
  refine ((Did.start s).openSession c 0x44 fun hi u hne hends => .inl ⟨hi, _, hne, hends⟩).bind
    (fun _ _ h => h) ?_
  rintro _ t1 - ⟨ev, hslots, hlevels, h1⟩
  refine Spec.askThen (congrArg Regs.powerMode h1.regs) ?_
  refine (h1.ifPassive .strongPullup s.regs.powerMode).andThen fun _ _ _ h2 => h2.tick.andThen ?_
  rintro _ t3 - ⟨k, rfl, htick, h3⟩
  refine (h3.writeCtx c fun x => { x with t0 := k.1 }).andThen fun _ _ _ h4 => ?_
  refine (h4.writeCtx c fun x => { x with phase := .conversionStarted }).andThen fun _ _ _ h5 => ?_
  refine (h5.setOutcome c .pollingInProgress).andThen fun _ _ _ h6 => h6.finish fun u hends =>
    .inr ⟨ev, k, hslots, hlevels, htick, ?_⟩
  simpa only [onContext_onContext, List.nil_append] using hends

/-- Settles O47, by the endings of TEMP_UPDATE in phase Idle. -/
theorem tempUpdateStartsAConversion : Obligations.TempUpdateStartsAConversion := by
  intro c s hc hn hphase
  obtain ⟨t, ht, ⟨hi, k, hne, hends⟩ | ⟨ev, k, hslots, hlevels, htick, hends⟩⟩ :=
    exec_tempUpdate_idle hc hn hphase
  · exact ⟨t, hi, _, ht, hends.emitted, .inl ⟨hne, rfl, hends.done⟩⟩
  · refine ⟨t, some false, _, ht, hends.emitted, .inr ⟨rfl, ?slots, ?levels, ?last, ?done, ?ticks⟩⟩
    case slots =>
      rw [slotsOf_append, hslots]
      split <;> simp [slotsOf]
    case levels =>
      rw [levelsOf_append, hlevels]
      split <;> simp [levelsOf]
    case last =>
      intro hp
      simp [hp]
    case done =>
      rw [hends.tickIn]
      exact hends.done
    case ticks =>
      intro n rest hel
      rw [hends.tickIn, htick n rest hel]

/-! ## TEMP_UPDATE in ConversionStarted (R172, R174) -/

section
variable {s t : State} {st : Status} {r : Regs} {m : LineMode} {ev : List LineEvent}
variable {k : Word × List Nat} {F : State → Prop} {c : BitVec 4}

/-- The tick source is no part of the pin. -/
theorem advanceTick_pin (t : State) : t.advanceTick.pin = t.pin := by
  unfold State.advanceTick
  simp only
  split <;> rfl

/-- `Tick()` (R24) is no line event. -/
theorem Silent.tick (h : Silent s t st r k) :
    Spec Machine.tick t (fun v u => ∃ k' : Word × List Nat, v = k'.1 ∧
      (∀ n rest, k.2 = n :: rest → k' = (k.1 + BitVec.ofNat 32 n, rest)) ∧ Silent s u st r k') F := by
  refine (h.toDid.tick.and tick_spec).mono ?_ fun _ _ hu => hu
  rintro _ u - ⟨⟨k', rfl, hk, hd⟩, w, hw, rfl, -⟩
  exact ⟨k', rfl, hk, hd, by rw [advanceTick_pin, hw.pin, h.pin]⟩

/-- `SetOutcome(c, o)` (R177) is no line event. -/
theorem Silent.setOutcome (c : BitVec 4) (o : SensorOutcome) (h : Silent s t st r k) :
    Spec (Machine.setOutcome c o) t (fun _ u => Silent s u { st with outcome := o }
      (r.onContext c fun x => { x with outcome := o }) k) F :=
  (h.writeStatus (f := fun a => { a with outcome := o }) fun _ _ => rfl).bind (fun _ _ h => h)
    fun _ _ _ hu => hu.writeRegs (·.onContext c fun x => { x with outcome := o })

/-- A read phase whose check fails (R174): the reading that was stored before stays. -/
theorem Did.dropReading (c : BitVec 4) (h : Did s t st r m ev k) :
    Spec (Machine.dropReading c) t (fun _ u => ∃ sp, Did s u { st with outcome := .timeout }
      ((r.onContext c fun x => { x with outcome := .timeout }).setSp sp) m ev k) F := by
  refine h.releaseScratchpad.andThen ?_
  rintro _ u - ⟨sp, hu⟩
  exact (hu.setOutcome c .timeout).mono (fun _ _ _ hv => ⟨sp, hv⟩) fun _ _ h => h

/-- The reading of a good scratchpad (R174): the context's two fields are the decoded first two bytes. -/
theorem Did.storeReading (c : BitVec 4) (h : Did s t st r m ev k) :
    Spec (Machine.storeReading c) t (fun _ u => Did s u st
      (r.onContext c fun x => { x with
        tempRaw := (decodeTemp (byteAt r.sp 0) (byteAt r.sp 1) x.family).1
        tempF32 := (decodeTemp (byteAt r.sp 0) (byteAt r.sp 1) x.family).2 }) m ev k) F := by
  obtain ⟨reading, hreading⟩ :
    ∃ x, x = decodeTemp (byteAt r.sp 0) (byteAt r.sp 1) (r.context c).family := ⟨_, rfl⟩
  refine Spec.askThen (v := reading) (by rw [h.regs, hreading]) ?_
  refine (h.writeCtx c _).andThen fun _ _ _ h1 => (h1.writeCtx c _).mono (fun _ _ _ h2 => ?_) fun _ _ h => h
  rw [onContext_congr (g := fun x => { x with tempRaw := reading.1, tempF32 := reading.2 })
    (by simp only [hreading])]
  rwa [onContext_onContext] at h2

end

/-- TEMP_UPDATE ended in `t` before the interval had passed: nothing was shown (R172). -/
def StillConverting (c : BitVec 4) (s t : State) : Prop :=
  s.Done t { s.status with outcome := .pollingInProgress }
    (s.regs.onContext c fun x => { x with outcome := .pollingInProgress }) s.pin.mode ∧
  t.trace = s.trace ∧ t.pin = s.pin

/-- The read phase has shown the reading of `bytes` (R174). -/
def ReadingShown (c : BitVec 4) (s : State) (bytes : Vector Byte 9) (ev : List LineEvent) : Prop :=
  slotsOf ev = .reset :: selectSlots (s.regs.context c).addr ++ byteSlots 0xBE ++ List.replicate 72 .read ∧
  levelsOf ev = false :: (firstBytes bytes 9).flatMap byteBits

/-- The line's mode in a read phase (R174). -/
def State.readMode (s : State) : LineMode :=
  if s.regs.powerMode = .passive then .openDrain else s.pin.mode

/-- The event with which a read phase begins (R174). -/
def State.readPrologue (s : State) : List LineEvent :=
  if s.regs.powerMode = .passive then [.setMode .openDrain] else []

section
variable (s : State) (ev : List LineEvent)

theorem slotsOf_readPrologue_append : slotsOf (s.readPrologue ++ ev) = slotsOf ev := by
  unfold State.readPrologue
  split <;> rfl

theorem levelsOf_readPrologue_append : levelsOf (s.readPrologue ++ ev) = levelsOf ev := by
  unfold State.readPrologue
  split <;> rfl

theorem head?_readPrologue_append (h : s.regs.powerMode = .passive) :
    (s.readPrologue ++ ev).head? = some (.setMode .openDrain) := by
  rw [State.readPrologue, if_pos h]
  rfl

end

/-- The read phase ended in `t` because the scratchpad read failed the check (R174). -/
def ReadingCorrupt (c : BitVec 4) (s t : State) : Prop := ∃ bytes ev sp k, ReadingShown c s bytes ev ∧
  crcOf (firstBytes bytes 9) ≠ 0 ∧
  Ends s t { s.status with presence := true, crcOk := false, fault := .crc, outcome := .timeout }
    ((s.regs.onContext c fun x => { x with phase := .idle, outcome := .timeout }).setSp sp)
    s.readMode (s.readPrologue ++ ev) k

/-- The read phase ended in `t` with a good reading (R174). -/
def ReadingStored (c : BitVec 4) (s t : State) : Prop := ∃ bytes ev sp k, ReadingShown c s bytes ev ∧
  crcOf (firstBytes bytes 9) = 0 ∧
  Ends s t { s.status with presence := true, crcOk := true, outcome := .ok }
    ((s.regs.onContext c fun x => { x with
        phase := .idle, outcome := .ok
        tempRaw := (decodeTemp (byteAt bytes 0) (byteAt bytes 1) x.family).1
        tempF32 := (decodeTemp (byteAt bytes 0) (byteAt bytes 1) x.family).2 }).setSp sp)
    s.readMode (s.readPrologue ++ ev) k

/-- The endings of the read phase (R174). -/
def ReadingEnded (c : BitVec 4) (s t : State) : Prop :=
  TempAbsent c s t (fun x => { x with phase := .idle }) s.readMode s.readPrologue ∨
    ReadingCorrupt c s t ∨ ReadingStored c s t

/-- `ReadPhase(c)` (R174). -/
theorem Did.readPhase {Q : Unit → State → Prop} {s t : State} {k : Word × List Nat} (c : BitVec 4)
    (h : Did s t s.status s.regs s.pin.mode [] k) : Spec (Machine.readPhase c) t Q (ReadingEnded c s) := by
  unfold Machine.readPhase sendReadScratchpad
  rw [← openSession_bind]
  refine Spec.askThen (congrArg Regs.powerMode h.regs) ?_
  refine (h.ifPassive .openDrain s.regs.powerMode).andThen
    fun _ t1 _ (h1 : Did s t1 s.status s.regs s.readMode s.readPrologue k) => ?_
  refine (h1.writeCtx c fun x => { x with phase := .idle }).andThen fun _ _ _ h2 => ?_
  refine (h2.openSession c 0xBE fun hi u hne hends => .inl ⟨hi, k, hne, ?absent⟩).bind (fun _ _ h => h) ?_
  case absent => simpa only [onContext_onContext] using hends
  rintro _ t3 - ⟨ev3, hslots3, hlevels3, h3⟩
  refine (h3.readBytes (get := Regs.sp) (put := Regs.setSp) 9 (Nat.le_refl 9)
    (fun _ _ => rfl) (fun _ _ _ => rfl) rfl fun _ => rfl).andThen ?_
  rintro _ t4 - ⟨bytes, ev4, hslots4, hlevels4, -, -, h4⟩
  have hshown : ReadingShown c s bytes (ev3 ++ ev4) := by
    constructor
    · rw [slotsOf_append, hslots3, hslots4, onContext_context]
    · rw [levelsOf_append, hlevels3, hlevels4]
      rfl
  refine Spec.askThen (v := crcOf (firstBytes bytes 9) == 0) (by simp [h4.regs, crcCheck]) ?_
  refine (h4.crcGate fun hbad u hu => ?corrupt).bind (fun _ _ h => h) ?stored
  case corrupt =>
    refine (hu.dropReading c).andThen ?_
    rintro _ v - ⟨sp, hv⟩
    refine hv.fail .crc fun w hends => .inr (.inl ⟨bytes, _, sp, k, hshown, by simpa using hbad, ?_⟩)
    simpa only [Regs.setSp_setSp, Regs.setSp_onContext, onContext_onContext, List.append_assoc] using hends
  case stored =>
    rintro _ t5 - ⟨hgood, h5⟩
    refine (h5.storeReading c).andThen fun _ _ _ h6 => h6.releaseScratchpad.andThen ?_
    rintro _ t7 - ⟨sp, h7⟩
    refine (h7.setOutcome c .ok).andThen fun _ _ _ h8 => h8.finish fun w hends =>
      .inr (.inr ⟨bytes, _, sp, k, hshown, by simpa using hgood, ?_⟩)
    simpa only [Regs.setSp_setSp, Regs.setSp_onContext, Regs.setSp_sp, onContext_onContext,
      List.append_assoc, Context.family] using hends

/-- TEMP_UPDATE in phase ConversionStarted (R172): the gate, at the tick `now`, decides between the read phase
and one more poll. -/
theorem exec_tempUpdate_started {c : BitVec 4} {s : State} (hc : c.toNat < s.params.numCtx) (hn : s.NoReset)
    (hphase : (s.regs.context c).phase = .conversionStarted) : ∃ t, exec (.tempUpdate c) s = .next t ∧
      ∃ now, (∀ n rest, s.env.elapses = n :: rest → now = s.env.tickIn + BitVec.ofNat 32 n) ∧
        if gateOpen now (s.regs.context c).t0 s.params.pollTicks then ReadingEnded c s t
        else StillConverting c s t := by
  refine Spec.next_of_withCtx hc hn ?_
  refine Spec.askThen hphase ?_
  refine (Silent.start s).tick.andThen ?_
  rintro _ t1 - ⟨k, rfl, htick, h1⟩
  have hnow (n : Nat) (rest : List Nat) (hel : s.env.elapses = n :: rest) :
      k.1 = s.env.tickIn + BitVec.ofNat 32 n := by rw [htick n rest hel]
  refine Spec.askThen (v := gateOpen k.1 (s.regs.context c).t0 s.params.pollTicks)
    (by rw [h1.regs, h1.params]) ?_
  cases hgate : gateOpen k.1 (s.regs.context c).t0 s.params.pollTicks with
  | false =>
    exact (h1.setOutcome c .pollingInProgress).andThen fun _ _ _ h2 => h2.finish.mono (fun _ _ _ h => h)
      fun _ _ hend => ⟨k.1, hnow, by rwa [hgate]⟩
  | true =>
    exact (h1.toDid.readPhase c).mono (fun _ _ _ h => h) fun _ _ hend => ⟨k.1, hnow, by rwa [hgate]⟩

/-- Settles O48: the gate of R172 is closed. -/
theorem tempUpdateBeforeTheInterval : Obligations.TempUpdateBeforeTheInterval := by
  intro c s n rest hc hn hphase hel hlt
  obtain ⟨t, ht, now, hnow, hend⟩ := exec_tempUpdate_started hc hn hphase
  rw [hnow n rest hel, if_neg (by simpa [gateOpen] using hlt)] at hend
  exact ⟨t, ht, hend⟩

/-- Settles O49: the gate of R172 is open, and the read phase has its endings. -/
theorem tempUpdateReadsTheScratchpad : Obligations.TempUpdateReadsTheScratchpad := by
  intro c s n rest hc hn hphase hel hle
  obtain ⟨t, ht, now, hnow, hend⟩ := exec_tempUpdate_started hc hn hphase
  rw [hnow n rest hel, if_pos (by simpa [gateOpen] using hle)] at hend
  rcases hend with ⟨hi, k, hne, hends⟩ | ⟨bytes, ev, sp, k, ⟨hslots, hlevels⟩, hbad, hends⟩ |
    ⟨bytes, ev, sp, k, ⟨hslots, hlevels⟩, hgood, hends⟩
  · exact ⟨t, hi, _, s.regs.sp, ht, hends.emitted, head?_readPrologue_append s _,
      .inl ⟨hne, rfl, hends.done⟩⟩
  · refine ⟨t, some false, _, sp, ht, hends.emitted, head?_readPrologue_append s ev, .inr ⟨rfl, bytes,
      (slotsOf_readPrologue_append s ev).trans hslots,
      (levelsOf_readPrologue_append s ev).trans hlevels, ?_⟩⟩
    simp only [if_neg hbad]
    exact hends.done
  · refine ⟨t, some false, _, sp, ht, hends.emitted, head?_readPrologue_append s ev, .inr ⟨rfl, bytes,
      (slotsOf_readPrologue_append s ev).trans hslots,
      (levelsOf_readPrologue_append s ev).trans hlevels, ?_⟩⟩
    simp only [if_pos hgood]
    exact hends.done

/-! ## CONFIG_RESOLUTION (R175) -/

/-- The families whose resolution is configured (R175). -/
theorem configurable_eq_true_iff (fam : Byte) : configurable fam = true ↔ fam = 0x28 ∨ fam = 0x22 := by
  simp [configurable, Config.famDs18b20, Config.famDs1822]

/-- What the first transaction of CONFIG_RESOLUTION has shown when it is complete (R175). -/
def ConfigurationWritten (c : BitVec 4) (s : State) (ev : List LineEvent) : Prop :=
  slotsOf ev = .reset :: selectSlots (s.regs.context c).addr ++ byteSlots 0x4E ++ byteSlots s.params.cfgTh
    ++ byteSlots s.params.cfgTl ++ byteSlots 0x3F ∧ levelsOf ev = [false]

/-- CONFIG_RESOLUTION ended in `t` because nobody answered the reset after the events `ev` (R175). -/
def ConfigurationAbsent (c : BitVec 4) (s t : State) (ev : List LineEvent) : Prop := ∃ hi, hi ≠ some false ∧
  Ends s t { s.status.afterReset hi with outcome := .timeout }
    (s.regs.onContext c fun x => { x with outcome := .timeout }) s.pin.mode (ev ++ resetEvents hi)
    (s.env.tickIn, s.env.elapses)

/-- CONFIG_RESOLUTION ended in `t` with both transactions complete. -/
def ConfigurationCopied (c : BitVec 4) (s t : State) : Prop := ∃ first second,
  ConfigurationWritten c s first ∧
  slotsOf second = .reset :: selectSlots (s.regs.context c).addr ++ byteSlots 0x48 ∧
  levelsOf second = [false] ∧
  Ends s t { s.status with presence := true, outcome := .ok }
    (s.regs.onContext c fun x => { x with outcome := .ok }) s.pin.mode (first ++ second)
    (s.env.tickIn, s.env.elapses)

section
variable {c : BitVec 4} {s : State} {F : State → Prop}

/-- The first transaction of CONFIG_RESOLUTION. -/
theorem writeConfiguration_spec (hF : ∀ u, ConfigurationAbsent c s u [] → F u) :
    Spec (writeConfiguration c) s (fun _ u => ∃ ev, ConfigurationWritten c s ev ∧
      Did s u { s.status with presence := true } s.regs s.pin.mode ev (s.env.tickIn, s.env.elapses)) F := by
  unfold writeConfiguration sendWriteScratchpad
  rw [← openSession_bind]
  refine ((Did.start s).openSession c 0x4E fun hi u hne hends => hF u ⟨hi, hne, hends⟩).bind
    (fun _ _ h => h) ?_
  rintro _ t1 - ⟨ev1, hslots1, hlevels1, h1⟩
  refine Spec.askThen h1.params ?_
  refine (h1.writeByte _).andThen ?_
  rintro _ t2 - ⟨ev2, hslots2, hlevels2, h2⟩
  refine (h2.writeByte _).andThen ?_
  rintro _ t3 - ⟨ev3, hslots3, hlevels3, h3⟩
  refine (h3.writeByte _).mono ?_ fun _ _ h => h
  rintro _ t4 - ⟨ev4, hslots4, hlevels4, h4⟩
  refine ⟨_, ⟨?slots, ?levels⟩, h4⟩
  case slots =>
    simp only [slotsOf_append, hslots1, hslots2, hslots3, hslots4]
    rfl
  case levels =>
    simp only [levelsOf_append, hlevels1, hlevels2, hlevels3, hlevels4]
    rfl

/-- CONFIG_RESOLUTION of another family shows nothing (R175). -/
theorem exec_configResolution_other (hc : c.toNat < s.params.numCtx) (hn : s.NoReset)
    (hfam : ¬ configurable (s.regs.context c).family) : ∃ t, exec (.configResolution c) s = .next t ∧
      Ends s t { s.status with outcome := .ok } (s.regs.onContext c fun x => { x with outcome := .ok })
        s.pin.mode [] (s.env.tickIn, s.env.elapses) := by
  refine Spec.next_of_withCtx hc hn ?_
  refine Spec.askThen rfl ?_
  rw [configureFamily, if_neg hfam, pure_bind]
  exact ((Did.start s).setOutcome c .ok).andThen fun _ _ _ h => h.finish fun _ hends => hends

/-- CONFIG_RESOLUTION of a configurable family (R175): its three endings. -/
theorem exec_configResolution (hc : c.toNat < s.params.numCtx) (hn : s.NoReset)
    (hfam : configurable (s.regs.context c).family) : ∃ t, exec (.configResolution c) s = .next t ∧
      (ConfigurationAbsent c s t [] ∨
        (∃ first, ConfigurationWritten c s first ∧ ConfigurationAbsent c s t first) ∨
        ConfigurationCopied c s t) := by
  refine Spec.next_of_withCtx hc hn ?_
  refine Spec.askThen rfl ?_
  rw [configureFamily, if_pos hfam, bind_assoc]
  refine (writeConfiguration_spec fun _ habsent => .inl habsent).bind (fun _ _ h => h) ?_
  rintro _ t1 - ⟨first, hfirst, h1⟩
  refine (h1.openSession c 0x48 fun hi u hne hends => .inr (.inl ⟨first, hfirst, hi, hne, hends⟩)).bind
    (fun _ _ h => h) ?_
  rintro _ t2 - ⟨second, hslots, hlevels, h2⟩
  exact (h2.setOutcome c .ok).andThen fun _ _ _ h3 => h3.finish fun _ hends =>
    .inr (.inr ⟨first, second, hfirst, hslots, hlevels, hends⟩)

end

/-- Settles O50: another family has one ending, a configurable one three. -/
theorem configResolutionRunsTwoTransactions : Obligations.ConfigResolutionRunsTwoTransactions := by
  intro c s hc hn
  by_cases hfam : configurable (s.regs.context c).family
  case neg =>
    obtain ⟨t, ht, hends⟩ := exec_configResolution_other hc hn hfam
    exact ⟨t, [], ht, hends.emitted, fun _ _ => ⟨rfl, hends.done⟩,
      fun h => absurd ((configurable_eq_true_iff _).2 h) hfam⟩
  case pos =>
    have hother (ev : List LineEvent) (t : State) : (s.regs.context c).family ≠ 0x28 →
        (s.regs.context c).family ≠ 0x22 → ev = [] ∧ s.Done t { s.status with outcome := .ok }
          (s.regs.onContext c fun x => { x with outcome := .ok }) s.pin.mode :=
      fun h h' => (((configurable_eq_true_iff _).1 hfam).elim h h').elim
    obtain ⟨t, ht, ⟨hi, hne, hends⟩ | ⟨first, ⟨hslots, hlevels⟩, hi, hne, hends⟩ |
      ⟨first, second, ⟨hslots, hlevels⟩, hslots', hlevels', hends⟩⟩ := exec_configResolution hc hn hfam
    · exact ⟨t, _, ht, hends.emitted, hother _ t, fun _ => ⟨_, [], (List.append_nil _).symm,
        .inl ⟨hi, hne, rfl, rfl, hends.done⟩⟩⟩
    · exact ⟨t, _, ht, hends.emitted, hother _ t, fun _ => ⟨first, _, rfl,
        .inr ⟨hslots, hlevels, .inl ⟨hi, hne, rfl, hends.done⟩⟩⟩⟩
    · exact ⟨t, _, ht, hends.emitted, hother _ t, fun _ => ⟨first, second, rfl,
        .inr ⟨hslots, hlevels, .inr ⟨hslots', hlevels', hends.done⟩⟩⟩⟩

/-! ## The value of a reading (R178) -/

/-- The binary32 word of a sign, an exponent field and a fraction field. -/
def packFloat (neg : Prop) [Decidable neg] (e f : Nat) : Word :=
  BitVec.ofNat 32 ((if neg then 2 ^ 31 else 0) + e * 2 ^ 23 + f)

section
variable {neg : Prop} [Decidable neg] {e f : Nat}

theorem toNat_packFloat (he : e < 2 ^ 8) (hf : f < 2 ^ 23) :
    (packFloat neg e f).toNat = (if neg then 2 ^ 31 else 0) + e * 2 ^ 23 + f := by
  rw [packFloat, BitVec.toNat_ofNat, Nat.mod_eq_of_lt]
  split <;> omega

theorem fraction_packFloat (he : e < 2 ^ 8) (hf : f < 2 ^ 23) :
    ((packFloat neg e f).extractLsb' 0 23).toNat = f := by
  rw [BitVec.extractLsb'_toNat, toNat_packFloat he hf, Nat.shiftRight_zero]
  split <;> omega

theorem exponent_packFloat (he : e < 2 ^ 8) (hf : f < 2 ^ 23) :
    ((packFloat neg e f).extractLsb' 23 8).toNat = e := by
  rw [BitVec.extractLsb'_toNat, toNat_packFloat he hf, Nat.shiftRight_eq_div_pow]
  split <;> omega

theorem sign_packFloat (he : e < 2 ^ 8) (hf : f < 2 ^ 23) :
    (packFloat neg e f).getLsbD 31 = decide neg := by
  rw [BitVec.getLsbD, toNat_packFloat he hf, Nat.testBit_eq_decide_div_mod_eq, decide_eq_decide]
  split <;> simp only [*, iff_true, iff_false] <;> omega

/-- A nonzero exponent field is that of a normal number: sign, significand, exponent. -/
theorem binary32Value_packFloat (h0 : e ≠ 0) (he : e < 2 ^ 8) (hf : f < 2 ^ 23) :
    binary32Value (packFloat neg e f) =
      (if neg then -1 else 1) * ((2 ^ 23 + f : Nat) : Rat) * ((2 ^ e : Nat) : Rat) / ((2 ^ 150 : Nat) : Rat) := by
  have hne : packFloat neg e f ≠ 0 := fun h => h0 (by
    rw [← exponent_packFloat (neg := neg) he hf, h]
    rfl)
  rw [binary32Value, if_neg hne, fraction_packFloat he hf, exponent_packFloat he hf, sign_packFloat he hf]
  simp only [decide_eq_true_eq]

end

section
variable {x : Int} {k : Nat}

/-- The significand of `binary32` is that of `x`, shifted up to 24 bits. -/
theorem significand_binary32 (hx : x ≠ 0) (hlt : x.natAbs < 2 ^ 24) :
    2 ^ 23 + (x.natAbs - 2 ^ x.natAbs.log2) * 2 ^ (23 - x.natAbs.log2) =
      x.natAbs * 2 ^ (23 - x.natAbs.log2) := by
  have hlog : x.natAbs.log2 < 24 := (Nat.log2_lt (by omega)).2 hlt
  have hle : 2 ^ x.natAbs.log2 ≤ x.natAbs := Nat.log2_self_le (by omega)
  have hpow : 2 ^ 23 = 2 ^ x.natAbs.log2 * 2 ^ (23 - x.natAbs.log2) := by
    rw [← Nat.pow_add]
    congr 1
    omega
  rw [hpow, ← Nat.add_mul, Nat.add_sub_cancel' hle]

/-- A nonzero `x / 2 ^ k` has a normal binary32: a nonzero exponent field that is not all ones. -/
theorem binary32_eq_packFloat (hx : x ≠ 0) (hlt : x.natAbs < 2 ^ 24) (hk : k ≤ 126) :
    ∃ e f, e ≠ 0 ∧ e < 2 ^ 8 - 1 ∧ f < 2 ^ 23 ∧ binary32 x k = packFloat (x < 0) e f ∧
      (2 ^ 23 + f) * 2 ^ e = x.natAbs * 2 ^ (150 - k) := by
  have hlog : x.natAbs.log2 < 24 := (Nat.log2_lt (by omega)).2 hlt
  have hsig := significand_binary32 hx hlt
  refine ⟨_, _, by omega, by omega, ?fraction, if_neg hx, ?value⟩
  case fraction =>
    have hup : x.natAbs * 2 ^ (23 - x.natAbs.log2) < 2 ^ 24 := calc
      _ < 2 ^ (x.natAbs.log2 + 1) * 2 ^ (23 - x.natAbs.log2) :=
        Nat.mul_lt_mul_of_pos_right Nat.lt_log2_self (Nat.two_pow_pos _)
      _ = 2 ^ 24 := by
        rw [← Nat.pow_add]
        congr 1
        omega
    omega
  case value =>
    rw [hsig, Nat.mul_assoc, ← Nat.pow_add]
    congr 2
    omega

/-- The binary32 is exact (R178). -/
theorem binary32Value_binary32 (hlt : x.natAbs < 2 ^ 24) (hk : k ≤ 126) :
    binary32Value (binary32 x k) = (x : Rat) / 2 ^ k := by
  by_cases hx : x = 0
  · subst hx
    simp [binary32, binary32Value]
  obtain ⟨e, f, h0, he, hf, hpack, hvalue⟩ := binary32_eq_packFloat hx hlt hk
  have hsign : (if x < 0 then -1 else 1) * (x.natAbs : Rat) = x := by
    rw [Nat.cast_natAbs]
    split
    · rw [abs_of_neg ‹_›, Int.cast_neg, neg_one_mul, neg_neg]
    · rw [abs_of_nonneg (not_lt.1 ‹_›), one_mul]
  have hpow : (2 : Rat) ^ 150 = 2 ^ (150 - k) * 2 ^ k := by
    rw [← pow_add]
    congr 1
    omega
  rw [hpack, binary32Value_packFloat h0 (by omega) hf, mul_assoc, ← Nat.cast_mul, hvalue, Nat.cast_mul,
    ← mul_assoc, hsign, Nat.cast_pow, Nat.cast_pow, Nat.cast_ofNat, hpow, mul_comm,
    mul_div_mul_left _ _ (by positivity)]

end

/-- A raw value has 16 bits, so its magnitude is in range. -/
theorem natAbs_toInt_lt (raw : BitVec 16) : raw.toInt.natAbs < 2 ^ 24 := by
  have h1 := raw.toInt_lt
  have h2 := raw.le_toInt
  omega

theorem scaleOf_le (fam : Byte) : scaleOf fam ≤ 126 := by
  unfold scaleOf
  split <;> decide

theorem two_pow_scaleOf (fam : Byte) : (2 : Rat) ^ scaleOf fam = if fam = 0x10 then 2 else 16 := by
  unfold scaleOf Config.famDs18s20
  split <;> norm_num

/-- A reading other than 0 is a normal number (R178). -/
theorem exponent_tempOf {raw : BitVec 16} (fam : Byte) (h : raw ≠ 0) :
    (tempOf raw fam).extractLsb' 23 8 ≠ 255 ∧ (tempOf raw fam).extractLsb' 23 8 ≠ 0 := by
  have hx : raw.toInt ≠ 0 := fun h' => h (BitVec.eq_of_toInt_eq h')
  obtain ⟨e, f, h0, he, hf, hpack, -⟩ := binary32_eq_packFloat hx (natAbs_toInt_lt raw) (scaleOf_le fam)
  have hexp := exponent_packFloat (neg := raw.toInt < 0) (by omega : e < 2 ^ 8) hf
  rw [tempOf, hpack]
  constructor <;> intro h' <;> rw [h'] at hexp
  · have : e = 255 := hexp.symm
    omega
  · exact h0 hexp.symm

theorem tempOf_zero (fam : Byte) : tempOf 0 fam = 0 := rfl

/-- Settles O51: a nonzero reading is normal and exact, and 0 is +0.0. -/
theorem temperatureIsExact : Obligations.TemperatureIsExact := by
  refine ⟨fun lo hi fam => ⟨rfl, ?value⟩, fun lo hi fam => ?normal⟩
  case value =>
    rw [← two_pow_scaleOf]
    exact binary32Value_binary32 (natAbs_toInt_lt _) (scaleOf_le fam)
  case normal =>
    change (tempOf (hi ++ lo) fam).extractLsb' 23 8 ≠ 255 ∧ (tempOf (hi ++ lo) fam = 0 ↔ _) ∧
      (tempOf (hi ++ lo) fam ≠ 0 → (tempOf (hi ++ lo) fam).extractLsb' 23 8 ≠ 0)
    by_cases h : hi ++ lo = (0 : BitVec 16)
    · rw [h, tempOf_zero]
      decide
    · obtain ⟨hones, hzero⟩ := exponent_tempOf fam h
      exact ⟨hones, ⟨fun h' => absurd (by rw [h']; rfl) hzero, fun h' => absurd h' h⟩, fun _ => hzero⟩

/-! ## What an instruction leaves of a context (R177, R179, R212) -/

/-- The instruction `i` may make of context `c` with the fields `x` one with the fields `y`. -/
structure Context.KeptBy (i : Instr) (c : BitVec 4) (x y : Context) : Prop where
  sensor : i ≠ .tempUpdate c →
    y.phase = x.phase ∧ y.t0 = x.t0 ∧ y.tempRaw = x.tempRaw ∧ y.tempF32 = x.tempF32
  addr : i ≠ .readAddress c → y.addr = x.addr
  outcome : i ≠ .readAddress c → i ≠ .tempUpdate c → i ≠ .configResolution c → y.outcome = x.outcome

section
variable {i : Instr} {c d : BitVec 4} {x y : Context} {s t : State}

theorem Context.KeptBy.of_eq (h : y = x) : x.KeptBy i c y := by
  subst h
  exact ⟨fun _ => ⟨rfl, rfl, rfl, rfl⟩, fun _ => rfl, fun _ _ _ => rfl⟩

/-- READ_ADDRESS may change its context's address and outcome (R171). -/
theorem Context.KeptBy.readAddress (h : y = { x with addr := y.addr, outcome := y.outcome }) :
    x.KeptBy (.readAddress c) c y := by
  rw [h]
  exact ⟨fun _ => ⟨rfl, rfl, rfl, rfl⟩, fun hne => absurd rfl hne, fun hne => absurd rfl hne⟩

/-- TEMP_UPDATE keeps the address of its context (R172). -/
theorem Context.KeptBy.tempUpdate (h : y.addr = x.addr) : x.KeptBy (.tempUpdate c) c y :=
  ⟨fun hne => absurd rfl hne, fun _ => h, fun _ hne => absurd rfl hne⟩

/-- CONFIG_RESOLUTION may change its context's outcome (R175). -/
theorem Context.KeptBy.configResolution (h : y = { x with outcome := y.outcome }) :
    x.KeptBy (.configResolution c) c y := by
  rw [h]
  exact ⟨fun _ => ⟨rfl, rfl, rfl, rfl⟩, fun _ => rfl, fun _ _ hne => absurd rfl hne⟩

theorem Context.KeptBy.of_regs {r : Regs} (h : t.regs = r) (hctx : r.ctx = s.regs.ctx) :
    (s.regs.context c).KeptBy i c (t.regs.context c) :=
  .of_eq (by rw [h, Regs.context, Regs.context, hctx])

/-- An instruction that changes context `d` alone keeps the others (R212). -/
theorem Context.KeptBy.of_onContext {r : Regs} {f : Context → Context} (h : t.regs = r)
    (hctx : r.ctx = (s.regs.onContext d f).ctx)
    (hf : (s.regs.context d).KeptBy i d (f (s.regs.context d))) :
    (s.regs.context c).KeptBy i c (t.regs.context c) := by
  have ht : t.regs.context c = if c = d then f (s.regs.context d) else s.regs.context c := by
    rw [h, Regs.context, hctx]
    exact context_setContext ..
  rw [ht]
  split
  case isTrue hcd => exact hcd ▸ hf
  case isFalse => exact .of_eq rfl

/-- There is one next state, so what holds of some next state holds of it. -/
theorem of_next {o : Host.Outcome State Fault Refusal} {P : State → Prop} (hu : ∃ u, o = .next u ∧ P u)
    (h : o = .next t) : P t := by
  obtain ⟨u, hu, hP⟩ := hu
  rw [hu] at h
  cases h
  exact hP

/-- A context that does not exist makes an illegal word (R86): FAULT apart, the command leaves no trace. -/
theorem runs_withCtx_of_ge {cmd : Cmd Unit} (hc : ¬ c.toNat < s.params.numCtx) (hn : s.NoReset) :
    ∃ t, runs (withCtx c cmd) s = .next t ∧ s.Done t { s.status with fault := .illegal } s.regs s.pin.mode :=
  Spec.next_of_noReset (hn := hn) <|
    withCtx_spec (fun h => absurd h hc) fun _ => (Did.start s).fail .illegal fun _ hends => hends.done

theorem keptBy_of_readAddress (hn : s.NoReset) (h : exec (.readAddress d) s = .next t) :
    (s.regs.context c).KeptBy (.readAddress d) c (t.regs.context c) := by
  by_cases hd : d.toNat < s.params.numCtx
  · obtain ⟨_, _, hends⟩ | ⟨_, _, _, _, hends⟩ | ⟨_, _, _, _, hends⟩ := of_next (exec_readAddress hd hn) h <;>
      exact .of_onContext hends.done.regs rfl (.readAddress rfl)
  · exact .of_regs (of_next (runs_withCtx_of_ge hd hn) h).regs rfl

theorem keptBy_of_tempUpdate (hn : s.NoReset) (h : exec (.tempUpdate d) s = .next t) :
    (s.regs.context c).KeptBy (.tempUpdate d) c (t.regs.context c) := by
  by_cases hd : d.toNat < s.params.numCtx
  · cases hphase : (s.regs.context d).phase with
    | idle =>
      obtain ⟨_, _, _, hends⟩ | ⟨_, _, _, _, _, hends⟩ := of_next (exec_tempUpdate_idle hd hn hphase) h <;>
        exact .of_onContext hends.done.regs rfl (.tempUpdate rfl)
    | conversionStarted =>
      obtain ⟨_, _, hend⟩ := of_next (exec_tempUpdate_started hd hn hphase) h
      split at hend
      · obtain ⟨_, _, _, hends⟩ | ⟨_, _, _, _, _, _, hends⟩ | ⟨_, _, _, _, _, _, hends⟩ := hend
        · exact .of_onContext hends.done.regs rfl (.tempUpdate rfl)
        · exact .of_onContext hends.done.regs (Regs.setSp_ctx ..) (.tempUpdate rfl)
        · exact .of_onContext hends.done.regs (Regs.setSp_ctx ..) (.tempUpdate rfl)
      · exact .of_onContext hend.1.regs rfl (.tempUpdate rfl)
  · exact .of_regs (of_next (runs_withCtx_of_ge hd hn) h).regs rfl

theorem keptBy_of_configResolution (hn : s.NoReset) (h : exec (.configResolution d) s = .next t) :
    (s.regs.context c).KeptBy (.configResolution d) c (t.regs.context c) := by
  by_cases hd : d.toNat < s.params.numCtx
  · by_cases hfam : configurable (s.regs.context d).family
    · obtain ⟨_, _, hends⟩ | ⟨_, _, _, _, hends⟩ | ⟨_, _, _, _, _, hends⟩ :=
        of_next (exec_configResolution hd hn hfam) h <;>
        exact .of_onContext hends.done.regs rfl (.configResolution rfl)
    · have hends := of_next (exec_configResolution_other hd hn hfam) h
      exact .of_onContext hends.done.regs rfl (.configResolution rfl)
  · exact .of_regs (of_next (runs_withCtx_of_ge hd hn) h).regs rfl

/-- SEARCH_NEXT writes no context (R154). -/
theorem ctx_of_searchNext (hn : s.NoReset) (h : exec .searchNext s = .next t) : t.regs.ctx = s.regs.ctx := by
  by_cases hfork : s.regs.fork = 0
  · rw [(of_next (searchNextExhausted s hn hfork) h).1.regs]
  · obtain ⟨_, _, hends⟩ | ⟨_, _, _, _, _, _, _, _, _, _, _, hends⟩ | ⟨_, _, _, _, _, _, hends⟩ :=
      of_next (exec_searchNext hn hfork) h <;> rw [hends.done.regs]

/-- A wire byte as an instruction changes no register (R90). -/
theorem regs_of_exec_wire {b : Byte} (hi : encode i = .wire b) (hn : s.NoReset) (h : exec i s = .next t) :
    t.regs = s.regs := by
  rw [exec_of_encode_wire hi] at h
  obtain ⟨u, _, hu, hsent, -⟩ := runs_writeByte b hn
  rw [hu] at h
  cases h
  exact hsent.regs

/-- What every instruction leaves of every context when no `rst` lands. -/
theorem keptBy_of_exec (hn : s.NoReset) (h : exec i s = .next t) :
    (s.regs.context c).KeptBy i c (t.regs.context c) := by
  cases i
  case readAddress => exact keptBy_of_readAddress hn h
  case tempUpdate => exact keptBy_of_tempUpdate hn h
  case configResolution => exact keptBy_of_configResolution hn h
  case searchNext => exact .of_regs rfl (ctx_of_searchNext hn h)
  case owReset =>
    obtain ⟨_, hends⟩ := of_next (exec_owReset hn) h
    exact .of_regs hends.done.regs rfl
  case owWriteBit v =>
    obtain ⟨_, hends⟩ := of_next (exec_owWriteBit v hn) h
    exact .of_regs hends.done.regs rfl
  case owReadBit =>
    obtain ⟨_, hends⟩ := of_next (exec_owReadBit hn) h
    exact .of_regs hends.done.regs rfl
  case owWriteByte b =>
    obtain ⟨_, _, _, hends⟩ := of_next (exec_owWriteByte b hn) h
    exact .of_regs hends.done.regs rfl
  case owReadByte =>
    obtain ⟨_, _, _, _, hends⟩ := of_next (exec_owReadByte hn) h
    exact .of_regs hends.done.regs rfl
  case owWriteBytes len =>
    by_cases hlen : len.toNat ≤ 16
    · obtain ⟨_, _, _, _, hends⟩ := of_next (exec_owWriteBytes hlen hn) h
      exact .of_regs hends.done.regs rfl
    · exact .of_regs (of_next (runs_withLen_of_gt (Nat.lt_of_not_le hlen) hn) h).regs rfl
  case owReadBytes len =>
    by_cases hlen : len.toNat ≤ 16
    · obtain ⟨_, _, _, _, _, hends⟩ := of_next (exec_owReadBytes hlen hn) h
      exact .of_regs hends.done.regs rfl
    · exact .of_regs (of_next (runs_withLen_of_gt (Nat.lt_of_not_le hlen) hn) h).regs rfl
  case crcUpdate b =>
    exact .of_regs (of_next (crcUpdateFoldsOneByte b s hn) h).1.regs rfl
  case crcCheck len =>
    by_cases hlen : len.toNat ≤ 16
    · exact .of_regs (of_next (crcCheckChecksTheBuffer len s hlen hn) h).1.regs rfl
    · exact .of_regs (of_next (runs_withLen_of_gt (Nat.lt_of_not_le hlen) hn) h).regs rfl
  case searchInit => exact .of_regs (of_next (searchInitStartsFresh s hn) h).1.regs rfl
  case select d =>
    by_cases hd : d.toNat < s.params.numCtx
    · obtain ⟨_, _, _, hends⟩ := of_next (exec_select hd hn) h
      exact .of_regs hends.done.regs rfl
    · exact .of_regs (of_next (runs_withCtx_of_ge hd hn) h).regs rfl
  case searchRom | readRom | matchRom | convertT | readScratchpad | writeScratchpad | copyScratchpad =>
    exact .of_regs (regs_of_exec_wire rfl hn h) rfl

end

/-- Settles O52, by what every instruction leaves of a context. -/
theorem onlyTempUpdateMovesTheSensorState : Obligations.OnlyTempUpdateMovesTheSensorState := fun _ _ _ _ hn h =>
  have hkept := keptBy_of_exec hn h
  ⟨hkept.sensor, hkept.addr, hkept.outcome⟩

end Sys2Proof.Machine

/-! PROOFS of the family Exceptions (60_exceptions.md): which codes a command can leave in FAULT (R200). The
endings of each command say what STATUS is when it ends; `RecordsOnly` reads FAULT off them. -/

namespace Sys2Proof.Machine

/-- From `s` to `t` FAULT stays or becomes one of `codes` (R200). -/
def RecordsOnly (codes : List FaultCode) (s t : State) : Prop :=
  t.status.fault = s.status.fault ∨ t.status.fault ∈ codes

section
variable {s t : State} {st : Status} {r : Regs} {m : LineMode} {codes : List FaultCode} {c : BitVec 4}

theorem Status.SameButOvr.fault {a b : Status} (h : a.SameButOvr b) : b.fault = a.fault := by
  unfold SameButOvr at h
  rw [h]

/-- FAULT of a command that has ended. -/
theorem State.Done.fault (h : s.Done t st r m) : t.status.fault = st.fault := h.status.fault

/-- A command that ended with the FAULT of `ResetPresence()` records only the two codes of a reset (R140,
R142), which every command with a transaction has among its own. -/
theorem State.Done.recordsOnly_of_reset {hi : Option Bool} (h : s.Done t st r m)
    (hst : st.fault = (s.status.afterReset hi).fault) :
    RecordsOnly (.noPresence :: .stuckLow :: codes) s t := by
  rw [RecordsOnly, h.fault, hst]
  rcases hi with _ | _ | _ <;> simp [Status.afterReset, resetCode]

/-- SEARCH_NEXT records EXHAUSTED, the codes of a reset, or NEITHER (R154, R156). -/
theorem recordsOnly_of_searchNext (hn : s.NoReset) (h : exec .searchNext s = .next t) :
    RecordsOnly [.noPresence, .stuckLow, .neither, .exhausted] s t := by
  by_cases hfork : s.regs.fork = 0
  · have hdone := (of_next (searchNextExhausted s hn hfork) h).1
    exact .inr (by simp [hdone.fault])
  · obtain ⟨hi, -, hends⟩ | ⟨_, _, _, _, _, _, _, _, _, _, _, hends⟩ | ⟨_, _, _, _, _, _, hends⟩ :=
      of_next (exec_searchNext hn hfork) h
    · exact hends.done.recordsOnly_of_reset (hi := hi) rfl
    · exact .inr (by simp [hends.done.fault])
    · exact .inl hends.done.fault

/-- READ_ADDRESS records the codes of a reset, or CRC (R171). -/
theorem recordsOnly_of_readAddress (hc : c.toNat < s.params.numCtx) (hn : s.NoReset)
    (h : exec (.readAddress c) s = .next t) : RecordsOnly [.noPresence, .stuckLow, .crc] s t := by
  obtain ⟨hi, -, hends⟩ | ⟨_, _, _, _, hends⟩ | ⟨_, _, _, _, hends⟩ := of_next (exec_readAddress hc hn) h
  · exact hends.done.recordsOnly_of_reset (hi := hi) rfl
  · exact .inr (by simp [hends.done.fault])
  · exact .inl hends.done.fault

/-- TEMP_UPDATE records the codes of a reset in either phase, or CRC in the read phase (R173, R174). -/
theorem recordsOnly_of_tempUpdate (hc : c.toNat < s.params.numCtx) (hn : s.NoReset)
    (h : exec (.tempUpdate c) s = .next t) : RecordsOnly [.noPresence, .stuckLow, .crc] s t := by
  cases hphase : (s.regs.context c).phase with
  | idle =>
    obtain ⟨hi, _, -, hends⟩ | ⟨_, _, _, _, _, hends⟩ := of_next (exec_tempUpdate_idle hc hn hphase) h
    · exact hends.done.recordsOnly_of_reset (hi := hi) rfl
    · exact .inl hends.done.fault
  | conversionStarted =>
    obtain ⟨_, _, hend⟩ := of_next (exec_tempUpdate_started hc hn hphase) h
    split at hend
    · obtain ⟨hi, _, -, hends⟩ | ⟨_, _, _, _, _, _, hends⟩ | ⟨_, _, _, _, _, _, hends⟩ := hend
      · exact hends.done.recordsOnly_of_reset (hi := hi) rfl
      · exact .inr (by simp [hends.done.fault])
      · exact .inl hends.done.fault
    · exact .inl hend.1.fault

/-- CONFIG_RESOLUTION records the codes of either reset, and none for another family (R175). -/
theorem recordsOnly_of_configResolution (hc : c.toNat < s.params.numCtx) (hn : s.NoReset)
    (h : exec (.configResolution c) s = .next t) : RecordsOnly [.noPresence, .stuckLow] s t := by
  by_cases hfam : configurable (s.regs.context c).family
  · obtain ⟨hi, -, hends⟩ | ⟨_, _, hi, -, hends⟩ | ⟨_, _, _, _, _, hends⟩ :=
      of_next (exec_configResolution hc hn hfam) h
    · exact hends.done.recordsOnly_of_reset (hi := hi) rfl
    · exact hends.done.recordsOnly_of_reset (hi := hi) rfl
    · exact .inl hends.done.fault
  · exact .inl (of_next (exec_configResolution_other hc hn hfam) h).done.fault

/-- A wire byte as an instruction changes no FAULT (R90, R204). -/
theorem fault_of_exec_wire {i : Instr} {b : Byte} (hi : encode i = .wire b) (hn : s.NoReset)
    (h : exec i s = .next t) : t.status.fault = s.status.fault := by
  rw [exec_of_encode_wire hi] at h
  obtain ⟨u, _, hu, hsent, -⟩ := runs_writeByte b hn
  rw [hu] at h
  cases h
  exact hsent.status.fault

end

/-- Settles O56: every ending of the five commands with a transaction has FAULT as it was or one of their
codes, and the one ending of every other instruction with legal operands has it as it was. -/
theorem faultCodesBelongToTheirCommands : Obligations.FaultCodesBelongToTheirCommands := by
  intro i s t hn hw h
  obtain ⟨hlen, hctx⟩ := Bool.and_eq_true_iff.1 hw
  cases i
  case owReset =>
    obtain ⟨hi, hends⟩ := of_next (exec_owReset hn) h
    exact hends.done.recordsOnly_of_reset (hi := hi) rfl
  case searchNext => exact recordsOnly_of_searchNext hn h
  case readAddress => exact recordsOnly_of_readAddress (of_decide_eq_true hctx) hn h
  case tempUpdate => exact recordsOnly_of_tempUpdate (of_decide_eq_true hctx) hn h
  case configResolution => exact recordsOnly_of_configResolution (of_decide_eq_true hctx) hn h
  all_goals refine .inl ?_
  case owWriteBit v =>
    obtain ⟨_, hends⟩ := of_next (exec_owWriteBit v hn) h
    exact hends.done.fault
  case owReadBit =>
    obtain ⟨_, hends⟩ := of_next (exec_owReadBit hn) h
    exact hends.done.fault
  case owWriteByte b =>
    obtain ⟨_, _, _, hends⟩ := of_next (exec_owWriteByte b hn) h
    exact hends.done.fault
  case owReadByte =>
    obtain ⟨_, _, _, _, hends⟩ := of_next (exec_owReadByte hn) h
    exact hends.done.fault
  case owWriteBytes =>
    obtain ⟨_, _, _, _, hends⟩ := of_next (exec_owWriteBytes (of_decide_eq_true hlen) hn) h
    exact hends.done.fault
  case owReadBytes =>
    obtain ⟨_, _, _, _, _, hends⟩ := of_next (exec_owReadBytes (of_decide_eq_true hlen) hn) h
    exact hends.done.fault
  case crcUpdate b => exact (of_next (crcUpdateFoldsOneByte b s hn) h).1.fault
  case crcCheck len => exact (of_next (crcCheckChecksTheBuffer len s (of_decide_eq_true hlen) hn) h).1.fault
  case searchInit => exact (of_next (searchInitStartsFresh s hn) h).1.fault
  case select =>
    obtain ⟨_, _, _, hends⟩ := of_next (exec_select (of_decide_eq_true hctx) hn) h
    exact hends.done.fault
  case searchRom | readRom | matchRom | convertT | readScratchpad | writeScratchpad | copyScratchpad =>
    exact fault_of_exec_wire rfl hn h

end Sys2Proof.Machine

/-! PROOFS of the family Reset and hazards (70_reset_and_hazards.md R230). While `rst` is asserted a host input
leaves the whole block as it is (`Unmoved`). Of an `rst` in a command there are two laws: due at once, it lands at
the command's first statement, before which the command has touched nothing but the transceiver (`Opens`); due
later, it lands or finds the command over (`exec_lands`). -/

namespace Sys2Proof.Machine

/-! ## The block between commands -/

/-- Settles O60: nothing is pending, at either level of `rst`. -/
theorem anIdleBlockDoesNothing : Obligations.AnIdleBlockDoesNothing := by
  intro s hseq htx hqueue
  unfold step fetchAndRun
  rw [htx, hqueue]
  cases s.rstIn
  · exact show idleStep s = .next s by rw [idleStep, hseq]
  · rfl

theorem applyReset_isReset (s : State) : s.applyReset.IsReset := ⟨rfl, rfl, ⟨_, rfl⟩, rfl, rfl⟩

/-- Settles O17: the step takes the assertion, whose effect is `applyReset`. -/
theorem resetInputLoadsTheResetValues : Obligations.ResetInputLoadsTheResetValues := by
  intro s rest hrst htx hqueue
  refine ⟨s.takeInput.applyReset, ?_, applyReset_isReset _, rfl, rfl, rfl⟩
  rw [step_eq_hostInput htx hqueue, hostInput_of_low (show s.takeInput.rstIn = false from hrst), input]

/-! ## While `rst` is asserted -/

/-- From `s` to `t` only the level of `rst` and the host's side may have changed. -/
def Unmoved (s t : State) : Prop := t = { s with rstIn := t.rstIn, host := t.host }

section
variable {s t u : State}

theorem Unmoved.refl (s : State) : Unmoved s s := rfl

theorem Unmoved.trans (h : Unmoved s t) (k : Unmoved t u) : Unmoved s u :=
  Eq.trans k (congrArg (fun v : State => { v with rstIn := u.rstIn, host := u.host }) h)

theorem Unmoved.block (h : Unmoved s t) : t.seq = s.seq ∧ t.status = s.status ∧ t.regs = s.regs ∧
    t.pin = s.pin ∧ t.engine = s.engine ∧ t.trace = s.trace ∧ t.params = s.params := by
  rw [h]
  exact ⟨rfl, rfl, rfl, rfl, rfl, rfl, rfl⟩

/-- In reset an input is no more than the host's: only a level on `rst` can take the block out of it (log 15). -/
theorem unmoved_of_inputInReset {i : Input} (hrst : s.rstIn = true) (h : inputInReset s i = .next t) :
    Unmoved s t ∧ (i ≠ .rst false → t.rstIn = true) := by
  cases i with
  | rst level =>
    cases h
    exact ⟨rfl, by cases level <;> simp⟩
  | read a =>
    cases ha : a.reg? <;> simp only [inputInReset, ha] at h <;> cases h
    exact ⟨rfl, fun _ => hrst⟩
  | write a v =>
    cases ha : a.reg? <;> simp only [inputInReset, ha] at h <;> cases h
    exact ⟨rfl, fun _ => hrst⟩

/-- In reset a step takes an input or does nothing, whatever is pending. -/
theorem unmoved_of_step (hrst : s.rstIn = true) (h : step s = .next t) : Unmoved s t := by
  unfold step fetchAndRun at h
  rw [hrst] at h
  cases hqueue : s.host.queue with
  | nil =>
    rw [hqueue] at h
    cases h
    exact .refl _
  | cons i rest =>
    rw [hqueue] at h
    exact (show Unmoved s s.takeInput from rfl).trans (unmoved_of_inputInReset (s := s.takeInput) hrst h).1

theorem unmoved_of_runInputs {l : List Input} (hrst : s.rstIn = true) (hl : .rst false ∉ l)
    (h : runInputs l s = .next t) : t.rstIn = true ∧ Unmoved s t := by
  induction l generalizing s with
  | nil =>
    cases h
    exact ⟨hrst, .refl _⟩
  | cons i rest ih =>
    obtain ⟨hi, hrest⟩ := List.ne_and_not_mem_of_not_mem_cons hl
    rw [runInputs, hostInput_of_high hrst] at h
    cases hnext : inputInReset s i with
    | next v =>
      rw [hnext] at h
      obtain ⟨hv, hlevel⟩ := unmoved_of_inputInReset hrst hnext
      obtain ⟨ht, hvt⟩ := ih (hlevel (Ne.symm hi)) hrest h
      exact ⟨ht, hv.trans hvt⟩
    | fault f => simp [hnext] at h
    | refused r => simp [hnext] at h

end

/-- Settles O19, by what an input does in reset, for one step and for any list of accesses. -/
theorem nothingRunsWhileResetIsAsserted : Obligations.NothingRunsWhileResetIsAsserted :=
  ⟨fun _ _ hrst h => (unmoved_of_step hrst h).block, fun _ _ _ hrst hl h =>
    have ⟨ht, hst⟩ := unmoved_of_runInputs hrst hl h
    ⟨ht, hst.block⟩⟩

/-! ## An assertion due at once -/

/-- With an `rst` due at its first statement, `c` comes to that statement and is abandoned there, and what it
did before is lost in the reset. -/
def Opens {α : Type} (c : Cmd α) : Prop := ∀ (s : State) (rest : List BusyInput), s.seq ≠ .idle →
  c (s.setDuring (⟨0, .rst⟩ :: rest)) = .error .abandoned (s.setDuring rest).applyReset

section
variable {α β : Type}

theorem Opens.advance : Opens advance := fun _ rest hs => advance_due hs 0 rest

/-- What follows the first statement is not reached. -/
theorem Opens.bind {c : Cmd α} (h : Opens c) (f : α → Cmd β) : Opens (c >>= f) := by
  intro s rest hs
  change EStateM.bind c f _ = _
  unfold EStateM.bind
  rw [h s rest hs]

/-- Work of the transceiver before the first statement is reset (R105, R230). -/
theorem Opens.engineThen (f : Engine → Engine) {c : Unit → Cmd β} (h : Opens (c ())) :
    Opens (act (·.onEngine f) >>= c) := fun s rest hs => h (s.onEngine f) rest hs

theorem Opens.askThen (g : State → α) {f : α → Cmd β} (h : ∀ a, Opens (f a)) : Opens (ask g >>= f) :=
  fun s rest hs => h _ s rest hs

theorem Opens.pureThen (a : α) {f : α → Cmd β} (h : Opens (f a)) : Opens (pure a >>= f) := h

theorem Opens.write (f : State → State) : Opens (write f) := .bind .advance _

theorem Opens.finish : Opens (finish : Cmd α) := .bind (.write _) _

theorem Opens.fail (code : FaultCode) : Opens (fail code : Cmd α) := .bind (.write _) _

theorem Opens.upTo {f : Nat → Cmd Unit} (h : Opens (f 0)) (n : Nat) : Opens (upTo (n + 1) f) := by
  induction n with
  | zero => exact .pureThen () h
  | succ n ih => exact ih.bind _

/-- A loop, which may have no round, before a statement. -/
theorem Opens.upToThen {f : Nat → Cmd Unit} {c : Unit → Cmd β} (hf : Opens (f 0)) (hc : Opens (c ()))
    (n : Nat) : Opens (Machine.upTo n f >>= c) := by
  cases n with
  | zero => exact .pureThen () hc
  | succ n => exact .bind (.upTo hf n) _

theorem Opens.withLen {c : Cmd Unit} (h : Opens c) (len : BitVec 5) : Opens (withLen len c) := by
  unfold Machine.withLen
  split
  · exact h
  · exact .fail _

theorem Opens.withCtx {c : Cmd Unit} (h : Opens c) (k : BitVec 4) : Opens (withCtx k c) := by
  intro s rest hs
  unfold Machine.withCtx
  split
  · exact h s rest hs
  · exact Opens.fail _ s rest hs

theorem Opens.writeBit (v : Bool) : Opens (writeBit v) := by
  cases v
  · exact .engineThen _ (.bind (.write _) _)
  · exact .engineThen _ (.bind (.write _) _)

theorem Opens.readBit : Opens readBit := .engineThen _ (.bind (.write _) _)

theorem Opens.writeByte (b : Byte) : Opens (writeByte b) :=
  .engineThen _ (.upTo (.engineThen _ (.writeBit _)) 7)

theorem Opens.readByte : Opens readByte :=
  .engineThen _ (.bind (.upTo (.engineThen _ (.bind .readBit _)) 7) _)

theorem Opens.beginTransaction (onFail : Cmd Unit) : Opens (beginTransaction onFail) :=
  .bind (.engineThen _ (.bind (.write _) _)) _

theorem Opens.selectSeq (c : BitVec 4) : Opens (selectSeq c) := .bind (.writeByte _) _

theorem Opens.tempPhase (c : BitVec 4) (ph : Phase) : Opens (tempPhase c ph) := by
  cases ph with
  | idle => exact .bind (.beginTransaction _) _
  | conversionStarted => exact .bind (.bind .advance _) _

/-- CONFIG_RESOLUTION of a family that is not configured goes on at once (R175). -/
theorem Opens.configureFamilyThen (c : BitVec 4) (fam : Byte) {f : Unit → Cmd β} (h : Opens (f ())) :
    Opens (configureFamily c fam >>= f) := by
  unfold Machine.configureFamily
  split
  · exact .bind (.bind (.bind (.beginTransaction _) _) _) _
  · exact .pureThen () h

end

/-- Every instruction opens with a statement. -/
theorem exec_opens (i : Instr) : ∃ c : Cmd Unit, Opens c ∧ ∀ s, exec i s = runs c s := by
  cases i <;> refine ⟨_, ?_, fun _ => rfl⟩
  case owReset => exact .bind (.beginTransaction _) _
  case owWriteBit => exact .bind (.writeBit _) _
  case owReadBit => exact .bind .readBit _
  case owWriteByte => exact .bind (.writeByte _) _
  case owReadByte => exact .bind .readByte _
  case owWriteBytes => exact .withLen (.upToThen (.askThen _ .writeByte) .finish _) _
  case owReadBytes => exact .withLen (.upToThen (.bind .readByte _) .finish _) _
  case crcUpdate | searchInit => exact .bind (.write _) _
  case crcCheck => exact .withLen (.askThen _ fun _ => .bind (.write _) _) _
  case searchNext => exact .engineThen _ (.bind (.write _) _)
  case readAddress => exact .withCtx (.bind (.beginTransaction _) _) _
  case select => exact .withCtx (.bind (.selectSeq _) _) _
  case tempUpdate => exact .withCtx (.askThen _ (.tempPhase _)) _
  case configResolution =>
    exact .withCtx (.askThen _ fun _ => .configureFamilyThen _ _ (.bind (.bind (.write _) _) _)) _
  case searchRom | readRom | matchRom | convertT | readScratchpad | writeScratchpad | copyScratchpad =>
    exact .writeByte _

/-! ## An assertion in a command -/

section
variable {s t : State} {i : Instr} {rest : List BusyInput}

theorem setDuring_of_during {l : List BusyInput} (h : s.host.during = l) : (s.setDuring []).setDuring l = s := by
  rw [← h]
  rfl

theorem runCmd_eq_stOf {α : Type} (c : Cmd α) (s : State) : runCmd c s = stOf (c s) := by
  unfold runCmd stOf
  cases c s <;> rfl

theorem stOf_onRes {α : Type} (f : State → State) (r : EStateM.Result Ended State α) :
    stOf (onRes f r) = f (stOf r) := by
  cases r <;> rfl

theorem exec_of_reset_due (hs : s.seq ≠ .idle) (hd : s.host.during = ⟨0, .rst⟩ :: rest) :
    exec i s = .next (s.setDuring rest).applyReset := by
  obtain ⟨c, hopens, hc⟩ := exec_opens i
  have hcut := hopens (s.setDuring []) rest hs
  rw [setDuring_of_during hd] at hcut
  rw [hc, runs, runCmd_eq_stOf, hcut]
  rfl

/-- Where `rst` is high after an instruction, it landed in it: nothing else raises it. -/
theorem isReset_of_exec (hrst : s.rstIn = false) (h : exec i s = .next t) (ht : t.rstIn = true) :
    t.IsReset := by
  obtain ⟨c, hc, hbuilt⟩ := exec_built s.regs.powerMode i
  obtain ⟨v, hv, ⟨-, u, -, rfl⟩ | ⟨hbase, -⟩⟩ := (hbuilt.spec s rfl).runs <;> rw [hc, hv] at h <;> cases h
  · exact applyReset_isReset u
  · simp [hbase.rst, hrst] at ht

end

/-- Settles O18: an `rst` due at once lands at the first statement; whatever else lands, `rst` is high in the
end only by a reset; and one due later cuts the run without it or outlasts it. -/
theorem resetInputAbandonsACommand : Obligations.ResetInputAbandonsACommand := by
  refine ⟨fun i s w k rest hseq hd => exec_of_reset_due (by simp [hseq]) hd,
    fun i s t => isReset_of_exec, fun i s w k g rest hrst hseq hd => ?_⟩
  obtain ⟨c, hlands, hc⟩ := exec_lands i
  obtain ⟨ev, hev, -, hend⟩ := hlands (s.setDuring []) (by simp [hseq]) rfl g rest
  rw [setDuring_of_during hd] at hend
  simp only [hc, runs, runCmd_eq_stOf]
  refine ⟨_, _, ev, rfl, rfl, hev.emitted, ?_⟩
  rcases hend with ⟨m, hm, hlen, hover⟩ | ⟨v, shown, hidden, hcut, hsplit, hv⟩
  · rw [hover, stOf_onRes]
    exact .inl ⟨hev.rst.trans hrst, hlen.trans hm, g - m, rfl⟩
  · rw [hcut]
    exact .inr ⟨hv.rst, hv.reset, hv.params, hv.during, shown, hidden, hsplit, hv.len, hv.emitted⟩

end Sys2Proof.Machine
